-- ==== Sys2Proof/Word.lean ====
section
/-! DEFINITION. The machine's words: a register, a command and a pixel value are 32 bits (00_scope R5 `REG_W`),
a framebuffer cell is a byte (20_memory R60). -/

namespace Sys2Proof

/-- A register value, a command word, a pixel value or a framebuffer address (00_scope R5, R7). -/
abbrev Word := BitVec 32

/-- One byte of framebuffer memory (20_memory R60). -/
abbrev Byte := BitVec 8

end Sys2Proof
end

