-- ==== Sys2Proof/Syntax.lean ====
section
/-! DEFINITION. The 28 commands (30_encoding R113), one constructor per row of the opcode table. A field that the
decoder checks has a type of its legal values; ROP is a 4-bit number, as 42_rop R140 takes it. -/

namespace Sys2Proof

/-- SURF: which surface descriptor a command reads (30_encoding R98). -/
inductive Surf where
  | dst
  | src
deriving DecidableEq, Repr

/-- DEPTH of PACK and UNPACK: the sub-byte depths 1 bpp (code 1) and 4 bpp (code 2) (30_encoding R99). -/
inductive SubDepth where
  | bpp1
  | bpp4
deriving DecidableEq, Repr

/-- MSZ: the threshold matrix (30_encoding R100). -/
inductive MatrixSize where
  | t4
  | t8
  | t16
deriving DecidableEq, Repr

/-- SMODE: the scan mode (30_encoding R101). -/
inductive ScanMode where
  | replace
  | or
  | and
deriving DecidableEq, Repr

/-- The four command errors (60_exceptions R270). -/
inductive CmdError where
  | badop
  | rsvd
  | param
  | bounds
deriving DecidableEq, Repr

/-- A decoded command: the rows of 30_encoding R113, in the table's order. -/
inductive Instr where
  | nop
  | extract
  | insert
  | pix2rgb (surf : Surf)
  | rgb2pix (surf : Surf)
  | ropcodes (rop : BitVec 4)
  | ropmask (rop : BitVec 4)
  | ropapply
  | ropapplym
  | ropsrc (rop : BitVec 4)
  | pixaddr (surf : Surf)
  | unpack (depth : SubDepth)
  | pack (depth : SubDepth)
  | getpixel (surf : Surf)
  | putpixel (rop : BitVec 4) (msrc : Bool)
  | dthresh (msz : MatrixSize)
  | dcmp (msz : MatrixSize)
  | dmono
  | quant5
  | dconv1 (pad : Bool)
  | solidfill (rop : BitVec 4) (msrc : Bool)
  | solidline (rop : BitVec 4) (msrc xmajor xneg yneg : Bool)
  | copyrect (rop : BitVec 4) (revx revy : Bool)
  | brushmask (rop : BitVec 4)
  | patfill
  | maskfill (rop : BitVec 4)
  | stretchrow (smode : ScanMode) (keep sneg dneg : Bool)
  | shrinkrow (smode : ScanMode) (keep sneg dneg : Bool)
deriving DecidableEq, Repr

end Sys2Proof
end

