-- ==== Sys2Proof/WellFormed.lean ====
section
/-! DEFINITION. Which terms of `Instr` stand for a command word. The types of the fields leave one check: a fill
command with MSRC = 1 has ROP = 0 (30_encoding R95). -/

namespace Sys2Proof

/-- With MSRC = 1 the ROP field is unused and must be 0 (30_encoding R95). -/
def fillFieldsLegal (rop : BitVec 4) (msrc : Bool) : Bool := !msrc || rop == 0

/-- The term is a command that some word spells. -/
def Instr.wellFormed : Instr → Bool
  | .nop => true
  | .extract => true
  | .insert => true
  | .pix2rgb _ => true
  | .rgb2pix _ => true
  | .ropcodes _ => true
  | .ropmask _ => true
  | .ropapply => true
  | .ropapplym => true
  | .ropsrc _ => true
  | .pixaddr _ => true
  | .unpack _ => true
  | .pack _ => true
  | .getpixel _ => true
  | .putpixel rop msrc => fillFieldsLegal rop msrc
  | .dthresh _ => true
  | .dcmp _ => true
  | .dmono => true
  | .quant5 => true
  | .dconv1 _ => true
  | .solidfill rop msrc => fillFieldsLegal rop msrc
  | .solidline rop msrc _ _ _ => fillFieldsLegal rop msrc
  | .copyrect _ _ _ => true
  | .brushmask _ => true
  | .patfill => true
  | .maskfill _ => true
  | .stretchrow _ _ _ _ => true
  | .shrinkrow _ _ _ _ => true

/-- The term is a command that some word spells, as a proposition. -/
abbrev WellFormed (i : Instr) : Prop := i.wellFormed = true

end Sys2Proof
end

