-- ==== Sys2Proof/Decode.lean ====
section
/-! DEFINITION. Decoding a command word (30_encoding R109), total on every word, rejecting by BADOP, RSVD or PARAM;
and after it the encoder, written from the same field positions (30_encoding R91, R113). -/

namespace Sys2Proof

/-- The assigned opcodes by name, in the table's order (30_encoding R113). -/
inductive Opcode where
  | nop | extract | insert | pix2rgb | rgb2pix
  | ropcodes | ropmask | ropapply | ropapplym | ropsrc
  | pixaddr | unpack | pack | getpixel | putpixel
  | dthresh | dcmp | dmono | quant5 | dconv1
  | solidfill | solidline | copyrect
  | brushmask | patfill | maskfill
  | stretchrow | shrinkrow
deriving DecidableEq, Repr

/-- Every assigned opcode (30_encoding R92: 28 of them). -/
def Opcode.all : List Opcode :=
  [.nop, .extract, .insert, .pix2rgb, .rgb2pix,
   .ropcodes, .ropmask, .ropapply, .ropapplym, .ropsrc,
   .pixaddr, .unpack, .pack, .getpixel, .putpixel,
   .dthresh, .dcmp, .dmono, .quant5, .dconv1,
   .solidfill, .solidline, .copyrect,
   .brushmask, .patfill, .maskfill,
   .stretchrow, .shrinkrow]

/-- OPC [7:0] of each command (30_encoding R113). -/
def Opcode.code : Opcode → BitVec 8
  | .nop => 0x00 | .extract => 0x10 | .insert => 0x11 | .pix2rgb => 0x12 | .rgb2pix => 0x13
  | .ropcodes => 0x20 | .ropmask => 0x21 | .ropapply => 0x22 | .ropapplym => 0x23 | .ropsrc => 0x24
  | .pixaddr => 0x30 | .unpack => 0x31 | .pack => 0x32 | .getpixel => 0x33 | .putpixel => 0x34
  | .dthresh => 0x40 | .dcmp => 0x41 | .dmono => 0x42 | .quant5 => 0x43 | .dconv1 => 0x44
  | .solidfill => 0x50 | .solidline => 0x51 | .copyrect => 0x52
  | .brushmask => 0x60 | .patfill => 0x61 | .maskfill => 0x62
  | .stretchrow => 0x70 | .shrinkrow => 0x71

/-- USED_MASK, the bits a command may set (30_encoding R113). -/
def Opcode.usedMask : Opcode → Word
  | .nop => 0x000000FF | .extract => 0x000000FF | .insert => 0x000000FF
  | .pix2rgb => 0x000100FF | .rgb2pix => 0x000100FF
  | .ropcodes => 0x00000FFF | .ropmask => 0x00000FFF | .ropapply => 0x000000FF
  | .ropapplym => 0x000000FF | .ropsrc => 0x00000FFF
  | .pixaddr => 0x000100FF | .unpack => 0x000E00FF | .pack => 0x000E00FF
  | .getpixel => 0x000100FF | .putpixel => 0x00001FFF
  | .dthresh => 0x003000FF | .dcmp => 0x003000FF | .dmono => 0x000000FF
  | .quant5 => 0x000000FF | .dconv1 => 0x000080FF
  | .solidfill => 0x00001FFF | .solidline => 0x38001FFF | .copyrect => 0x00006FFF
  | .brushmask => 0x00000FFF | .patfill => 0x000000FF | .maskfill => 0x00000FFF
  | .stretchrow => 0x07C000FF | .shrinkrow => 0x07C000FF

/-- The commands with an MSRC field (30_encoding R95). -/
def Opcode.hasMsrc : Opcode → Bool
  | .putpixel | .solidfill | .solidline => true
  | _ => false

/-- The assigned opcode of a byte, if there is one (30_encoding R92). -/
def Opcode.ofCode (b : BitVec 8) : Option Opcode := Opcode.all.find? (fun op => op.code == b)

/-- ROP [11:8] (30_encoding R94). -/
def ropField (w : Word) : BitVec 4 := w.extractLsb' 8 4

/-- SURF [16] (30_encoding R98). -/
def surfField (w : Word) : Surf := if w.getLsbD 16 then .src else .dst

/-- DEPTH [19:17]; a value other than 1 and 2 is reserved (30_encoding R99). -/
def depthField (w : Word) : Option SubDepth :=
  let v := w.extractLsb' 17 3
  if v = 1 then some .bpp1 else if v = 2 then some .bpp4 else none

/-- MSZ [21:20]; 3 is reserved (30_encoding R100). -/
def mszField (w : Word) : Option MatrixSize :=
  let v := w.extractLsb' 20 2
  if v = 0 then some .t4 else if v = 1 then some .t8 else if v = 2 then some .t16 else none

/-- SMODE [23:22]; 3 is reserved (30_encoding R101). -/
def smodeField (w : Word) : Option ScanMode :=
  let v := w.extractLsb' 22 2
  if v = 0 then some .replace else if v = 1 then some .or else if v = 2 then some .and else none

/-- A field with a reserved value raises PARAM (30_encoding R106). -/
def orParam {α : Type} (field : Option α) (build : α → Instr) : Except CmdError Instr :=
  match field with
  | none => .error .param
  | some a => .ok (build a)

/-- The command of an assigned opcode with the fields of `w`, or PARAM (30_encoding R91, R109). -/
def Opcode.build (op : Opcode) (w : Word) : Except CmdError Instr :=
  match op with
  | .nop => .ok .nop
  | .extract => .ok .extract
  | .insert => .ok .insert
  | .pix2rgb => .ok (.pix2rgb (surfField w))
  | .rgb2pix => .ok (.rgb2pix (surfField w))
  | .ropcodes => .ok (.ropcodes (ropField w))
  | .ropmask => .ok (.ropmask (ropField w))
  | .ropapply => .ok .ropapply
  | .ropapplym => .ok .ropapplym
  | .ropsrc => .ok (.ropsrc (ropField w))
  | .pixaddr => .ok (.pixaddr (surfField w))
  | .unpack => orParam (depthField w) .unpack
  | .pack => orParam (depthField w) .pack
  | .getpixel => .ok (.getpixel (surfField w))
  | .putpixel => .ok (.putpixel (ropField w) (w.getLsbD 12))
  | .dthresh => orParam (mszField w) .dthresh
  | .dcmp => orParam (mszField w) .dcmp
  | .dmono => .ok .dmono
  | .quant5 => .ok .quant5
  | .dconv1 => .ok (.dconv1 (w.getLsbD 15))
  | .solidfill => .ok (.solidfill (ropField w) (w.getLsbD 12))
  | .solidline =>
    .ok (.solidline (ropField w) (w.getLsbD 12) (w.getLsbD 27) (w.getLsbD 28) (w.getLsbD 29))
  | .copyrect => .ok (.copyrect (ropField w) (w.getLsbD 13) (w.getLsbD 14))
  | .brushmask => .ok (.brushmask (ropField w))
  | .patfill => .ok .patfill
  | .maskfill => .ok (.maskfill (ropField w))
  | .stretchrow =>
    orParam (smodeField w) (.stretchrow · (w.getLsbD 24) (w.getLsbD 25) (w.getLsbD 26))
  | .shrinkrow =>
    orParam (smodeField w) (.shrinkrow · (w.getLsbD 24) (w.getLsbD 25) (w.getLsbD 26))

/-- `Decode(w)` of 30_encoding R109: BADOP, then RSVD, then PARAM, then the command. -/
def decode (w : Word) : Except CmdError Instr :=
  match Opcode.ofCode (w.extractLsb' 0 8) with
  | none => .error .badop
  | some op =>
    if w &&& ~~~op.usedMask ≠ 0 then .error .rsvd
    else if op.hasMsrc && w.getLsbD 12 && ropField w != 0 then .error .rsvd
    else op.build w

/-- The instruction the decoder reads from a table row's bits: one command word, of which the bits at `nbits` and
above are 0. A command word is written to CMD whole, so it has no byte layout (20_memory R82, 30_encoding R90). -/
def decodeTableWord (nbits w : Nat) : Option Instr :=
  match decode (BitVec.ofNat 32 (w % 2 ^ nbits)) with
  | .ok i => some i
  | .error _ => none

/-- The opcode of a command (30_encoding R113). -/
def Instr.opcode : Instr → Opcode
  | .nop => .nop
  | .extract => .extract
  | .insert => .insert
  | .pix2rgb _ => .pix2rgb
  | .rgb2pix _ => .rgb2pix
  | .ropcodes _ => .ropcodes
  | .ropmask _ => .ropmask
  | .ropapply => .ropapply
  | .ropapplym => .ropapplym
  | .ropsrc _ => .ropsrc
  | .pixaddr _ => .pixaddr
  | .unpack _ => .unpack
  | .pack _ => .pack
  | .getpixel _ => .getpixel
  | .putpixel _ _ => .putpixel
  | .dthresh _ => .dthresh
  | .dcmp _ => .dcmp
  | .dmono => .dmono
  | .quant5 => .quant5
  | .dconv1 _ => .dconv1
  | .solidfill _ _ => .solidfill
  | .solidline _ _ _ _ _ => .solidline
  | .copyrect _ _ _ => .copyrect
  | .brushmask _ => .brushmask
  | .patfill => .patfill
  | .maskfill _ => .maskfill
  | .stretchrow _ _ _ _ => .stretchrow
  | .shrinkrow _ _ _ _ => .shrinkrow

/-- A field value placed at bit `lo` of the command word (30_encoding R91). -/
def placed {n : Nat} (v : BitVec n) (lo : Nat) : Word := v.setWidth 32 <<< lo

/-- A one-bit field placed at bit `lo` of the command word (30_encoding R91). -/
def placedBit (b : Bool) (lo : Nat) : Word := placed (BitVec.ofBool b) lo

/-- SURF's bit (30_encoding R98). -/
def Surf.bit : Surf → Bool
  | .dst => false
  | .src => true

/-- DEPTH's code (30_encoding R99). -/
def SubDepth.bits : SubDepth → BitVec 3
  | .bpp1 => 1
  | .bpp4 => 2

/-- MSZ's code (30_encoding R100). -/
def MatrixSize.bits : MatrixSize → BitVec 2
  | .t4 => 0
  | .t8 => 1
  | .t16 => 2

/-- SMODE's code (30_encoding R101). -/
def ScanMode.bits : ScanMode → BitVec 2
  | .replace => 0
  | .or => 1
  | .and => 2

/-- The field bits [31:8] of a command's word (30_encoding R91). -/
def Instr.fieldBits : Instr → Word
  | .nop => 0
  | .extract => 0
  | .insert => 0
  | .pix2rgb s => placedBit s.bit 16
  | .rgb2pix s => placedBit s.bit 16
  | .ropcodes c => placed c 8
  | .ropmask c => placed c 8
  | .ropapply => 0
  | .ropapplym => 0
  | .ropsrc c => placed c 8
  | .pixaddr s => placedBit s.bit 16
  | .unpack d => placed d.bits 17
  | .pack d => placed d.bits 17
  | .getpixel s => placedBit s.bit 16
  | .putpixel c m => placed c 8 ||| placedBit m 12
  | .dthresh m => placed m.bits 20
  | .dcmp m => placed m.bits 20
  | .dmono => 0
  | .quant5 => 0
  | .dconv1 p => placedBit p 15
  | .solidfill c m => placed c 8 ||| placedBit m 12
  | .solidline c m x xn yn =>
    placed c 8 ||| placedBit m 12 ||| placedBit x 27 ||| placedBit xn 28 ||| placedBit yn 29
  | .copyrect c rx ry => placed c 8 ||| placedBit rx 13 ||| placedBit ry 14
  | .brushmask c => placed c 8
  | .patfill => 0
  | .maskfill c => placed c 8
  | .stretchrow m k sn dn =>
    placed m.bits 22 ||| placedBit k 24 ||| placedBit sn 25 ||| placedBit dn 26
  | .shrinkrow m k sn dn =>
    placed m.bits 22 ||| placedBit k 24 ||| placedBit sn 25 ||| placedBit dn 26

/-- The command word of a well-formed command (30_encoding R91, R113). -/
def encode (i : Instr) : Word := placed i.opcode.code 0 ||| i.fieldBits

end Sys2Proof
end

