-- ==== Sys2Proof/Config.lean ====
section
/-! DEFINITION. What the implementation or the platform fixes (00_scope R5, 92 "Open parameters"), and the free
values. A constant without a body (`opaque`) can be evaluated by nothing in Lean, so no proof can rest on its value. -/

namespace Sys2Proof.Config

/-- `IMPL_ID`, the value the ID register reads (00_scope R5, 10_state R21). An OPEN parameter: log entry 9. -/
opaque implId : Word

/-- `REG_BASE`, the platform address of the register block (00_scope R5, 20_memory R74). An OPEN parameter: log
entry 9. -/
opaque regBase : Word

/-- `IRQ_LINE`, the interrupt controller input that IRQ drives (60_exceptions R281, 92 D8). An OPEN parameter: log
entry 9. -/
opaque irqLine : Nat

/-- What a framebuffer byte that nothing has written reads as. DESIGN CHOICE (unsafe): log entry 4. -/
def unlistedByte : Byte := 0

/-- What the platform answers to a read of an unbacked address, as a function of the backed bytes and the address
(20_memory R73, 93 I5). A free value: log entry 5. -/
opaque unbackedRead : List Host.Cell → Nat → Byte

/-- The backed bytes that the platform changes when an unbacked address is written (20_memory R73, 93 I5). A free
value: log entry 5. -/
opaque unbackedWrite : List Host.Cell → Nat → Byte → List Host.Cell

/-- The `n`-th free byte: a byte of an abandoned or raced write set, or a raced host read (93 I1, I2). A free value:
log entry 6. -/
opaque freeByte : Nat → Byte

/-- The `n`-th free choice: between the old and the new value of a raced byte (20_memory R78), or whether an unbacked
write of an abandoned or raced command happened (70_reset R301, 93 I1). A free value: log entries 6 and 17. -/
opaque freeBit : Nat → Bool

end Sys2Proof.Config
end

