-- ==== Sys2Proof/Machine/State.lean ====
section
/-! DEFINITION. The machine's state as plain data: every register of the map (10_state R22), the framebuffer memory
(20_memory R60), and the model's own fields for what comes from outside (log entries 2, 3, 6, 7). -/

namespace Sys2Proof.Machine

/-- A channel descriptor: SHIFT in [4:0] and WIDTH in [11:8]; the reserved bits read 0 and are not stored
(10_state R46). -/
structure Chan where
  shift : BitVec 5
  width : BitVec 4
deriving DecidableEq, Repr

/-- The stored registers of one surface descriptor (10_state R40 to R46). FORMAT stores [2:0] only (R43). -/
structure Surface where
  base : Word
  stride : Word
  format : BitVec 3
  orgX : Word
  orgY : Word
  clipW : Word
  clipH : Word
  chanR : Chan
  chanG : Chan
  chanB : Chan
deriving DecidableEq, Repr

/-- The registers that commands read and never write, and that drop host writes while BUSY = 1 (10_state R32, R34,
R35, R37, R40 to R51). -/
structure Regs where
  opa : Word
  opb : Word
  opc : Word
  opd : Word
  fgPixel : Word
  bgPixel : Word
  maskAnd : Word
  maskXor : Word
  dst : Surface
  src : Surface
  brAndBase : Word
  brXorBase : Word
  brStride : Word
  brW : Word
  brH : Word
  brAnchX : Word
  brAnchY : Word
  hatchLo : Word
  hatchHi : Word
  rectX : Word
  rectY : Word
  rectW : Word
  rectH : Word
  srcX : Word
  srcY : Word
  errStart : Word
  errAdd1 : Word
  errAdd2 : Word
  length : Word
deriving DecidableEq, Repr

/-- The result registers (10_state R33). -/
structure Results where
  res0 : Word
  res1 : Word
  res2 : Word
  res3 : Word
deriving DecidableEq, Repr

/-- The fields of STATUS; its reserved bits read 0 and are not stored (10_state R25). -/
structure Status where
  busy : Bool
  done : Bool
  err : Bool
  ovr : Bool
  nullop : Bool
  errcode : BitVec 4
deriving DecidableEq, Repr

/-- Framebuffer memory (20_memory R60). `cells` lists the backed bytes that differ from `Config.unlistedByte`, by
strictly rising address. `holes` lists the platform's unbacked ranges as (first address, number of bytes): a
parameter that no step changes (20_memory R73, log entry 5). -/
structure Memory where
  cells : List Host.Cell
  holes : List (Nat × Nat)
deriving DecidableEq, Repr

/-- What can reach the block, one at a time (60_exceptions R286, R290; log entry 2). Register accesses carry their
width in bits and their byte offset from `REG_BASE` (10_state R20). -/
inductive HostEvent where
  /-- the engine's turn: a command in progress completes (70_reset R310), an idle engine does nothing (R288) -/
  | engine
  /-- an MMIO read; its result goes to `State.rdata` -/
  | mmioRead (width offset : Nat)
  /-- an MMIO write -/
  | mmioWrite (width offset : Nat) (v : Word)
  /-- the host reads a framebuffer byte; its result goes to `State.rdata` -/
  | memRead (addr : Word)
  /-- the host writes a framebuffer byte -/
  | memWrite (addr : Word) (v : Byte)
  /-- the platform's reset input (70_reset R300) -/
  | hardReset
deriving DecidableEq, Repr

/-- The machine. -/
structure State where
  /-- CTRL.IRQ_EN (10_state R24); CTRL has no other stored bit -/
  irqEn : Bool
  /-- STATUS (10_state R25) -/
  status : Status
  /-- CMD, the last accepted command word (10_state R31) -/
  cmd : Word
  /-- the registers commands read (10_state R37) -/
  regs : Regs
  /-- RES0 to RES3 (10_state R33) -/
  res : Results
  /-- framebuffer memory (20_memory R60) -/
  mem : Memory
  /-- the model's own: what reaches the block next, in order (log entry 2) -/
  host : List HostEvent
  /-- the model's own: the word the last host read returned (log entry 3) -/
  rdata : Word
  /-- the model's own: the bytes the host touched in a race with the running command, each with the value it had
  before (20_memory R78, log entry 7) -/
  raced : List (Word × Byte)
  /-- the model's own: the counter that free values are drawn with (log entry 6) -/
  fresh : Nat
deriving DecidableEq, Repr

/-- Why a step stops with a fault. There is no constructor: the block takes no traps (60_exceptions R283), raises no
memory fault (20_memory R75), and every command completes (70_reset R310). Nothing raises one, which is safe only
because the rules name none (log entry 13). -/
inductive Fault where
deriving DecidableEq, Repr

/-- Why a step is refused. -/
inductive Refusal where
  /-- raised by an arm of `exec` whose instruction has no meaning yet; safe. No arm raises it. -/
  | notModelled (mnemonic : String)
  /-- raised by an MMIO access that is not 32 bits wide, which the spec says a model refuses (10_state R20,
  93 I3); safe -/
  | mmioWidth (width : Nat)
  /-- raised by an MMIO access at an offset that is no multiple of 4, which the spec says a model refuses
  (10_state R20, 93 I3); safe -/
  | mmioAlignment (offset : Nat)
  /-- raised by an MMIO access beyond the block's 128 words, for which the spec gives the block no effect
  (10_state R20); safe -/
  | mmioOutside (offset : Nat)
deriving DecidableEq, Repr

/-- The register names of the map (10_state R22), less the surface's own part. -/
inductive SurfReg where
  | base | stride | format | orgX | orgY | clipW | clipH | chanR | chanG | chanB
deriving DecidableEq, Repr

/-- The registers of the map (10_state R22). -/
inductive Reg where
  | id | ctrl | status | cmd
  | opa | opb | opc | opd
  | res0 | res1 | res2 | res3
  | fgPixel | bgPixel | maskAnd | maskXor
  | surf (s : Surf) (r : SurfReg)
  | brAndBase | brXorBase | brStride | brW | brH | brAnchX | brAnchY | hatchLo | hatchHi
  | rectX | rectY | rectW | rectH | srcX | srcY
  | errStart | errAdd1 | errAdd2 | length
deriving DecidableEq, Repr

/-- A channel descriptor after reset (10_state R54). -/
def Chan.reset : Chan := { shift := 0, width := 0 }

/-- A surface descriptor after reset: NULL, with an empty clip rectangle (10_state R43, R54). -/
def Surface.reset : Surface :=
  { base := 0, stride := 0, format := 0, orgX := 0, orgY := 0, clipW := 0, clipH := 0,
    chanR := Chan.reset, chanG := Chan.reset, chanB := Chan.reset }

/-- The registers commands read, after reset (10_state R54). -/
def Regs.reset : Regs :=
  { opa := 0, opb := 0, opc := 0, opd := 0, fgPixel := 0, bgPixel := 0, maskAnd := 0, maskXor := 0,
    dst := Surface.reset, src := Surface.reset,
    brAndBase := 0, brXorBase := 0, brStride := 0, brW := 0, brH := 0, brAnchX := 0, brAnchY := 0,
    hatchLo := 0, hatchHi := 0,
    rectX := 0, rectY := 0, rectW := 0, rectH := 0, srcX := 0, srcY := 0,
    errStart := 0, errAdd1 := 0, errAdd2 := 0, length := 0 }

/-- The result registers after reset (10_state R54). -/
def Results.reset : Results := { res0 := 0, res1 := 0, res2 := 0, res3 := 0 }

/-- STATUS after reset (10_state R54). -/
def Status.reset : Status :=
  { busy := false, done := false, err := false, ovr := false, nullop := false, errcode := 0 }

/-- The machine right after reset (10_state R54, 70_reset R300, R302), with memory that nothing has written, a platform
that backs every address, and nothing arriving from outside (log entries 2 to 7). -/
def State.reset : State :=
  { irqEn := false, status := Status.reset, cmd := 0, regs := Regs.reset, res := Results.reset,
    mem := { cells := [], holes := [] }, host := [], rdata := 0, raced := [], fresh := 0 }

end Sys2Proof.Machine
end

