-- ==== Sys2Proof/Machine/Operands.lean ====
section
/-! DEFINITION. How commands read their operands (30_encoding R105): coordinates, sizes, channel descriptors, RGB24
words, and surfaces. -/

namespace Sys2Proof.Machine

/-- A coordinate, an origin, a stride or an error constant: `sext_32` of the register (00_scope R8, 30_encoding
R105). -/
def coord (v : Word) : Int := v.toInt

/-- A size or an address: the register as an unsigned number (30_encoding R105). -/
def size (v : Word) : Nat := v.toNat

/-- `wrap32` of a mathematical integer, as a word (00_scope R8, 20_memory R61). -/
def wrap32 (v : Int) : Word := BitVec.ofInt 32 v

/-- `ones(n)` as a word (00_scope R8). -/
def ones (n : Nat) : Word := BitVec.ofNat 32 (2 ^ n - 1)

/-- A word that is 1 or 0. -/
def bitWord (b : Bool) : Word := if b then 1 else 0

/-- A channel descriptor word: SHIFT [4:0], WIDTH [11:8], every other bit ignored (10_state R46, 30_encoding
R105). -/
def Chan.ofWord (v : Word) : Chan := { shift := v.extractLsb' 0 5, width := v.extractLsb' 8 4 }

/-- A channel descriptor as it reads back (10_state R46). -/
def Chan.toWord (c : Chan) : Word := c.shift.setWidth 32 ||| c.width.setWidth 32 <<< 8

/-- The codec has no meaning for a width above 8 (10_state R46, 60_exceptions R273). -/
def Chan.tooWide (c : Chan) : Bool := decide (8 < c.width.toNat)

/-- R of an RGB24 word (10_state R48). -/
def rgbR (v : Word) : Byte := v.extractLsb' 16 8

/-- G of an RGB24 word (10_state R48). -/
def rgbG (v : Word) : Byte := v.extractLsb' 8 8

/-- B of an RGB24 word (10_state R48). -/
def rgbB (v : Word) : Byte := v.extractLsb' 0 8

/-- The RGB24 word of three channels, [31:24] = 0 (10_state R48). -/
def rgb24 (r g b : Byte) : Word :=
  r.setWidth 32 <<< 16 ||| g.setWidth 32 <<< 8 ||| b.setWidth 32

/-- The six pixel depths (10_state R43). -/
inductive Depth where
  | bpp1 | bpp4 | bpp8 | bpp16 | bpp24 | bpp32
deriving DecidableEq, Repr

/-- Bits per pixel (10_state R43). -/
def Depth.bits : Depth → Nat
  | .bpp1 => 1
  | .bpp4 => 4
  | .bpp8 => 8
  | .bpp16 => 16
  | .bpp24 => 24
  | .bpp32 => 32

/-- Bytes per pixel of a depth of 8 or more; a sub-byte pixel is reached through 1 byte (10_state R43). -/
def Depth.bytes : Depth → Nat
  | .bpp1 => 1
  | .bpp4 => 1
  | .bpp8 => 1
  | .bpp16 => 2
  | .bpp24 => 3
  | .bpp32 => 4

/-- Several pixels share one byte (10_state R43). -/
def Depth.subByte : Depth → Bool
  | .bpp1 | .bpp4 => true
  | .bpp8 | .bpp16 | .bpp24 | .bpp32 => false

/-- R, G and B are bit fields of the pixel (10_state R47). -/
def Depth.bitfield : Depth → Bool
  | .bpp16 | .bpp24 | .bpp32 => true
  | .bpp1 | .bpp4 | .bpp8 => false

/-- The depth of a FORMAT code; none is NULL, and the reserved code 7 is treated as NULL (10_state R43). -/
def depthOf (code : BitVec 3) : Option Depth :=
  match code with
  | 0 => none
  | 1 => some .bpp1
  | 2 => some .bpp4
  | 3 => some .bpp8
  | 4 => some .bpp16
  | 5 => some .bpp24
  | 6 => some .bpp32
  | _ => none

/-- A surface as commands see it: a descriptor that is not NULL (00_scope R10), or a brush image (46_pattern R231). -/
structure View where
  base : Word
  stride : Int
  depth : Depth
  orgX : Int
  orgY : Int
  clipW : Nat
  clipH : Nat
deriving DecidableEq, Repr

/-- The view of a surface descriptor, none when it is NULL (10_state R41 to R45). -/
def Surface.view (s : Surface) : Option View :=
  match depthOf s.format with
  | none => none
  | some d =>
    some { base := s.base, stride := coord s.stride, depth := d, orgX := coord s.orgX, orgY := coord s.orgY,
           clipW := size s.clipW, clipH := size s.clipH }

/-- Some channel of the descriptor is wider than 8 (60_exceptions R273). -/
def Surface.chanTooWide (s : Surface) : Bool := s.chanR.tooWide || s.chanG.tooWide || s.chanB.tooWide

/-- The surface a SURF field selects (30_encoding R98). -/
def Regs.surface (r : Regs) : Surf → Surface
  | .dst => r.dst
  | .src => r.src

/-- `BrushImg(base)` at DST's depth `d` (46_pattern R231). The clip size is the one the command's rule gives. -/
def Regs.brushImg (r : Regs) (base : Word) (d : Depth) (w h : Nat) : View :=
  { base := base, stride := coord r.brStride, depth := d, orgX := 0, orgY := 0, clipW := w, clipH := h }

/-- `Inside(S, x, y)` (60_exceptions R274). -/
def View.inside (V : View) (x y : Int) : Bool :=
  decide (0 ≤ x) && decide (x < V.clipW) && decide (0 ≤ y) && decide (y < V.clipH)

/-- `RectInside(S, x, y, w, h)` (60_exceptions R274). -/
def View.rectInside (V : View) (x y : Int) (w h : Nat) : Bool :=
  w == 0 || h == 0 ||
    (decide (0 ≤ x) && decide (0 ≤ y) && decide (x + w ≤ V.clipW) && decide (y + h ≤ V.clipH))

/-- The step of a direction field: 0 is +1, 1 is -1 (30_encoding R103, R104). -/
def dirStep (neg : Bool) : Int := if neg then -1 else 1

end Sys2Proof.Machine
end

