-- ==== Sys2Proof/Machine/Flags.lean ====
section
/-! DEFINITION. Every change of STATUS and the interrupt line (10_state R25 to R31, R55; 60_exceptions R270, R275,
R276, R278, R280, R281). -/

namespace Sys2Proof.Machine

/-- ERRCODE of an error (60_exceptions R270). -/
def errorCode : CmdError → BitVec 4
  | .badop => 1
  | .rsvd => 2
  | .param => 3
  | .bounds => 4

/-- STATUS as it reads (10_state R25). -/
def Status.toWord (t : Status) : Word :=
  bitWord t.busy ||| bitWord t.done <<< 1 ||| bitWord t.err <<< 2 ||| bitWord t.ovr <<< 3
    ||| bitWord t.nullop <<< 4 ||| t.errcode.setWidth 32 <<< 8

/-- Acceptance of a command: BUSY set; DONE, ERR, ERRCODE and NULLOP cleared; OVR kept (10_state R29, R31). -/
def Status.accept (t : Status) : Status :=
  { t with busy := true, done := false, err := false, nullop := false, errcode := 0 }

/-- `complete` (60_exceptions R276). -/
def Status.complete (t : Status) : Status := { t with done := true, busy := false }

/-- `nullop` (60_exceptions R278). -/
def Status.nullEnd (t : Status) : Status := { t with nullop := true, done := true, busy := false }

/-- `raise E` (60_exceptions R275). -/
def Status.raise (t : Status) (e : CmdError) : Status :=
  { t with err := true, errcode := errorCode e, done := true, busy := false }

/-- A register write dropped by the busy engine (10_state R29, 60_exceptions R280). -/
def Status.overrun (t : Status) : Status := { t with ovr := true }

/-- A host write of `v` to STATUS: 1 clears DONE [1], ERR with ERRCODE [2], OVR [3] and NULLOP [4]; BUSY and ERRCODE
are read-only (10_state R25, R27 to R30, 60_exceptions R282). -/
def Status.writeOneToClear (t : Status) (v : Word) : Status :=
  { busy := t.busy
    done := t.done && !v.getLsbD 1
    err := t.err && !v.getLsbD 2
    ovr := t.ovr && !v.getLsbD 3
    nullop := t.nullop && !v.getLsbD 4
    errcode := if v.getLsbD 2 then 0 else t.errcode }

/-- The interrupt output, `CTRL.IRQ_EN & STATUS.DONE` (10_state R55, 60_exceptions R281). -/
def State.irq (s : State) : Bool := s.irqEn && s.status.done

end Sys2Proof.Machine
end

