-- ==== Sys2Proof/Machine/Ops.lean ====
section
/-! DEFINITION. The named operations over memory and registers that the commands share: bytes and pixels of
framebuffer memory (20_memory R60 to R72), the ways a command ends (60_exceptions R270 to R278), and the order in which
a rectangle is visited (44_blit R180). -/

namespace Sys2Proof.Machine

/-! ### Bytes of framebuffer memory -/

/-- The byte a list of cells gives an address. -/
def cellGet : List Host.Cell → Nat → Byte
  | [], _ => Config.unlistedByte
  | (b, w) :: t, a => if a = b then w else cellGet t a

/-- A cell in front of a list, unless its byte is the one an unlisted address reads as. -/
def cellCons (a : Nat) (v : Byte) (t : List Host.Cell) : List Host.Cell :=
  if v = Config.unlistedByte then t else (a, v) :: t

/-- A list of cells with the byte at `a` set to `v`, in the same canonical form. -/
def cellSet : List Host.Cell → Nat → Byte → List Host.Cell
  | [], a, v => cellCons a v []
  | (b, w) :: t, a, v =>
    if a < b then cellCons a v ((b, w) :: t)
    else if a = b then cellCons a v t
    else (b, w) :: cellSet t a v

/-- No memory stands behind the address (20_memory R73, log entry 5). -/
def Memory.unbacked (m : Memory) (a : Nat) : Bool :=
  m.holes.any fun h => decide (h.1 ≤ a) && decide (a < h.1 + h.2)

/-- One byte at address `a` (20_memory R60); at an unbacked address, what the platform gives (R73). -/
def Memory.read (m : Memory) (a : Word) : Byte :=
  if m.unbacked a.toNat then Config.unbackedRead m.cells a.toNat else cellGet m.cells a.toNat

/-- Memory with byte `v` at the backed address `a`; an address that is unbacked or outside the 2^32 bytes holds
nothing. -/
def Memory.setBacked (m : Memory) (a : Nat) (v : Byte) : Memory :=
  if m.unbacked a || decide (2 ^ 32 ≤ a) then m else { m with cells := cellSet m.cells a v }

/-- A write of byte `v` at address `a` (20_memory R60); at an unbacked address, what the platform gives (R73). -/
def Memory.write (m : Memory) (a : Word) (v : Byte) : Memory :=
  if m.unbacked a.toNat then
    (Config.unbackedWrite m.cells a.toNat v).foldl (fun m' c => m'.setBacked c.1 c.2) m
  else m.setBacked a.toNat v

/-- The addresses of the cells rise strictly. -/
def cellsRise : List Host.Cell → Bool
  | [] => true
  | [_] => true
  | c :: d :: t => decide (c.1 < d.1) && cellsRise (d :: t)

/-- The canonical form: addresses strictly rising, in the space, backed, and no cell equal to what an unlisted
address reads as. -/
def Memory.wf (m : Memory) : Bool :=
  cellsRise m.cells &&
    m.cells.all fun c => decide (c.1 < 2 ^ 32) && c.2 != Config.unlistedByte && !m.unbacked c.1

/-- `MemRead(addr, n)`: the bytes at `wrap32(addr + i)`, little-endian (20_memory R62). -/
def memRead (m : Memory) (a : Word) : Nat → Word
  | 0 => 0
  | n + 1 => (m.read a).setWidth 32 ||| memRead m (a + 1) n <<< 8

/-- `MemWrite(addr, n, v)`: byte `v[8i+7:8i]` at `wrap32(addr + i)`, in increasing `i` (20_memory R63). -/
def memWrite (m : Memory) (a : Word) : Nat → Word → Memory
  | 0, _ => m
  | n + 1, v => memWrite (m.write a (v.extractLsb' 0 8)) (a + 1) n (v >>> 8)

/-- The addresses `MemRead` and `MemWrite` touch, in increasing `i` (20_memory R62, R63). -/
def byteAddrs (a : Word) : Nat → List Word
  | 0 => []
  | n + 1 => a :: byteAddrs (a + 1) n

/-! ### Pixels -/

/-- What `PixAddr` returns: the byte address, the in-byte mask and the in-byte shift (20_memory R66). -/
structure PixLoc where
  addr : Word
  mask : Byte
  shift : Nat
deriving DecidableEq, Repr

/-- `PixAddr(S, x, y)` (20_memory R66, R67). -/
def pixAddr (V : View) (x y : Int) : PixLoc :=
  let X := V.orgX + x
  let Y := V.orgY + y
  let row := (size V.base : Int) + Y * V.stride
  match V.depth with
  | .bpp4 =>
    if X % 2 = 0 then { addr := wrap32 (row + X / 2), mask := 0xF0, shift := 4 }
    else { addr := wrap32 (row + X / 2), mask := 0x0F, shift := 0 }
  | .bpp1 =>
    let sh := (7 - X % 8).toNat
    { addr := wrap32 (row + X / 8), mask := 1#8 <<< sh, shift := sh }
  | .bpp8 | .bpp16 | .bpp24 | .bpp32 =>
    { addr := wrap32 (row + X * V.depth.bytes), mask := 0xFF, shift := 0 }

/-- The byte addresses of one pixel (20_memory R66, R68). -/
def pixBytes (V : View) (x y : Int) : List Word := byteAddrs (pixAddr V x y).addr V.depth.bytes

/-- One pixel of a byte, right-justified (20_memory R68). -/
def unpackByte (b : Byte) (mask : Byte) (shift : Nat) : Byte := (b &&& mask) >>> shift

/-- A byte with one pixel replaced by the low bits of `v` (20_memory R69). -/
def packByte (b : Byte) (mask : Byte) (shift : Nat) (v : Byte) : Byte :=
  (b &&& ~~~mask) ||| ((v <<< shift) &&& mask)

/-- `GetPix(S, x, y)` (20_memory R68). -/
def getPix (V : View) (m : Memory) (x y : Int) : Word :=
  let p := pixAddr V x y
  if V.depth.subByte then (unpackByte (m.read p.addr) p.mask p.shift).setWidth 32
  else memRead m p.addr V.depth.bytes

/-- `PutPix(S, x, y, v)` (20_memory R69). -/
def putPix (V : View) (m : Memory) (x y : Int) (v : Word) : Memory :=
  let u := v &&& ones V.depth.bits
  let p := pixAddr V x y
  if V.depth.subByte then
    m.write p.addr (packByte (m.read p.addr) p.mask p.shift (u.setWidth 8))
  else memWrite m p.addr V.depth.bytes u

/-! ### How a command ends -/

/-- The three ways a command ends (60_exceptions R270), with the results and the memory it leaves. -/
inductive Ending where
  /-- `complete` (60_exceptions R276) -/
  | complete (res : Results) (mem : Memory)
  /-- `nullop`, with the result registers the command's null path names (60_exceptions R278) -/
  | nullop (res : Results)
  /-- `raise E` (60_exceptions R275) -/
  | raise (e : CmdError)
deriving DecidableEq, Repr

/-- `raise E`: the ONE way an error is taken. STATUS records it; memory and every other register keep their value
(60_exceptions R275, R283). -/
def State.raise (s : State) (e : CmdError) : State := { s with status := s.status.raise e }

/-- `nullop` with results `res` (60_exceptions R278). -/
def State.nullEnd (s : State) (res : Results) : State := { s with status := s.status.nullEnd, res := res }

/-- `complete` with results `res` and memory `mem` (60_exceptions R276). -/
def State.complete (s : State) (res : Results) (mem : Memory) : State :=
  { s with status := s.status.complete, res := res, mem := mem }

/-- The state a command's ending leaves. There is no other return from a command (60_exceptions R283). -/
def State.finish (s : State) : Ending → State
  | .complete res mem => s.complete res mem
  | .nullop res => s.nullEnd res
  | .raise e => s.raise e

/-- What the checks of a command that reads or writes framebuffer memory decide before its first access
(60_exceptions R277): end early, or go on with what the checks computed. -/
inductive Checked (α : Type) where
  /-- the null condition holds (60_exceptions R279) -/
  | null
  /-- an error is raised (60_exceptions R273, R274) -/
  | raise (e : CmdError)
  /-- empty geometry: complete with no access (60_exceptions R277, 44_blit R180) -/
  | empty
  /-- every check has passed -/
  | go (a : α)
deriving DecidableEq, Repr

/-- The ending of a command that writes no result register, from its checks and its memory effect. -/
def Checked.ending {α : Type} (c : Checked α) (res : Results) (mem : Memory) (run : α → Memory) : Ending :=
  match c with
  | .null => .nullop res
  | .raise e => .raise e
  | .empty => .complete res mem
  | .go a => .complete res (run a)

/-- The results with RES0 replaced. -/
def Results.set0 (r : Results) (v : Word) : Results := { r with res0 := v }

/-- The results with RES0 and RES1 replaced. -/
def Results.set01 (r : Results) (v0 v1 : Word) : Results := { r with res0 := v0, res1 := v1 }

/-! ### Rectangles -/

/-- The offsets 0 to n-1, counted up, or down when `rev` is set (00_scope R9, 44_blit R186). -/
def counted (n : Nat) (rev : Bool) : List Nat := if rev then (List.range n).reverse else List.range n

/-- The (column, row) offsets of a rectangle in the order it is visited: raster order (44_blit R180), with columns or
rows reversed on request (44_blit R186). -/
def rectCells (w h : Nat) (revx revy : Bool) : List (Nat × Nat) :=
  (counted h revy).flatMap fun r => (counted w revx).map fun c => (c, r)

/-- A rectangle of a surface: its view, top-left pixel and size (44_blit R180). -/
structure Rect where
  view : View
  x0 : Int
  y0 : Int
  w : Nat
  h : Nat
deriving DecidableEq, Repr

/-- The pixel of a rectangle at a (column, row) offset (44_blit R180). -/
def Rect.x (R : Rect) (c : Nat × Nat) : Int := R.x0 + c.1

/-- The row of a rectangle's pixel at a (column, row) offset (44_blit R180). -/
def Rect.y (R : Rect) (c : Nat × Nat) : Int := R.y0 + c.2

/-- The rectangle lies inside its surface (60_exceptions R274). -/
def Rect.inside (R : Rect) : Bool := R.view.rectInside R.x0 R.y0 R.w R.h

/-- The destination rectangle of the geometry registers in view `V` (10_state R50, 44_blit R180). -/
def Regs.dstRect (r : Regs) (V : View) : Rect :=
  { view := V, x0 := coord r.rectX, y0 := coord r.rectY, w := size r.rectW, h := size r.rectH }

/-- The source rectangle of the geometry registers in view `V`: the same size at (SRC_X, SRC_Y) (10_state R50). -/
def Regs.srcRect (r : Regs) (V : View) : Rect :=
  { view := V, x0 := coord r.srcX, y0 := coord r.srcY, w := size r.rectW, h := size r.rectH }

/-- A destination rectangle with the source rectangle of the same size. -/
structure RectPair where
  dst : Rect
  src : Rect
deriving DecidableEq, Repr

/-- Checks 4 and 5 of a command with one rectangle: empty geometry, then BOUNDS (60_exceptions R277). -/
def checkRect (R : Rect) : Checked Rect :=
  if R.w = 0 ∨ R.h = 0 then .empty
  else if R.inside then .go R
  else .raise .bounds

/-- Checks 4 and 5 of a command with two rectangles: empty geometry, then BOUNDS (60_exceptions R277). -/
def checkPair (D S : Rect) : Checked RectPair :=
  if D.w = 0 ∨ D.h = 0 then .empty
  else if D.inside && S.inside then .go { dst := D, src := S }
  else .raise .bounds

/-- A rectangle's cells visited in an order, each doing its own accesses in turn (20_memory R76, 44_blit R180). -/
def visit (cells : List (Nat × Nat)) (m : Memory) (f : Memory → Nat × Nat → Memory) : Memory := cells.foldl f m

end Sys2Proof.Machine
end

