-- ==== Sys2Proof/Machine/Rop.lean ====
section
/-! DEFINITION. The raster-operation mask engine (42_rop): ROPCODES, ROPMASK, ROPAPPLY, ROPAPPLYM, ROPSRC, and the
pair of the fill commands. -/

namespace Sys2Proof.Machine

/-- The four constants of a code (42_rop R141). -/
structure RopWords where
  a1 : Word
  a2 : Word
  x1 : Word
  x2 : Word
deriving DecidableEq, Repr

/-- An (AND, XOR) pair (42_rop R143). -/
structure MaskPair where
  and : Word
  xor : Word
deriving DecidableEq, Repr

/-- `F(t)`: all ones or zero (42_rop R141). -/
def fillWord (t : Bool) : Word := if t then 0xFFFFFFFF else 0

/-- `RopConsts(c)` (42_rop R141). -/
def ropConsts (c : BitVec 4) : RopWords :=
  let and0 := c.getLsbD 0 ^^ c.getLsbD 1
  let xor0 := c.getLsbD 0
  let and1 := c.getLsbD 2 ^^ c.getLsbD 3
  let xor1 := c.getLsbD 2
  { a1 := fillWord (and0 ^^ and1), a2 := fillWord and0, x1 := fillWord (xor0 ^^ xor1), x2 := fillWord xor0 }

/-- `RopMask(c, colour)` (42_rop R143). -/
def ropMask (c : BitVec 4) (colour : Word) : MaskPair :=
  let k := ropConsts c
  { and := (colour &&& k.a1) ^^^ k.a2, xor := (colour &&& k.x1) ^^^ k.x2 }

/-- `Apply(d, a, x)` (42_rop R145). -/
def applyPair (d a x : Word) : Word := (d &&& a) ^^^ x

/-- `ApplyM(d, a, x, m)` (42_rop R145). -/
def applyPairM (d a x m : Word) : Word := (d &&& (a ||| ~~~m)) ^^^ (x &&& m)

/-- `RopSrc(c, s, d)` (42_rop R146). -/
def ropSrc (c : BitVec 4) (s d : Word) : Word :=
  let p := ropMask c s
  applyPair d p.and p.xor

/-- `FillMasks(w)` from the fields ROP and MSRC of the command word (42_rop R152). -/
def Regs.fillMasks (r : Regs) (rop : BitVec 4) (msrc : Bool) : MaskPair :=
  if msrc then { and := r.maskAnd, xor := r.maskXor } else ropMask rop r.fgPixel

/-- ROPCODES (42_rop R147). -/
def execRopcodes (rop : BitVec 4) (s : State) : Host.Outcome State Fault Refusal :=
  let k := ropConsts rop
  .next (s.finish (.complete { res0 := k.a1, res1 := k.a2, res2 := k.x1, res3 := k.x2 } s.mem))

/-- ROPMASK (42_rop R148). -/
def execRopmask (rop : BitVec 4) (s : State) : Host.Outcome State Fault Refusal :=
  let p := ropMask rop s.regs.opa
  .next (s.finish (.complete (s.res.set01 p.and p.xor) s.mem))

/-- ROPAPPLY (42_rop R149). -/
def execRopapply (s : State) : Host.Outcome State Fault Refusal :=
  .next (s.finish (.complete (s.res.set0 (applyPair s.regs.opa s.regs.opb s.regs.opc)) s.mem))

/-- ROPAPPLYM (42_rop R150). -/
def execRopapplym (s : State) : Host.Outcome State Fault Refusal :=
  .next (s.finish (.complete
    (s.res.set0 (applyPairM s.regs.opa s.regs.opb s.regs.opc s.regs.opd)) s.mem))

/-- ROPSRC (42_rop R151). -/
def execRopsrc (rop : BitVec 4) (s : State) : Host.Outcome State Fault Refusal :=
  .next (s.finish (.complete (s.res.set0 (ropSrc rop s.regs.opa s.regs.opb)) s.mem))

end Sys2Proof.Machine
end

