-- ==== Sys2Proof/Machine/Pack.lean ====
section
/-! DEFINITION. The sub-byte packer and pixel access (43_pack): PIXADDR, UNPACK, PACK, GETPIXEL, PUTPIXEL. -/

namespace Sys2Proof.Machine

/-- The in-byte mask and shift of column `X` at a sub-byte depth, as the packer takes them (43_pack R162, R163). -/
def packerLoc (depth : SubDepth) (X : Nat) : Byte × Nat :=
  match depth with
  | .bpp1 => (1#8 <<< (7 - X % 8), 7 - X % 8)
  | .bpp4 => if X % 2 = 0 then (0xF0, 4) else (0x0F, 0)

/-- The value UNPACK leaves in RES0 (43_pack R162). -/
def unpackValue (depth : SubDepth) (b : Byte) (X : Nat) : Byte :=
  match depth with
  | .bpp1 => (b >>> (7 - X % 8)) &&& 1
  | .bpp4 => if X % 2 = 0 then b >>> 4 else b &&& 0x0F

/-- The byte PACK leaves in RES0 (43_pack R163). -/
def packValue (depth : SubDepth) (b : Byte) (X : Nat) (v : Word) : Byte :=
  let l := packerLoc depth X
  match depth with
  | .bpp1 => packByte b l.1 l.2 ((v &&& 1).setWidth 8)
  | .bpp4 => packByte b l.1 l.2 ((v &&& 0xF).setWidth 8)

/-- PIXADDR (43_pack R161). -/
def execPixaddr (surf : Surf) (s : State) : Host.Outcome State Fault Refusal :=
  .next <| s.finish <|
    match (s.regs.surface surf).view with
    | none => .nullop { res0 := 0, res1 := 0, res2 := 0, res3 := 0 }
    | some V =>
      let p := pixAddr V (coord s.regs.opa) (coord s.regs.opb)
      .complete { res0 := p.addr, res1 := p.mask.setWidth 32, res2 := BitVec.ofNat 32 p.shift,
                  res3 := BitVec.ofNat 32 V.depth.bits } s.mem

/-- UNPACK (43_pack R162). -/
def execUnpack (depth : SubDepth) (s : State) : Host.Outcome State Fault Refusal :=
  let v := unpackValue depth (s.regs.opa.extractLsb' 0 8) (size s.regs.opb)
  .next (s.finish (.complete (s.res.set0 (v.setWidth 32)) s.mem))

/-- PACK (43_pack R163). -/
def execPack (depth : SubDepth) (s : State) : Host.Outcome State Fault Refusal :=
  let v := packValue depth (s.regs.opa.extractLsb' 0 8) (size s.regs.opb) s.regs.opc
  .next (s.finish (.complete (s.res.set0 (v.setWidth 32)) s.mem))

/-- A pixel of a view. -/
structure Pixel where
  view : View
  x : Int
  y : Int
deriving DecidableEq, Repr

/-- The checks of a point access at (OPA, OPB): the null surface, then the clip test (43_pack R164, R165). -/
def pointChecks (S : Surface) (r : Regs) : Checked Pixel :=
  match S.view with
  | none => .null
  | some V =>
    if V.inside (coord r.opa) (coord r.opb) then .go { view := V, x := coord r.opa, y := coord r.opb }
    else .raise .bounds

/-- The read-modify-write of one pixel under an (AND, XOR) pair (43_pack R165, 44_blit R181, R184). -/
def fillPix (V : View) (p : MaskPair) (m : Memory) (x y : Int) : Memory :=
  putPix V m x y (applyPair (getPix V m x y) p.and p.xor)

/-- GETPIXEL (43_pack R164). -/
def execGetpixel (surf : Surf) (s : State) : Host.Outcome State Fault Refusal :=
  .next <| s.finish <|
    match pointChecks (s.regs.surface surf) s.regs with
    | .null => .nullop (s.res.set0 0)
    | .raise e => .raise e
    | .empty => .complete s.res s.mem
    | .go p => .complete (s.res.set0 (getPix p.view s.mem p.x p.y)) s.mem

/-- PUTPIXEL (43_pack R165). -/
def execPutpixel (rop : BitVec 4) (msrc : Bool) (s : State) : Host.Outcome State Fault Refusal :=
  .next <| s.finish <|
    (pointChecks s.regs.dst s.regs).ending s.res s.mem fun p =>
      fillPix p.view (s.regs.fillMasks rop msrc) s.mem p.x p.y

end Sys2Proof.Machine
end

