-- ==== Sys2Proof/Machine/Blit.lean ====
section
/-! DEFINITION. The scan-line blitter (44_blit): SOLIDFILL, SOLIDLINE, COPYRECT. -/

namespace Sys2Proof.Machine

/-- The checks of SOLIDFILL (44_blit R181): a null DST, empty geometry, BOUNDS. -/
def solidfillChecks (r : Regs) : Checked Rect :=
  match r.dst.view with
  | none => .null
  | some V => checkRect (r.dstRect V)

/-- The fill of a rectangle under an (AND, XOR) pair, in raster order (44_blit R181). -/
def solidfillRun (p : MaskPair) (R : Rect) (m : Memory) : Memory :=
  visit (rectCells R.w R.h false false) m fun m' c => fillPix R.view p m' (R.x c) (R.y c)

/-- SOLIDFILL (44_blit R181). -/
def execSolidfill (rop : BitVec 4) (msrc : Bool) (s : State) : Host.Outcome State Fault Refusal :=
  .next <| s.finish <|
    (solidfillChecks s.regs).ending s.res s.mem fun R => solidfillRun (s.regs.fillMasks rop msrc) R s.mem

/-- `LineWalk`: the pixels of a line, in order. Each step plots the pixel, takes the minor step when `err > 0`, updates
the wrapping 32-bit accumulator, and takes the major step (44_blit R183). -/
def lineWalk (add1 add2 : Word) (xmaj : Bool) (sx sy : Int) : Nat → Int → Int → Word → List (Int × Int)
  | 0, _, _, _ => []
  | n + 1, x, y, err =>
    let passes := decide (0 < err.toInt)
    let x1 := if xmaj || passes then x + sx else x
    let y1 := if !xmaj || passes then y + sy else y
    (x, y) :: lineWalk add1 add2 xmaj sx sy n x1 y1 (err + if passes then add1 else add2)

/-- A view with the pixels of a walk in it. -/
structure Walk where
  view : View
  points : List (Int × Int)
deriving DecidableEq, Repr

/-- The checks of SOLIDLINE (44_blit R184): a null DST, LENGTH = 0, BOUNDS over the whole walk. -/
def solidlineChecks (xmajor xneg yneg : Bool) (r : Regs) : Checked Walk :=
  match r.dst.view with
  | none => .null
  | some V =>
    if size r.length = 0 then .empty
    else
      let pts := lineWalk r.errAdd1 r.errAdd2 xmajor (dirStep xneg) (dirStep yneg) (size r.length)
        (coord r.rectX) (coord r.rectY) r.errStart
      if pts.all (fun p => V.inside p.1 p.2) then .go { view := V, points := pts } else .raise .bounds

/-- The pixel operation once per pixel of the walk, in order (44_blit R184). -/
def solidlineRun (p : MaskPair) (W : Walk) (m : Memory) : Memory :=
  W.points.foldl (fun m' q => fillPix W.view p m' q.1 q.2) m

/-- SOLIDLINE (44_blit R184). -/
def execSolidline (rop : BitVec 4) (msrc xmajor xneg yneg : Bool) (s : State) :
    Host.Outcome State Fault Refusal :=
  .next <| s.finish <|
    (solidlineChecks xmajor xneg yneg s.regs).ending s.res s.mem fun W =>
      solidlineRun (s.regs.fillMasks rop msrc) W s.mem

/-- The checks of COPYRECT (44_blit R186): a null surface or different depths, empty geometry, BOUNDS. -/
def copyrectChecks (r : Regs) : Checked RectPair :=
  match r.dst.view, r.src.view with
  | some D, some S =>
    if S.depth ≠ D.depth then .null else checkPair (r.dstRect D) (r.srcRect S)
  | _, _ => .null

/-- One pixel of COPYRECT (44_blit R186). -/
def copyPix (rop : BitVec 4) (P : RectPair) (m : Memory) (c : Nat × Nat) : Memory :=
  let s := getPix P.src.view m (P.src.x c) (P.src.y c)
  let d := getPix P.dst.view m (P.dst.x c) (P.dst.y c)
  putPix P.dst.view m (P.dst.x c) (P.dst.y c) (ropSrc rop s d)

/-- The pixels of COPYRECT in the order REVX and REVY pick (44_blit R186). -/
def copyrectRun (rop : BitVec 4) (revx revy : Bool) (P : RectPair) (m : Memory) : Memory :=
  visit (rectCells P.dst.w P.dst.h revx revy) m (copyPix rop P)

/-- COPYRECT (44_blit R186). -/
def execCopyrect (rop : BitVec 4) (revx revy : Bool) (s : State) : Host.Outcome State Fault Refusal :=
  .next <| s.finish <|
    (copyrectChecks s.regs).ending s.res s.mem fun P => copyrectRun rop revx revy P s.mem

end Sys2Proof.Machine
end

