-- ==== Sys2Proof/Machine/Codec.lean ====
section
/-! DEFINITION. The bitfield codec (41_codec): EXTRACT, INSERT, PIX2RGB, RGB2PIX. -/

namespace Sys2Proof.Machine

/-- `Rep(f, w)`: bit `7 - k` is bit `w-1 - (k mod w)` of the field (41_codec R121). -/
def replicate (f : Word) (w : Nat) : Byte :=
  (List.range 8).foldl
    (fun out k => out ||| (BitVec.ofBool (f.getLsbD (w - 1 - k % w))).setWidth 8 <<< (7 - k)) 0

/-- `Extract(p, s, w)` (41_codec R121, R122). -/
def extractChan (p : Word) (s w : Nat) : Byte :=
  if w = 0 then 0 else replicate ((p >>> s) &&& ones w) w

/-- `Insert(v, s, w)` (41_codec R123). -/
def insertChan (v : Byte) (s w : Nat) : Word :=
  if w = 0 then 0 else (v >>> (8 - w)).setWidth 32 <<< s

/-- `Extract` with a channel descriptor's SHIFT and WIDTH (10_state R46). -/
def Chan.extract (c : Chan) (p : Word) : Byte := extractChan p c.shift.toNat c.width.toNat

/-- `Insert` with a channel descriptor's SHIFT and WIDTH (10_state R46). -/
def Chan.insert (c : Chan) (v : Byte) : Word := insertChan v c.shift.toNat c.width.toNat

/-- `Pix2Rgb(S, p)` (45_dither R222), the RES0 of PIX2RGB once the pixel is cut to the depth (41_codec R127). -/
def Surface.pixToRgb (S : Surface) (p : Word) : Word :=
  rgb24 (S.chanR.extract p) (S.chanG.extract p) (S.chanB.extract p)

/-- The RES0 of RGB2PIX before it is cut to the depth (41_codec R128). -/
def Surface.rgbToPix (S : Surface) (rgb : Word) : Word :=
  S.chanR.insert (rgbR rgb) ||| S.chanG.insert (rgbG rgb) ||| S.chanB.insert (rgbB rgb)

/-- The depth of a bitfield surface; none for NULL, reserved and indexed ones (60_exceptions R279). -/
def Surface.bitfieldDepth (S : Surface) : Option Depth :=
  match depthOf S.format with
  | none => none
  | some d => if d.bitfield then some d else none

/-- EXTRACT (41_codec R125). -/
def execExtract (s : State) : Host.Outcome State Fault Refusal :=
  let c := Chan.ofWord s.regs.opb
  .next <| s.finish <|
    if c.tooWide then .raise .param
    else .complete (s.res.set0 ((c.extract s.regs.opa).setWidth 32)) s.mem

/-- INSERT (41_codec R126). -/
def execInsert (s : State) : Host.Outcome State Fault Refusal :=
  let c := Chan.ofWord s.regs.opb
  .next <| s.finish <|
    if c.tooWide then .raise .param
    else .complete (s.res.set0 (c.insert (s.regs.opa.extractLsb' 0 8))) s.mem

/-- PIX2RGB (41_codec R127). -/
def execPix2rgb (surf : Surf) (s : State) : Host.Outcome State Fault Refusal :=
  let S := s.regs.surface surf
  .next <| s.finish <|
    match S.bitfieldDepth with
    | none => .nullop (s.res.set0 0)
    | some d =>
      if S.chanTooWide then .raise .param
      else .complete (s.res.set0 (S.pixToRgb (s.regs.opa &&& ones d.bits))) s.mem

/-- RGB2PIX (41_codec R128). -/
def execRgb2pix (surf : Surf) (s : State) : Host.Outcome State Fault Refusal :=
  let S := s.regs.surface surf
  .next <| s.finish <|
    match S.bitfieldDepth with
    | none => .nullop (s.res.set0 0)
    | some d =>
      if S.chanTooWide then .raise .param
      else .complete (s.res.set0 (S.rgbToPix s.regs.opa &&& ones d.bits)) s.mem

end Sys2Proof.Machine
end

