-- ==== Sys2Proof/Machine/Dither.lean ====
section
/-! DEFINITION. The dither threshold comparator (45_dither): the read-only tables T4, T8 and T16 (10_state R52), and
DTHRESH, DCMP, DMONO, QUANT5, DCONV1. -/

namespace Sys2Proof.Machine

/-- T4, the 4×4 threshold matrix (45_dither R212). -/
def t4 : List (List Nat) :=
  [[0, 8, 2, 10],
   [12, 4, 14, 6],
   [3, 11, 1, 9],
   [15, 7, 13, 5]]

/-- T8, the 8×8 threshold matrix (45_dither R213). -/
def t8 : List (List Nat) :=
  [[0, 32, 8, 40, 2, 34, 10, 42],
   [48, 16, 56, 24, 50, 18, 58, 26],
   [12, 44, 4, 36, 14, 46, 6, 38],
   [60, 28, 52, 20, 62, 30, 54, 22],
   [3, 35, 11, 43, 1, 33, 9, 41],
   [51, 19, 59, 27, 49, 17, 57, 25],
   [15, 47, 7, 39, 13, 45, 5, 37],
   [63, 31, 55, 23, 61, 29, 53, 21]]

/-- T16, the 16×16 threshold matrix (45_dither R214). -/
def t16 : List (List Nat) :=
  [[0, 128, 32, 160, 8, 136, 40, 168, 2, 130, 34, 162, 10, 138, 42, 170],
   [192, 64, 224, 96, 200, 72, 232, 104, 194, 66, 226, 98, 202, 74, 234, 106],
   [48, 176, 16, 144, 56, 184, 24, 152, 50, 178, 18, 146, 58, 186, 26, 154],
   [240, 112, 208, 80, 248, 120, 216, 88, 242, 114, 210, 82, 250, 122, 218, 90],
   [12, 140, 44, 172, 4, 132, 36, 164, 14, 142, 46, 174, 6, 134, 38, 166],
   [204, 76, 236, 108, 196, 68, 228, 100, 206, 78, 238, 110, 198, 70, 230, 102],
   [60, 188, 28, 156, 52, 180, 20, 148, 62, 190, 30, 158, 54, 182, 22, 150],
   [252, 124, 220, 92, 244, 116, 212, 84, 254, 126, 222, 94, 246, 118, 214, 86],
   [3, 131, 35, 163, 11, 139, 43, 171, 1, 129, 33, 161, 9, 137, 41, 169],
   [195, 67, 227, 99, 203, 75, 235, 107, 193, 65, 225, 97, 201, 73, 233, 105],
   [51, 179, 19, 147, 59, 187, 27, 155, 49, 177, 17, 145, 57, 185, 25, 153],
   [243, 115, 211, 83, 251, 123, 219, 91, 241, 113, 209, 81, 249, 121, 217, 89],
   [15, 143, 47, 175, 7, 135, 39, 167, 13, 141, 45, 173, 5, 133, 37, 165],
   [207, 79, 239, 111, 199, 71, 231, 103, 205, 77, 237, 109, 197, 69, 229, 101],
   [63, 191, 31, 159, 55, 183, 23, 151, 61, 189, 29, 157, 53, 181, 21, 149],
   [255, 127, 223, 95, 247, 119, 215, 87, 253, 125, 221, 93, 245, 117, 213, 85]]

/-- The table a selector names, with its side `n` (45_dither R211). -/
def thresholdTable : MatrixSize → List (List Nat)
  | .t4 => t4
  | .t8 => t8
  | .t16 => t16

/-- The side of a threshold table (45_dither R211). -/
def tableSide : MatrixSize → Nat
  | .t4 => 4
  | .t8 => 8
  | .t16 => 16

/-- `Thresh(m, x, y)` (45_dither R211). -/
def thresh (m : MatrixSize) (x y : Int) : Nat :=
  ((thresholdTable m).getD (y % tableSide m).toNat []).getD (x % tableSide m).toNat 0

/-- `Gray(rgb)` (45_dither R215). -/
def gray (rgb : Word) : Nat :=
  (30 * (rgbR rgb).toNat + 59 * (rgbG rgb).toNat + 11 * (rgbB rgb).toNat) / 100

/-- `Mono(rgb, x, y)` (45_dither R216). -/
def mono (rgb : Word) (x y : Int) : Bool := decide (255 < gray rgb + thresh .t16 x y)

/-- One channel of the 5-bit pre-quantiser (45_dither R217). -/
def quantChannel (c : Byte) : Byte := (c &&& 0xF8) + 4

/-- `Quant5(rgb)` (45_dither R217). -/
def quant5 (rgb : Word) : Word :=
  rgb24 (quantChannel (rgbR rgb)) (quantChannel (rgbG rgb)) (quantChannel (rgbB rgb))

/-- DCMP's factor, which spreads each table over 0 to 255 (45_dither R219). -/
def thresholdScale : MatrixSize → Nat
  | .t4 => 16
  | .t8 => 4
  | .t16 => 1

/-- DTHRESH (45_dither R218). -/
def execDthresh (msz : MatrixSize) (s : State) : Host.Outcome State Fault Refusal :=
  let t := thresh msz (coord s.regs.opa) (coord s.regs.opb)
  .next (s.finish (.complete (s.res.set0 (BitVec.ofNat 32 t)) s.mem))

/-- DCMP (45_dither R219). -/
def execDcmp (msz : MatrixSize) (s : State) : Host.Outcome State Fault Refusal :=
  let t := thresh msz (coord s.regs.opb) (coord s.regs.opc) * thresholdScale msz
  let v := (s.regs.opa.extractLsb' 0 8).toNat
  .next (s.finish (.complete (s.res.set01 (bitWord (decide (255 < v + t))) (BitVec.ofNat 32 t)) s.mem))

/-- DMONO (45_dither R220). -/
def execDmono (s : State) : Host.Outcome State Fault Refusal :=
  let b := mono s.regs.opa (coord s.regs.opb) (coord s.regs.opc)
  .next (s.finish (.complete (s.res.set01 (bitWord b) (BitVec.ofNat 32 (gray s.regs.opa))) s.mem))

/-- QUANT5 (45_dither R221). -/
def execQuant5 (s : State) : Host.Outcome State Fault Refusal :=
  .next (s.finish (.complete (s.res.set0 (quant5 s.regs.opa)) s.mem))

/-- The checks of DCONV1 (45_dither R222): a 1 bpp DST and a bitfield SRC, SRC's channel widths, empty geometry,
BOUNDS. -/
def dconv1Checks (r : Regs) : Checked RectPair :=
  match r.dst.view, r.src.view with
  | some D, some S =>
    if D.depth ≠ .bpp1 ∨ S.depth.bitfield = false then .null
    else if r.src.chanTooWide then .raise .param
    else checkPair (r.dstRect D) (r.srcRect S)
  | _, _ => .null

/-- The absolute column after the last pixel of a destination row (45_dither R222). -/
def Rect.padColumn (R : Rect) : Int := R.view.orgX + R.x0 + R.w

/-- The address of the first byte of a row (20_memory R71). -/
def rowStart (V : View) (y : Int) : Int := (size V.base : Int) + (V.orgY + y) * V.stride

/-- The byte that `PadRow` clears in part, if there is one: `Xe` falls inside it and it is in the row's `|STRIDE|`
bytes (45_dither R223). -/
def padPartial (V : View) (y Xe : Int) : Option Word :=
  if Xe % 8 ≠ 0 ∧ 0 ≤ Xe / 8 ∧ Xe / 8 < V.stride.natAbs then some (wrap32 (rowStart V y + Xe / 8)) else none

/-- The first whole byte after column `Xe`, not before the row's start (45_dither R223). -/
def padFirst (Xe : Int) : Nat := (if Xe % 8 ≠ 0 then Xe / 8 + 1 else Xe / 8).toNat

/-- The bytes that `PadRow` clears whole (45_dither R223). -/
def padWhole (V : View) (y Xe : Int) : List Word :=
  (List.range (V.stride.natAbs - padFirst Xe)).map fun k => wrap32 (rowStart V y + (padFirst Xe + k : Nat))

/-- The columns before `Xe` of the byte that `PadRow` clears in part (45_dither R223). -/
def padMask (Xe : Int) : Byte := 0xFF#8 <<< (8 - Xe % 8).toNat

/-- `PadRow(S, y, Xe)` (45_dither R223). -/
def padRow (V : View) (m : Memory) (y Xe : Int) : Memory :=
  let m1 :=
    match padPartial V y Xe with
    | none => m
    | some a => m.write a (m.read a &&& padMask Xe)
  (padWhole V y Xe).foldl (fun m' a => m'.write a 0) m1

/-- One pixel of DCONV1: the SRC pixel decoded, dithered by the clip-relative position of the DST pixel, and written
(45_dither R222). -/
def dconv1Pix (src : Surface) (P : RectPair) (m : Memory) (c : Nat × Nat) : Memory :=
  let rgb := src.pixToRgb (getPix P.src.view m (P.src.x c) (P.src.y c))
  putPix P.dst.view m (P.dst.x c) (P.dst.y c) (bitWord (mono rgb (P.dst.x c) (P.dst.y c)))

/-- One row of DCONV1: its pixels left to right, then its padding when PAD is set (45_dither R222). -/
def dconv1Row (src : Surface) (pad : Bool) (P : RectPair) (m : Memory) (r : Nat) : Memory :=
  let m1 := visit ((List.range P.dst.w).map fun c => (c, r)) m (dconv1Pix src P)
  if pad then padRow P.dst.view m1 (P.dst.y0 + r) P.dst.padColumn else m1

/-- The rows of DCONV1, top to bottom (45_dither R222). -/
def dconv1Run (src : Surface) (pad : Bool) (P : RectPair) (m : Memory) : Memory :=
  (List.range P.dst.h).foldl (dconv1Row src pad P) m

/-- DCONV1 (45_dither R222). -/
def execDconv1 (pad : Bool) (s : State) : Host.Outcome State Fault Refusal :=
  .next (s.finish ((dconv1Checks s.regs).ending s.res s.mem fun P => dconv1Run s.regs.src pad P s.mem))

end Sys2Proof.Machine
end

