-- ==== Sys2Proof/Machine/Pattern.lean ====
section
/-! DEFINITION. The pattern brush and stencil fills (46_pattern): BRUSHMASK, PATFILL, MASKFILL. -/

namespace Sys2Proof.Machine

/-- Hatch bit of column `x`, row `y` of the 8×8 pattern: the most significant bit of a row is column 0 (10_state R49,
46_pattern R232). -/
def Regs.hatchBit (r : Regs) (x y : Nat) : Bool :=
  (if y < 4 then r.hatchLo else r.hatchHi).getLsbD (8 * (y % 4) + (7 - x))

/-- The AND and XOR images of a brush (46_pattern R231). -/
structure BrushImages where
  and : View
  xor : View
deriving DecidableEq, Repr

/-- The two images of the brush registers at depth `d` (46_pattern R231). -/
def Regs.brushImages (r : Regs) (d : Depth) (w h : Nat) : BrushImages :=
  { and := r.brushImg r.brAndBase d w h, xor := r.brushImg r.brXorBase d w h }

/-- The only check of BRUSHMASK: a null DST (46_pattern R232). -/
def brushmaskChecks (r : Regs) : Checked BrushImages :=
  match r.dst.view with
  | none => .null
  | some V => .go (r.brushImages V.depth 8 8)

/-- One pixel of BRUSHMASK: the AND image's, then the XOR image's (46_pattern R232). -/
def brushPix (fg bg : MaskPair) (r : Regs) (B : BrushImages) (m : Memory) (c : Nat × Nat) : Memory :=
  let p := if r.hatchBit c.1 c.2 then fg else bg
  putPix B.xor (putPix B.and m c.1 c.2 p.and) c.1 c.2 p.xor

/-- The 64 pixels of BRUSHMASK, row by row (46_pattern R232). -/
def brushmaskRun (rop : BitVec 4) (r : Regs) (B : BrushImages) (m : Memory) : Memory :=
  visit (rectCells 8 8 false false) m (brushPix (ropMask rop r.fgPixel) (ropMask rop r.bgPixel) r B)

/-- BRUSHMASK (46_pattern R232). -/
def execBrushmask (rop : BitVec 4) (s : State) : Host.Outcome State Fault Refusal :=
  .next <| s.finish <|
    (brushmaskChecks s.regs).ending s.res s.mem fun B => brushmaskRun rop s.regs B s.mem

/-- The checks of PATFILL (46_pattern R233): a null DST, a brush of size 0, empty geometry, BOUNDS. -/
def patfillChecks (r : Regs) : Checked Rect :=
  match r.dst.view with
  | none => .null
  | some V =>
    if size r.brW = 0 ∨ size r.brH = 0 then .raise .param else checkRect (r.dstRect V)

/-- The brush pixel of a DST pixel: its offset from the anchor modulo the brush size (46_pattern R233). -/
def Regs.brushPhase (r : Regs) (x y : Int) : Int × Int :=
  ((x - coord r.brAnchX) % (size r.brW : Int), (y - coord r.brAnchY) % (size r.brH : Int))

/-- One pixel of PATFILL (46_pattern R233). -/
def patPix (r : Regs) (B : BrushImages) (V : View) (m : Memory) (x y : Int) : Memory :=
  let b := r.brushPhase x y
  fillPix V { and := getPix B.and m b.1 b.2, xor := getPix B.xor m b.1 b.2 } m x y

/-- The rectangle of PATFILL in raster order (46_pattern R233). -/
def patfillRun (r : Regs) (R : Rect) (m : Memory) : Memory :=
  let B := r.brushImages R.view.depth (size r.brW) (size r.brH)
  visit (rectCells R.w R.h false false) m fun m' c => patPix r B R.view m' (R.x c) (R.y c)

/-- PATFILL (46_pattern R233). -/
def execPatfill (s : State) : Host.Outcome State Fault Refusal :=
  .next <| s.finish <| (patfillChecks s.regs).ending s.res s.mem fun R => patfillRun s.regs R s.mem

/-- The checks of MASKFILL (46_pattern R235): a null DST or a stencil that is not 1 bpp, empty geometry, BOUNDS. -/
def maskfillChecks (r : Regs) : Checked RectPair :=
  match r.dst.view, r.src.view with
  | some D, some S =>
    if S.depth ≠ .bpp1 then .null else checkPair (r.dstRect D) (r.srcRect S)
  | _, _ => .null

/-- One pixel of MASKFILL: the stencil bit selects FG_PIXEL or BG_PIXEL (46_pattern R235). -/
def maskPix (rop : BitVec 4) (r : Regs) (P : RectPair) (m : Memory) (c : Nat × Nat) : Memory :=
  let s := if getPix P.src.view m (P.src.x c) (P.src.y c) = 1 then r.fgPixel else r.bgPixel
  let d := getPix P.dst.view m (P.dst.x c) (P.dst.y c)
  putPix P.dst.view m (P.dst.x c) (P.dst.y c) (ropSrc rop s d)

/-- The rectangle of MASKFILL in raster order (46_pattern R235). -/
def maskfillRun (rop : BitVec 4) (r : Regs) (P : RectPair) (m : Memory) : Memory :=
  visit (rectCells P.dst.w P.dst.h false false) m (maskPix rop r P)

/-- MASKFILL (46_pattern R235). -/
def execMaskfill (rop : BitVec 4) (s : State) : Host.Outcome State Fault Refusal :=
  .next <| s.finish <|
    (maskfillChecks s.regs).ending s.res s.mem fun P => maskfillRun rop s.regs P s.mem

end Sys2Proof.Machine
end

