-- ==== Sys2Proof/Machine/Scan.lean ====
section
/-! DEFINITION. Row scaling (47_scan): STRETCHROW and SHRINKROW. -/

namespace Sys2Proof.Machine

/-- `Combine(mode, d, s)` (47_scan R251). -/
def combine (mode : ScanMode) (d s : Word) : Word :=
  match mode with
  | .replace => s
  | .or => d ||| s
  | .and => d &&& s

/-- `Init(mode)` at a depth (47_scan R251). REPLACE has no run that accumulates; it never uses this value. -/
def runStart (mode : ScanMode) (d : Depth) : Word :=
  match mode with
  | .replace => 0
  | .or => 0
  | .and => ones d.bits

/-- One step of a scan walk: the source and destination columns, and whether the destination pixel is new. -/
structure ScanStep where
  sx : Int
  dx : Int
  new : Bool
deriving DecidableEq, Repr

/-- The walk of STRETCHROW: a destination step each time, and a source step when `err > 0` (47_scan R252). Every
destination pixel is new. -/
def stretchWalk (add1 add2 : Word) (si di : Int) : Nat → Int → Int → Word → List ScanStep
  | 0, _, _, _ => []
  | n + 1, sx, dx, err =>
    let passes := decide (0 < err.toInt)
    { sx := sx, dx := dx, new := true } ::
      stretchWalk add1 add2 si di n (if passes then sx + si else sx) (dx + di)
        (err + if passes then add1 else add2)

/-- The walk of SHRINKROW: a source step each time, and a destination step, which starts a new run, when `err > 0`
(47_scan R253). -/
def shrinkWalk (add1 add2 : Word) (si di : Int) : Nat → Int → Int → Bool → Word → List ScanStep
  | 0, _, _, _, _ => []
  | n + 1, sx, dx, new, err =>
    let passes := decide (0 < err.toInt)
    { sx := sx, dx := dx, new := new } ::
      shrinkWalk add1 add2 si di n (sx + si) (if passes then dx + di else dx) passes
        (err + if passes then add1 else add2)

/-- Two views with the fixed rows and the walk of a scan command (47_scan R250). -/
structure Scan where
  src : View
  dst : View
  sy : Int
  dy : Int
  steps : List ScanStep
deriving DecidableEq, Repr

/-- Every pixel of a walk is inside its surface (60_exceptions R274). -/
def Scan.inside (S : Scan) : Bool :=
  S.steps.all fun t => S.src.inside t.sx S.sy && S.dst.inside t.dx S.dy

/-- The checks of a scan command with the given walk (47_scan R252, R253): a null surface or different depths,
LENGTH = 0, BOUNDS over the whole walk. -/
def scanChecks (r : Regs) (steps : List ScanStep) : Checked Scan :=
  match r.dst.view, r.src.view with
  | some D, some S =>
    if S.depth ≠ D.depth then .null
    else if size r.length = 0 then .empty
    else
      let scan : Scan := { src := S, dst := D, sy := coord r.srcY, dy := coord r.rectY, steps := steps }
      if scan.inside then .go scan else .raise .bounds
  | _, _ => .null

/-- The walk STRETCHROW's registers give (47_scan R250, R252). -/
def Regs.stretchSteps (r : Regs) (sneg dneg : Bool) : List ScanStep :=
  stretchWalk r.errAdd1 r.errAdd2 (dirStep sneg) (dirStep dneg) (size r.length)
    (coord r.srcX) (coord r.rectX) r.errStart

/-- The walk SHRINKROW's registers give (47_scan R250, R253). -/
def Regs.shrinkSteps (r : Regs) (sneg dneg : Bool) : List ScanStep :=
  shrinkWalk r.errAdd1 r.errAdd2 (dirStep sneg) (dirStep dneg) (size r.length)
    (coord r.srcX) (coord r.rectX) true r.errStart

/-- One step of STRETCHROW (47_scan R252). -/
def stretchStep (mode : ScanMode) (keep : Bool) (S : Scan) (m : Memory) (t : ScanStep) : Memory :=
  let s := getPix S.src m t.sx S.sy
  if mode = .replace ∨ keep = false then putPix S.dst m t.dx S.dy s
  else putPix S.dst m t.dx S.dy (combine mode (getPix S.dst m t.dx S.dy) s)

/-- One step of SHRINKROW (47_scan R253). -/
def shrinkStep (mode : ScanMode) (keep : Bool) (S : Scan) (m : Memory) (t : ScanStep) : Memory :=
  let s := getPix S.src m t.sx S.sy
  let v :=
    if mode = .replace then s
    else if t.new && !keep then combine mode (runStart mode S.dst.depth) s
    else combine mode (getPix S.dst m t.dx S.dy) s
  putPix S.dst m t.dx S.dy v

/-- STRETCHROW (47_scan R252). -/
def execStretchrow (smode : ScanMode) (keep sneg dneg : Bool) (s : State) :
    Host.Outcome State Fault Refusal :=
  .next <| s.finish <|
    (scanChecks s.regs (s.regs.stretchSteps sneg dneg)).ending s.res s.mem fun S =>
      S.steps.foldl (stretchStep smode keep S) s.mem

/-- SHRINKROW (47_scan R253). -/
def execShrinkrow (smode : ScanMode) (keep sneg dneg : Bool) (s : State) :
    Host.Outcome State Fault Refusal :=
  .next <| s.finish <|
    (scanChecks s.regs (s.regs.shrinkSteps sneg dneg)).ending s.res s.mem fun S =>
      S.steps.foldl (shrinkStep smode keep S) s.mem

end Sys2Proof.Machine
end

