-- ==== Sys2Proof/Machine/Footprint.lean ====
section
/-! DEFINITION. The framebuffer bytes a command's pseudocode reads and writes, from the registers alone: what a race
(20_memory R78) and a reset during a command (70_reset R301) speak of. -/

namespace Sys2Proof.Machine

/-- The bytes a command reads without writing them all (`reads`), and the bytes it writes (`writes`). A byte that the
read-modify-write of a pixel reads is among the bytes it writes. -/
structure Footprint where
  reads : List Word
  writes : List Word
deriving DecidableEq, Repr

/-- No framebuffer access. -/
def Footprint.none : Footprint := { reads := [], writes := [] }

/-- A command that ends early accesses no framebuffer memory (60_exceptions R275, R277, R278). -/
def Checked.footprint {α : Type} (c : Checked α) (f : α → Footprint) : Footprint :=
  match c with
  | .null => Footprint.none
  | .raise _ => Footprint.none
  | .empty => Footprint.none
  | .go a => f a

/-- The bytes of a rectangle's pixels. -/
def Rect.bytes (R : Rect) : List Word :=
  (rectCells R.w R.h false false).flatMap fun c => pixBytes R.view (R.x c) (R.y c)

/-- The bytes of the brush pixels that PATFILL reads for a rectangle (46_pattern R233). -/
def Regs.brushBytes (r : Regs) (R : Rect) : List Word :=
  let B := r.brushImages R.view.depth (size r.brW) (size r.brH)
  (rectCells R.w R.h false false).flatMap fun c =>
    let b := r.brushPhase (R.x c) (R.y c)
    pixBytes B.and b.1 b.2 ++ pixBytes B.xor b.1 b.2

/-- The bytes that BRUSHMASK writes (46_pattern R232). -/
def BrushImages.bytes (B : BrushImages) : List Word :=
  (rectCells 8 8 false false).flatMap fun c => pixBytes B.and c.1 c.2 ++ pixBytes B.xor c.1 c.2

/-- The padding bytes of one row (45_dither R223). -/
def padBytes (V : View) (y Xe : Int) : List Word := (padPartial V y Xe).toList ++ padWhole V y Xe

/-- The bytes that DCONV1 writes: its pixels', and with PAD its rows' padding (45_dither R222, R223). -/
def dconv1Bytes (pad : Bool) (P : RectPair) : List Word :=
  P.dst.bytes ++
    if pad then (List.range P.dst.h).flatMap fun r => padBytes P.dst.view (P.dst.y0 + (r : Int)) P.dst.padColumn
    else []

/-- The bytes a scan command reads from SRC and writes in DST (47_scan R252, R253). -/
def Scan.footprint (S : Scan) : Footprint :=
  { reads := S.steps.flatMap fun t => pixBytes S.src t.sx S.sy
    writes := S.steps.flatMap fun t => pixBytes S.dst t.dx S.dy }

/-- The framebuffer bytes of a command with registers `r`. -/
def footprint (i : Instr) (r : Regs) : Footprint :=
  match i with
  | .nop => Footprint.none
  | .extract => Footprint.none
  | .insert => Footprint.none
  | .pix2rgb _ => Footprint.none
  | .rgb2pix _ => Footprint.none
  | .ropcodes _ => Footprint.none
  | .ropmask _ => Footprint.none
  | .ropapply => Footprint.none
  | .ropapplym => Footprint.none
  | .ropsrc _ => Footprint.none
  | .pixaddr _ => Footprint.none
  | .unpack _ => Footprint.none
  | .pack _ => Footprint.none
  | .getpixel surf =>
    (pointChecks (r.surface surf) r).footprint fun p => { reads := pixBytes p.view p.x p.y, writes := [] }
  | .putpixel _ _ =>
    (pointChecks r.dst r).footprint fun p => { reads := [], writes := pixBytes p.view p.x p.y }
  | .dthresh _ => Footprint.none
  | .dcmp _ => Footprint.none
  | .dmono => Footprint.none
  | .quant5 => Footprint.none
  | .dconv1 pad =>
    (dconv1Checks r).footprint fun P => { reads := P.src.bytes, writes := dconv1Bytes pad P }
  | .solidfill _ _ => (solidfillChecks r).footprint fun R => { reads := [], writes := R.bytes }
  | .solidline _ _ xmajor xneg yneg =>
    (solidlineChecks xmajor xneg yneg r).footprint fun W =>
      { reads := [], writes := W.points.flatMap fun q => pixBytes W.view q.1 q.2 }
  | .copyrect _ _ _ =>
    (copyrectChecks r).footprint fun P => { reads := P.src.bytes, writes := P.dst.bytes }
  | .brushmask _ => (brushmaskChecks r).footprint fun B => { reads := [], writes := B.bytes }
  | .patfill => (patfillChecks r).footprint fun R => { reads := r.brushBytes R, writes := R.bytes }
  | .maskfill _ => (maskfillChecks r).footprint fun P => { reads := P.src.bytes, writes := P.dst.bytes }
  | .stretchrow _ _ sneg dneg => (scanChecks r (r.stretchSteps sneg dneg)).footprint Scan.footprint
  | .shrinkrow _ _ sneg dneg => (scanChecks r (r.shrinkSteps sneg dneg)).footprint Scan.footprint

/-- The framebuffer bytes of the command word `w` with registers `r`; a word that decodes to no command has none
(60_exceptions R275, R277). -/
def wordFootprint (w : Word) (r : Regs) : Footprint :=
  match decode w with
  | .error _ => Footprint.none
  | .ok i => footprint i r

/-- The framebuffer bytes of the command in progress; an idle engine has none (10_state R26). -/
def State.inProgress (s : State) : Footprint :=
  if s.status.busy then wordFootprint s.cmd s.regs else Footprint.none

/-- A byte of an abandoned or raced write set at the `k`-th free value: at a backed address a free byte (93 I1, I2). At
an unbacked address what the platform does with a write of that byte, or, freely, nothing, as when the engine stopped
before that write. The rules leave open which of a command's unbacked writes happen (70_reset R301) and what they do
(20_memory R73, 93 I5). That each happens once or not at all, and in the footprint's order, is a DESIGN CHOICE: log entry
17. -/
def Memory.freeAt (k : Nat) (a : Word) (m : Memory) : Memory :=
  if m.unbacked a.toNat && Config.freeBit k then m else m.write a (Config.freeByte k)

/-- Memory with a free value in each of the given bytes: the `n`-th at the free value `k + n` (93 I1, I2; log entry
17). -/
def freeBytes : Nat → List Word → Memory → Memory
  | _, [], m => m
  | k, a :: t, m => freeBytes (k + 1) t (m.freeAt k a)

end Sys2Proof.Machine
end

