-- ==== Sys2Proof/Machine/Bus.lean ====
section
/-! DEFINITION. What reaches the block from outside: register reads and writes (10_state R20 to R37), the soft and the
hardware reset (70_reset R300, R301), and the host's own framebuffer accesses (20_memory R77 to R79). -/

namespace Sys2Proof.Machine

/-! ### The register map -/

/-- The offset of a surface register from its descriptor (10_state R40). -/
def SurfReg.offset : SurfReg → Nat
  | .base => 0x00 | .stride => 0x04 | .format => 0x08 | .orgX => 0x0C | .orgY => 0x10
  | .clipW => 0x14 | .clipH => 0x18 | .chanR => 0x1C | .chanG => 0x20 | .chanB => 0x24

/-- The byte offset of a register from `REG_BASE` (10_state R22). -/
def Reg.offset : Reg → Nat
  | .id => 0x000 | .ctrl => 0x004 | .status => 0x008 | .cmd => 0x00C
  | .opa => 0x010 | .opb => 0x014 | .opc => 0x018 | .opd => 0x01C
  | .res0 => 0x020 | .res1 => 0x024 | .res2 => 0x028 | .res3 => 0x02C
  | .fgPixel => 0x030 | .bgPixel => 0x034 | .maskAnd => 0x038 | .maskXor => 0x03C
  | .surf .dst r => 0x040 + r.offset
  | .surf .src r => 0x080 + r.offset
  | .brAndBase => 0x0C0 | .brXorBase => 0x0C4 | .brStride => 0x0C8 | .brW => 0x0CC | .brH => 0x0D0
  | .brAnchX => 0x0D4 | .brAnchY => 0x0D8 | .hatchLo => 0x0DC | .hatchHi => 0x0E0
  | .rectX => 0x100 | .rectY => 0x104 | .rectW => 0x108 | .rectH => 0x10C | .srcX => 0x110 | .srcY => 0x114
  | .errStart => 0x120 | .errAdd1 => 0x124 | .errAdd2 => 0x128 | .length => 0x12C

/-- The registers of one surface descriptor (10_state R40). -/
def SurfReg.all : List SurfReg :=
  [.base, .stride, .format, .orgX, .orgY, .clipW, .clipH, .chanR, .chanG, .chanB]

/-- The registers below the surface descriptors (10_state R22). -/
def Reg.lower : List Reg :=
  [.id, .ctrl, .status, .cmd, .opa, .opb, .opc, .opd, .res0, .res1, .res2, .res3,
   .fgPixel, .bgPixel, .maskAnd, .maskXor]

/-- The registers above the surface descriptors (10_state R22). -/
def Reg.upper : List Reg :=
  [.brAndBase, .brXorBase, .brStride, .brW, .brH, .brAnchX, .brAnchY, .hatchLo, .hatchHi,
   .rectX, .rectY, .rectW, .rectH, .srcX, .srcY, .errStart, .errAdd1, .errAdd2, .length]

/-- The registers of the two surface descriptors (10_state R40). -/
def Reg.surfaces : List Reg := SurfReg.all.map (Reg.surf .dst) ++ SurfReg.all.map (Reg.surf .src)

/-- Every register of the map (10_state R22). -/
def Reg.all : List Reg := Reg.lower ++ (Reg.surfaces ++ Reg.upper)

/-- The register at an offset; none is a reserved offset (10_state R22, R36). -/
def Reg.ofOffset (off : Nat) : Option Reg := Reg.all.find? fun r => r.offset == off

/-- The platform address of a register (10_state R20, 20_memory R74). -/
def Reg.address (r : Reg) : Word := Config.regBase + BitVec.ofNat 32 r.offset

/-- A surface register's value as it reads back (10_state R41 to R46). -/
def Surface.get (S : Surface) : SurfReg → Word
  | .base => S.base
  | .stride => S.stride
  | .format => S.format.setWidth 32
  | .orgX => S.orgX
  | .orgY => S.orgY
  | .clipW => S.clipW
  | .clipH => S.clipH
  | .chanR => S.chanR.toWord
  | .chanG => S.chanG.toWord
  | .chanB => S.chanB.toWord

/-- A surface descriptor with one register written; reserved bits are not stored (10_state R41 to R46). -/
def Surface.set (S : Surface) (r : SurfReg) (v : Word) : Surface :=
  match r with
  | .base => { S with base := v }
  | .stride => { S with stride := v }
  | .format => { S with format := v.extractLsb' 0 3 }
  | .orgX => { S with orgX := v }
  | .orgY => { S with orgY := v }
  | .clipW => { S with clipW := v }
  | .clipH => { S with clipH := v }
  | .chanR => { S with chanR := Chan.ofWord v }
  | .chanG => { S with chanG := Chan.ofWord v }
  | .chanB => { S with chanB := Chan.ofWord v }

/-- `reg[NAME]`: a register's value as a host read returns it (10_state R20 to R36). -/
def State.readReg (s : State) : Reg → Word
  | .id => Config.implId
  | .ctrl => bitWord s.irqEn
  | .status => s.status.toWord
  | .cmd => s.cmd
  | .opa => s.regs.opa
  | .opb => s.regs.opb
  | .opc => s.regs.opc
  | .opd => s.regs.opd
  | .res0 => s.res.res0
  | .res1 => s.res.res1
  | .res2 => s.res.res2
  | .res3 => s.res.res3
  | .fgPixel => s.regs.fgPixel
  | .bgPixel => s.regs.bgPixel
  | .maskAnd => s.regs.maskAnd
  | .maskXor => s.regs.maskXor
  | .surf .dst r => s.regs.dst.get r
  | .surf .src r => s.regs.src.get r
  | .brAndBase => s.regs.brAndBase
  | .brXorBase => s.regs.brXorBase
  | .brStride => s.regs.brStride
  | .brW => s.regs.brW
  | .brH => s.regs.brH
  | .brAnchX => s.regs.brAnchX
  | .brAnchY => s.regs.brAnchY
  | .hatchLo => s.regs.hatchLo
  | .hatchHi => s.regs.hatchHi
  | .rectX => s.regs.rectX
  | .rectY => s.regs.rectY
  | .rectW => s.regs.rectW
  | .rectH => s.regs.rectH
  | .srcX => s.regs.srcX
  | .srcY => s.regs.srcY
  | .errStart => s.regs.errStart
  | .errAdd1 => s.regs.errAdd1
  | .errAdd2 => s.regs.errAdd2
  | .length => s.regs.length

/-- The command registers with one of them written. ID, CTRL, STATUS, CMD and RES0 to RES3 are none of them and
leave them as they are (10_state R22, R37). -/
def Regs.set (r : Regs) (name : Reg) (v : Word) : Regs :=
  match name with
  | .id => r
  | .ctrl => r
  | .status => r
  | .cmd => r
  | .opa => { r with opa := v }
  | .opb => { r with opb := v }
  | .opc => { r with opc := v }
  | .opd => { r with opd := v }
  | .res0 => r
  | .res1 => r
  | .res2 => r
  | .res3 => r
  | .fgPixel => { r with fgPixel := v }
  | .bgPixel => { r with bgPixel := v }
  | .maskAnd => { r with maskAnd := v }
  | .maskXor => { r with maskXor := v }
  | .surf .dst f => { r with dst := r.dst.set f v }
  | .surf .src f => { r with src := r.src.set f v }
  | .brAndBase => { r with brAndBase := v }
  | .brXorBase => { r with brXorBase := v }
  | .brStride => { r with brStride := v }
  | .brW => { r with brW := v }
  | .brH => { r with brH := v }
  | .brAnchX => { r with brAnchX := v }
  | .brAnchY => { r with brAnchY := v }
  | .hatchLo => { r with hatchLo := v }
  | .hatchHi => { r with hatchHi := v }
  | .rectX => { r with rectX := v }
  | .rectY => { r with rectY := v }
  | .rectW => { r with rectW := v }
  | .rectH => { r with rectH := v }
  | .srcX => { r with srcX := v }
  | .srcY => { r with srcY := v }
  | .errStart => { r with errStart := v }
  | .errAdd1 => { r with errAdd1 := v }
  | .errAdd2 => { r with errAdd2 := v }
  | .length => { r with length := v }

/-! ### Reset, acceptance, register writes -/

/-- A soft or hardware reset: every register takes its reset value; a command in progress is abandoned and leaves a
free value in each byte of its write set; every other byte keeps its value (70_reset R300, R301, 93 I2; log
entries 8 and 17). What the host has still to do, and the word it last read, are not the block's and stay. -/
def State.resetBlock (s : State) : State :=
  { State.reset with
    mem := freeBytes s.fresh s.inProgress.writes s.mem
    host := s.host
    rdata := s.rdata
    fresh := s.fresh + s.inProgress.writes.length }

/-- Acceptance of the command word `w` (10_state R31). -/
def State.accept (s : State) (w : Word) : State := { s with cmd := w, status := s.status.accept }

/-- A write that the busy engine drops (10_state R29, R37). -/
def State.overrun (s : State) : State := { s with status := s.status.overrun }

/-- A host write of `v` to a register (10_state R21 to R37). -/
def State.hostWriteReg (s : State) (name : Reg) (v : Word) : State :=
  match name with
  | .id => s
  | .res0 => s
  | .res1 => s
  | .res2 => s
  | .res3 => s
  | .ctrl => if v.getLsbD 1 then s.resetBlock else { s with irqEn := v.getLsbD 0 }
  | .status => { s with status := s.status.writeOneToClear v }
  | .cmd => if s.status.busy then s.overrun else s.accept v
  | other => if s.status.busy then s.overrun else { s with regs := s.regs.set other v }

/-- A 32-bit read at an offset of the block; a reserved offset reads 0 (10_state R22, R36). -/
def State.readOffset (s : State) (off : Nat) : Word :=
  match Reg.ofOffset off with
  | none => 0
  | some r => s.readReg r

/-- A 32-bit write at an offset of the block; a reserved offset ignores it (10_state R22, R36). -/
def State.writeOffset (s : State) (off : Nat) (v : Word) : State :=
  match Reg.ofOffset off with
  | none => s
  | some r => s.hostWriteReg r v

/-- The accesses for which the spec defines no effect, which a model refuses (10_state R20, 93 I3; log entry 10). -/
def accessRefusal (width off : Nat) : Option Refusal :=
  if width ≠ 32 then some (.mmioWidth width)
  else if off % 4 ≠ 0 then some (.mmioAlignment off)
  else if 0x200 ≤ off then some (.mmioOutside off)
  else none

/-- An MMIO read (10_state R20). -/
def State.mmioRead (s : State) (width off : Nat) : Host.Outcome State Fault Refusal :=
  match accessRefusal width off with
  | some r => .refused r
  | none => .next { s with rdata := s.readOffset off }

/-- An MMIO write (10_state R20). -/
def State.mmioWrite (s : State) (width off : Nat) (v : Word) : Host.Outcome State Fault Refusal :=
  match accessRefusal width off with
  | some r => .refused r
  | none => .next (s.writeOffset off v)

/-! ### The host's framebuffer accesses -/

/-- The host reads a framebuffer byte. A byte that the running command writes answers any value, and the access counts
as a race (20_memory R78, 93 I1; log entry 7). That the address alone decides, also where the platform's answer at an
unbacked address depends on a byte that the command writes (20_memory R73, 93 I5), is a DESIGN CHOICE (unsafe): log entry
19. -/
def State.hostMemRead (s : State) (a : Word) : State :=
  if a ∈ s.inProgress.writes then
    { s with
      rdata := (Config.freeByte s.fresh).setWidth 32
      raced := (a, s.mem.read a) :: s.raced
      fresh := s.fresh + 1 }
  else { s with rdata := (s.mem.read a).setWidth 32 }

/-- The host writes a framebuffer byte. When the running command reads or writes that byte, the access is a race, and
the byte's old value is kept for the engine's choice (20_memory R78, 93 I1; log entry 7). That the written address alone
decides, also where the platform answers a write to an unbacked address outside the command's bytes by a change of a byte
the command reads or writes (20_memory R73, 93 I5), is a DESIGN CHOICE (unsafe): log entry 19. -/
def State.hostMemWrite (s : State) (a : Word) (v : Byte) : State :=
  if a ∈ s.inProgress.writes ∨ a ∈ s.inProgress.reads then
    { s with mem := s.mem.write a v, raced := (a, s.mem.read a) :: s.raced }
  else { s with mem := s.mem.write a v }

end Sys2Proof.Machine
end

