-- ==== Sys2Proof/Machine/Control.lean ====
section
/-! DEFINITION. The control family: NOP (60_exceptions R276, 30_encoding R107). -/

namespace Sys2Proof.Machine

/-- NOP: its pseudocode is `complete` (60_exceptions R276). -/
def execNop (s : State) : Host.Outcome State Fault Refusal := .next (s.finish (.complete s.res s.mem))

end Sys2Proof.Machine
end

