-- ==== Sys2Proof/Machine/Dispatch.lean ====
section
/-! DEFINITION. One arm per command (30_encoding R113): what the engine does with a decoded command. -/

namespace Sys2Proof.Machine

def exec (i : Instr) (s : State) : Host.Outcome State Fault Refusal :=
  match i with
  | .nop => Sys2Proof.Machine.execNop s
  | .extract => Sys2Proof.Machine.execExtract s
  | .insert => Sys2Proof.Machine.execInsert s
  | .pix2rgb surf => Sys2Proof.Machine.execPix2rgb surf s
  | .rgb2pix surf => Sys2Proof.Machine.execRgb2pix surf s
  | .ropcodes rop => Sys2Proof.Machine.execRopcodes rop s
  | .ropmask rop => Sys2Proof.Machine.execRopmask rop s
  | .ropapply => Sys2Proof.Machine.execRopapply s
  | .ropapplym => Sys2Proof.Machine.execRopapplym s
  | .ropsrc rop => Sys2Proof.Machine.execRopsrc rop s
  | .pixaddr surf => Sys2Proof.Machine.execPixaddr surf s
  | .unpack depth => Sys2Proof.Machine.execUnpack depth s
  | .pack depth => Sys2Proof.Machine.execPack depth s
  | .getpixel surf => Sys2Proof.Machine.execGetpixel surf s
  | .putpixel rop msrc => Sys2Proof.Machine.execPutpixel rop msrc s
  | .dthresh msz => Sys2Proof.Machine.execDthresh msz s
  | .dcmp msz => Sys2Proof.Machine.execDcmp msz s
  | .dmono => Sys2Proof.Machine.execDmono s
  | .quant5 => Sys2Proof.Machine.execQuant5 s
  | .dconv1 pad => Sys2Proof.Machine.execDconv1 pad s
  | .solidfill rop msrc => Sys2Proof.Machine.execSolidfill rop msrc s
  | .solidline rop msrc xmajor xneg yneg => Sys2Proof.Machine.execSolidline rop msrc xmajor xneg yneg s
  | .copyrect rop revx revy => Sys2Proof.Machine.execCopyrect rop revx revy s
  | .brushmask rop => Sys2Proof.Machine.execBrushmask rop s
  | .patfill => Sys2Proof.Machine.execPatfill s
  | .maskfill rop => Sys2Proof.Machine.execMaskfill rop s
  | .stretchrow smode keep sneg dneg => Sys2Proof.Machine.execStretchrow smode keep sneg dneg s
  | .shrinkrow smode keep sneg dneg => Sys2Proof.Machine.execShrinkrow smode keep sneg dneg s

end Sys2Proof.Machine
end

