-- ==== Sys2Proof/Machine/Engine.lean ====
section
/-! DEFINITION. The engine's turn: the command in CMD runs to completion in one step (60_exceptions R277, 70_reset
R310), or, when the host raced it, ends with the free values that 20_memory R78 allows. -/

namespace Sys2Proof.Machine

/-- The command word in CMD, decoded and executed; a word that decodes to no command ends in its error
(60_exceptions R277). -/
def State.runCommand (s : State) : Host.Outcome State Fault Refusal :=
  match decode s.cmd with
  | .error e => .next (s.raise e)
  | .ok i => exec i s

/-- The memory the engine sees after a race: for each racing host write, freely, the byte as it is or as it was
before that write (20_memory R78; log entry 7). At an unbacked address the rules leave open what it means that the engine
did not see a host write (20_memory R73, 93 I5). That the engine then sees the memory after one more platform write, of the
byte that the address read as before, is a DESIGN CHOICE (unsafe): log entry 18. -/
def racedView : Nat → List (Word × Byte) → Memory → Memory
  | _, [], m => m
  | k, (a, old) :: t, m => racedView (k + 1) t (if Config.freeBit k then m.write a old else m)

/-- A command that the host raced: it completes, each byte of its write set ends with a free value, and every other
byte is as the host left it (20_memory R78, 93 I1; log entries 7 and 17). -/
def State.runRaced (s : State) : Host.Outcome State Fault Refusal :=
  let drawn := s.fresh + s.raced.length
  let writes := s.inProgress.writes
  match State.runCommand { s with mem := racedView s.fresh s.raced s.mem, raced := [] } with
  | .next t => .next { t with mem := freeBytes drawn writes s.mem, fresh := drawn + writes.length }
  | .fault f => .fault f
  | .refused r => .refused r

/-- The engine's turn; an idle engine does nothing (60_exceptions R288). -/
def State.engineTurn (s : State) : Host.Outcome State Fault Refusal :=
  if s.status.busy then
    match s.raced with
    | [] => s.runCommand
    | _ :: _ => s.runRaced
  else .next s

/-- One event that reaches the block (60_exceptions R290). -/
def State.event (s : State) : HostEvent → Host.Outcome State Fault Refusal
  | .engine => s.engineTurn
  | .mmioRead width off => s.mmioRead width off
  | .mmioWrite width off v => s.mmioWrite width off v
  | .memRead a => .next (s.hostMemRead a)
  | .memWrite a v => .next (s.hostMemWrite a v)
  | .hardReset => .next s.resetBlock

/-- The next event of the host's sequence, or the engine's turn when there is none (log entry 2). -/
def State.advance (s : State) : Host.Outcome State Fault Refusal :=
  match s.host with
  | [] => s.engineTurn
  | e :: rest => State.event { s with host := rest } e

/-- The state in which the command word of a table row has just been accepted (10_state R31), with nothing else
arriving before it completes. -/
def State.acceptOnly (s : State) (w : Word) : State := { s.accept w with host := [], raced := [] }

end Sys2Proof.Machine
end

