-- ==== Sys2Proof/Machine/Step.lean ====
section
/-! DEFINITION. One step of the machine: the host's next access, or the engine's turn (60_exceptions R290). -/

namespace Sys2Proof.Machine

/-- One step (60_exceptions R290). -/
def step (s : State) : Host.Outcome State Fault Refusal := s.advance

/-- The state in which step runs the command word `w` (its bits at `nbits` and above 0): the word stands in CMD as just
accepted (10_state R31; log entry 2). -/
def State.withFetchWord (s : State) (nbits w : Nat) : State :=
  s.acceptOnly (BitVec.ofNat 32 (w % 2 ^ nbits))

end Sys2Proof.Machine
end

