-- ==== Sys2Proof/Safety.lean ====
section
/-! DEFINITION. What counts as a safe run, and the words that the statements use: the three ways a command ends, the
machine's invariant, and the bytes a run may rely on. -/

namespace Sys2Proof.Machine

/-- The outcome is a next state: neither a fault nor a refusal. -/
def IsNext (o : Host.Outcome State Fault Refusal) : Prop := ∃ t, o = .next t

/-- A command may end from `s` in `t` (60_exceptions R270): by success, as a null no-op, or by an error that decode
does not raise. An error leaves memory and the result registers as they were (R275); a null no-op leaves memory as it
was (R278). -/
def EndsProperly (s t : State) : Prop :=
  (∃ res mem, t = s.complete res mem) ∨ (∃ res, t = s.nullEnd res) ∨ t = s.raise .param ∨ t = s.raise .bounds

/-- STATUS holds a legal combination of its fields: ERRCODE is an error code in use and is 0 exactly while ERR is 0
(10_state R28, 60_exceptions R270); a null no-op sets no ERR (60_exceptions R278); a command in progress has reported
nothing (10_state R31). -/
def Status.legal (t : Status) : Bool :=
  decide (t.errcode.toNat ≤ 4) && (t.err == (t.errcode != 0)) && !(t.nullop && t.err)
    && !(t.busy && (t.done || t.err || t.nullop))

/-- The machine's invariant: memory is in its canonical form, STATUS is legal, and only a running command has been
raced (20_memory R78). -/
def State.inv (s : State) : Bool := s.mem.wf && s.status.legal && (s.raced.isEmpty || s.status.busy)

/-- Memory stands behind every address of the list (20_memory R73). -/
def Memory.backs (m : Memory) (as : List Word) : Prop := ∀ a ∈ as, m.unbacked a.toNat = false

/-- Two memories hold the same byte at every address. -/
def SameBytes (m m' : Memory) : Prop := ∀ a : Word, m.read a = m'.read a

/-- The offsets of a rectangle in raster order (44_blit R180). -/
def rasterOffsets (w h : Nat) : List (Nat × Nat) :=
  (List.range h).flatMap fun r => (List.range w).map fun c => (c, r)

/-- The bytes of the pixels of a list. -/
def pixelBytes (V : View) (pts : List (Int × Int)) : List Word := pts.flatMap fun p => pixBytes V p.1 p.2

/-- The pixels of a rectangle of pixels. -/
def rectPoints (x0 y0 : Int) (w h : Nat) : List (Int × Int) :=
  (rasterOffsets w h).map fun c => (x0 + c.1, y0 + c.2)

/-- Two pixels of two views share no bit of memory: their bytes differ, or they are two pixels of one sub-byte byte
(20_memory R66). -/
def PixelsApart (V W : View) (x y x' y' : Int) : Prop :=
  (∀ a ∈ pixBytes V x y, a ∉ pixBytes W x' y') ∨
    ((pixAddr V x y).addr = (pixAddr W x' y').addr ∧ V.depth.subByte = true ∧ W.depth.subByte = true ∧
      (pixAddr V x y).mask &&& (pixAddr W x' y').mask = 0)

end Sys2Proof.Machine
end

