-- ==== Sys2Proof/Certificates/Slice0/Obligations.lean ====
section
/-! DEFINITION. The statements for the provers, and the few words they use besides `Sys2Proof/Safety.lean`. A docstring
names the rule of the spec that a statement formalises, or says whose choice it rests on. -/

namespace Sys2Proof.Claims

open Sys2Proof.Machine

/-- OPC and USED_MASK of the 28 commands, as the table of 30_encoding R113 prints them. -/
def maskTable : List (BitVec 8 × Word) :=
  [(0x00, 0x000000FF), (0x10, 0x000000FF), (0x11, 0x000000FF), (0x12, 0x000100FF), (0x13, 0x000100FF),
   (0x20, 0x00000FFF), (0x21, 0x00000FFF), (0x22, 0x000000FF), (0x23, 0x000000FF), (0x24, 0x00000FFF),
   (0x30, 0x000100FF), (0x31, 0x000E00FF), (0x32, 0x000E00FF), (0x33, 0x000100FF), (0x34, 0x00001FFF),
   (0x40, 0x003000FF), (0x41, 0x003000FF), (0x42, 0x000000FF), (0x43, 0x000000FF), (0x44, 0x000080FF),
   (0x50, 0x00001FFF), (0x51, 0x38001FFF), (0x52, 0x00006FFF),
   (0x60, 0x00000FFF), (0x61, 0x000000FF), (0x62, 0x00000FFF),
   (0x70, 0x07C000FF), (0x71, 0x07C000FF)]

/-- A word that sets a bit its opcode does not use, or a ROP together with MSRC = 1 (60_exceptions R272). -/
def reservedBits (w mask : Word) : Prop :=
  w &&& ~~~mask ≠ 0 ∨
    (w.extractLsb' 0 8 ∈ [0x34, 0x50, 0x51] ∧ w.getLsbD 12 = true ∧ w.extractLsb' 8 4 ≠ 0)

/-- A word with a reserved value of a field its opcode uses (30_encoding R106). -/
def reservedField (w : Word) : Prop :=
  (w.extractLsb' 0 8 ∈ [0x40, 0x41] ∧ w.extractLsb' 20 2 = 3) ∨
    (w.extractLsb' 0 8 ∈ [0x70, 0x71] ∧ w.extractLsb' 22 2 = 3) ∨
    (w.extractLsb' 0 8 ∈ [0x31, 0x32] ∧ w.extractLsb' 17 3 ≠ 1 ∧ w.extractLsb' 17 3 ≠ 2)

/-- ERRCODE of each error, as the table of 60_exceptions R270 prints it. -/
def codeOf : CmdError → BitVec 4
  | .badop => 1
  | .rsvd => 2
  | .param => 3
  | .bounds => 4

/-- FORMAT codes that make a surface NULL (10_state R43). -/
def formatNull (f : BitVec 3) : Prop := f = 0 ∨ f = 7

/-- FORMAT codes of bitfield surfaces (10_state R43, R47). -/
def formatBitfield (f : BitVec 3) : Prop := f = 4 ∨ f = 5 ∨ f = 6

/-- The null condition of each command, as the table of 60_exceptions R279 prints it. -/
def nullCondition (i : Instr) (r : Regs) : Prop :=
  match i with
  | .nop => False
  | .extract => False
  | .insert => False
  | .pix2rgb s => ¬formatBitfield (r.surface s).format
  | .rgb2pix s => ¬formatBitfield (r.surface s).format
  | .ropcodes _ => False
  | .ropmask _ => False
  | .ropapply => False
  | .ropapplym => False
  | .ropsrc _ => False
  | .pixaddr s => formatNull (r.surface s).format
  | .unpack _ => False
  | .pack _ => False
  | .getpixel s => formatNull (r.surface s).format
  | .putpixel _ _ => formatNull r.dst.format
  | .dthresh _ => False
  | .dcmp _ => False
  | .dmono => False
  | .quant5 => False
  | .dconv1 _ => r.dst.format ≠ 1 ∨ ¬formatBitfield r.src.format
  | .solidfill _ _ => formatNull r.dst.format
  | .solidline _ _ _ _ _ => formatNull r.dst.format
  | .copyrect _ _ _ => formatNull r.dst.format ∨ formatNull r.src.format ∨ r.src.format ≠ r.dst.format
  | .brushmask _ => formatNull r.dst.format
  | .patfill => formatNull r.dst.format
  | .maskfill _ => formatNull r.dst.format ∨ r.src.format ≠ 1
  | .stretchrow _ _ _ _ => formatNull r.dst.format ∨ formatNull r.src.format ∨ r.src.format ≠ r.dst.format
  | .shrinkrow _ _ _ _ => formatNull r.dst.format ∨ formatNull r.src.format ∨ r.src.format ≠ r.dst.format

/-- The six FORMAT codes that are not NULL, with the depth, its bits per pixel, the bytes one pixel is reached through, and
whether it is sub-byte and whether it is bitfield, as the table of 10_state R43 prints them. -/
def depthTable : List (BitVec 3 × Depth × Nat × Nat × Bool × Bool) :=
  [(1, .bpp1, 1, 1, true, false), (2, .bpp4, 4, 1, true, false), (3, .bpp8, 8, 1, false, false),
   (4, .bpp16, 16, 2, false, true), (5, .bpp24, 24, 3, false, true), (6, .bpp32, 32, 4, false, true)]

/-- A view is what commands read of the descriptor's registers: BASE, CLIPW and CLIPH unsigned, STRIDE, ORGX and ORGY
signed, and the depth of the FORMAT code (10_state R22, R41 to R45). -/
def ReadsRegisters (S : Surface) (V : View) : Prop :=
  V.base = S.base ∧ V.stride = S.stride.toInt ∧ V.orgX = S.orgX.toInt ∧ V.orgY = S.orgY.toInt ∧
    V.clipW = S.clipW.toNat ∧ V.clipH = S.clipH.toNat ∧
    (S.format, V.depth, V.depth.bits, V.depth.bytes, V.depth.subByte, V.depth.bitfield) ∈ depthTable

/-- Some channel of the descriptor is wider than 8. -/
def wideChannel (S : Surface) : Prop := 8 < S.chanR.width.toNat ∨ 8 < S.chanG.width.toNat ∨ 8 < S.chanB.width.toNat

/-- The register value that makes a command raise PARAM, as the table of 60_exceptions R273 prints it; a null surface
goes first (60_exceptions R277). -/
def paramCause (i : Instr) (r : Regs) : Prop :=
  match i.opcode with
  | .extract => 8 < (r.opb.extractLsb' 8 4).toNat
  | .insert => 8 < (r.opb.extractLsb' 8 4).toNat
  | .pix2rgb => ∃ s, i = .pix2rgb s ∧ formatBitfield (r.surface s).format ∧ wideChannel (r.surface s)
  | .rgb2pix => ∃ s, i = .rgb2pix s ∧ formatBitfield (r.surface s).format ∧ wideChannel (r.surface s)
  | .dconv1 => r.dst.format = 1 ∧ formatBitfield r.src.format ∧ wideChannel r.src
  | .patfill => ¬formatNull r.dst.format ∧ (r.brW = 0 ∨ r.brH = 0)
  | _ => False

/-- The commands that can raise BOUNDS, as 60_exceptions R274 lists them. -/
def boundsCommands : List Opcode :=
  [.getpixel, .putpixel, .solidfill, .solidline, .copyrect, .patfill, .maskfill, .dconv1, .stretchrow, .shrinkrow]

/-- The bits of a channel's field in a pixel. -/
def chanMask (c : Chan) : Word := ones c.width.toNat <<< c.shift.toNat

/-- The bits of all three channels. -/
def channelBits (S : Surface) : Word := chanMask S.chanR ||| chanMask S.chanG ||| chanMask S.chanB

/-- The channels are at most 8 bits wide, lie inside the depth and do not overlap (41_codec R129). -/
def ChannelsFit (S : Surface) (d : Depth) : Prop :=
  ¬wideChannel S ∧
    S.chanR.shift.toNat + S.chanR.width.toNat ≤ d.bits ∧ S.chanG.shift.toNat + S.chanG.width.toNat ≤ d.bits ∧
    S.chanB.shift.toNat + S.chanB.width.toNat ≤ d.bits ∧
    chanMask S.chanR &&& chanMask S.chanG = 0 ∧ chanMask S.chanR &&& chanMask S.chanB = 0 ∧
    chanMask S.chanG &&& chanMask S.chanB = 0

/-- The state with the last result as the next operand: RES0 read and written to OPA. -/
def feed (t : State) : State := { t with regs := { t.regs with opa := t.res.res0 } }

/-- One bit of a command word. -/
def flag (b : Bool) (k : Nat) : Word := if b then 1 <<< k else 0

/-- The ROP field of a command word, at bit 8 (30_encoding R94). -/
def ropField (c : BitVec 4) : Word := c.setWidth 32 <<< 8

/-- The MSZ field of a command word, at bit 20 (30_encoding R100). -/
def mszField : MatrixSize → Word
  | .t4 => 0
  | .t8 => 0x00100000
  | .t16 => 0x00200000

/-- The SMODE field of a command word, at bit 22 (30_encoding R101). -/
def smodeField : ScanMode → Word
  | .replace => 0
  | .or => 0x00400000
  | .and => 0x00800000

/-- A word of the opcode with MSRC = 1 and a ROP is RSVD (30_encoding R95). -/
def ropWithMsrcIsReserved (opc : BitVec 8) : Prop :=
  ∀ w : Word, w.extractLsb' 0 8 = opc → w.getLsbD 12 = true → w.extractLsb' 8 4 ≠ 0 → decode w = .error .rsvd

/-- A word of the opcode, with no bit outside `mask`, whose field holds none of the legal values is PARAM
(30_encoding R106). -/
def otherFieldsAreParam (opc : BitVec 8) (mask : Word) (lo len : Nat) (legal : List (BitVec len)) : Prop :=
  ∀ w : Word, w.extractLsb' 0 8 = opc → w &&& ~~~mask = 0 → w.extractLsb' lo len ∉ legal → decode w = .error .param

/-- A1, A2, X1 and X2 of the 16 codes, all ones or zero, as the table of 42_rop R142 prints them. -/
def ropTable : List (Bool × Bool × Bool × Bool) :=
  [(false, false, false, false), (true, true, true, true), (true, true, false, false), (false, false, true, true),
   (true, false, true, false), (false, true, false, true), (false, true, true, false), (true, false, false, true),
   (true, false, false, false), (false, true, true, true), (false, true, false, false), (true, false, true, true),
   (false, false, true, false), (true, true, false, true), (true, true, true, false), (false, false, false, true)]

/-- All ones or zero. -/
def allOnes (b : Bool) : Word := if b then 0xFFFFFFFF else 0

/-- `M2` of 45_dither R211 at bit `k` of the row and the column. -/
def bayerBit (k y x : Nat) : Nat :=
  if y.testBit k then (if x.testBit k then 1 else 3) else (if x.testBit k then 2 else 0)

/-- The tables as 45_dither R211 builds them, at a row and a column. -/
def bayer (m : MatrixSize) (y x : Nat) : Nat :=
  match m with
  | .t4 => 4 * bayerBit 0 y x + bayerBit 1 y x
  | .t8 => 16 * bayerBit 0 y x + 4 * bayerBit 1 y x + bayerBit 2 y x
  | .t16 => 64 * bayerBit 0 y x + 16 * bayerBit 1 y x + 4 * bayerBit 2 y x + bayerBit 3 y x

/-- The accumulator before step `k` of a walk: a wrapping 32-bit sum (44_blit R183, 47_scan R250). -/
def errAt (e0 add1 add2 : Word) : Nat → Word
  | 0 => e0
  | k + 1 => errAt e0 add1 add2 k + if 0 < (errAt e0 add1 add2 k).toInt then add1 else add2

/-- How many of the first `k` error tests pass. -/
def passes (e0 add1 add2 : Word) (k : Nat) : Nat :=
  ((List.range k).filter fun j => decide (0 < (errAt e0 add1 add2 j).toInt)).length

/-- The 32-bit word of an integer (00_scope R8). -/
def word (v : Int) : Word := BitVec.ofInt 32 v

/-- The state with another destination rectangle. -/
def withRect (s : State) (x y w h : Word) : State :=
  { s with regs := { s.regs with rectX := x, rectY := y, rectW := w, rectH := h } }

/-- The pixels of a list share no memory with one another (20_memory R66). -/
def Apart (V : View) (pts : List (Int × Int)) : Prop :=
  ∀ p ∈ pts, ∀ q ∈ pts, p ≠ q → PixelsApart V V p.1 p.2 q.1 q.2

/-- No pixel of one list shares memory with a pixel of the other. -/
def ApartFrom (V W : View) (pts qts : List (Int × Int)) : Prop :=
  ∀ p ∈ pts, ∀ q ∈ qts, PixelsApart V W p.1 p.2 q.1 q.2

/-- The pair of a solid command (42_rop R152). -/
def solidPair (r : Regs) (rop : BitVec 4) (msrc : Bool) : Word × Word :=
  if msrc then (r.maskAnd, r.maskXor) else ((ropMask rop r.fgPixel).and, (ropMask rop r.fgPixel).xor)

/-- One read-modify-write of a pixel under an (AND, XOR) pair (44_blit R181). -/
def applyAt (V : View) (a x : Word) (m : Memory) (p : Int × Int) : Memory :=
  putPix V m p.1 p.2 ((getPix V m p.1 p.2 &&& a) ^^^ x)

/-- The state with the next event taken off the host's sequence. -/
def taken (s : State) (rest : List HostEvent) : State := { s with host := rest }

/-- The word offsets of the block whose writes a busy engine drops (10_state R22, R37). -/
def dropped (off : Nat) : Prop :=
  0x00C ≤ off ∧ off ≤ 0x01C ∨ 0x030 ≤ off ∧ off ≤ 0x064 ∨ 0x080 ≤ off ∧ off ≤ 0x0A4 ∨
    0x0C0 ≤ off ∧ off ≤ 0x0E0 ∨ 0x100 ≤ off ∧ off ≤ 0x114 ∨ 0x120 ≤ off ∧ off ≤ 0x12C

/-- The reserved offsets (10_state R36). -/
def reserved (off : Nat) : Prop :=
  0x068 ≤ off ∧ off ≤ 0x07C ∨ 0x0A8 ≤ off ∧ off ≤ 0x0BC ∨ 0x0E4 ≤ off ∧ off ≤ 0x0FC ∨
    0x118 ≤ off ∧ off ≤ 0x11C ∨ 0x130 ≤ off ∧ off ≤ 0x1FC

/-- A word offset of the block (10_state R20). -/
def wordOffset (off : Nat) : Prop := off % 4 = 0 ∧ off < 0x200

/-- The stored fields of a channel descriptor word (10_state R46). -/
def chanBits (v : Word) : Chan := { shift := v.extractLsb' 0 5, width := v.extractLsb' 8 4 }

/-- The registers that commands read, with their offsets, as the table of 10_state R22 prints them: the register that a
write of `v` changes, and what it stores (10_state R43, R46). -/
def registerTable : List (Nat × (Regs → Word → Regs)) :=
  [(0x010, fun r v => { r with opa := v }),
   (0x014, fun r v => { r with opb := v }),
   (0x018, fun r v => { r with opc := v }),
   (0x01C, fun r v => { r with opd := v }),
   (0x030, fun r v => { r with fgPixel := v }),
   (0x034, fun r v => { r with bgPixel := v }),
   (0x038, fun r v => { r with maskAnd := v }),
   (0x03C, fun r v => { r with maskXor := v }),
   (0x040, fun r v => { r with dst.base := v }),
   (0x044, fun r v => { r with dst.stride := v }),
   (0x048, fun r v => { r with dst.format := v.extractLsb' 0 3 }),
   (0x04C, fun r v => { r with dst.orgX := v }),
   (0x050, fun r v => { r with dst.orgY := v }),
   (0x054, fun r v => { r with dst.clipW := v }),
   (0x058, fun r v => { r with dst.clipH := v }),
   (0x05C, fun r v => { r with dst.chanR := chanBits v }),
   (0x060, fun r v => { r with dst.chanG := chanBits v }),
   (0x064, fun r v => { r with dst.chanB := chanBits v }),
   (0x080, fun r v => { r with src.base := v }),
   (0x084, fun r v => { r with src.stride := v }),
   (0x088, fun r v => { r with src.format := v.extractLsb' 0 3 }),
   (0x08C, fun r v => { r with src.orgX := v }),
   (0x090, fun r v => { r with src.orgY := v }),
   (0x094, fun r v => { r with src.clipW := v }),
   (0x098, fun r v => { r with src.clipH := v }),
   (0x09C, fun r v => { r with src.chanR := chanBits v }),
   (0x0A0, fun r v => { r with src.chanG := chanBits v }),
   (0x0A4, fun r v => { r with src.chanB := chanBits v }),
   (0x0C0, fun r v => { r with brAndBase := v }),
   (0x0C4, fun r v => { r with brXorBase := v }),
   (0x0C8, fun r v => { r with brStride := v }),
   (0x0CC, fun r v => { r with brW := v }),
   (0x0D0, fun r v => { r with brH := v }),
   (0x0D4, fun r v => { r with brAnchX := v }),
   (0x0D8, fun r v => { r with brAnchY := v }),
   (0x0DC, fun r v => { r with hatchLo := v }),
   (0x0E0, fun r v => { r with hatchHi := v }),
   (0x100, fun r v => { r with rectX := v }),
   (0x104, fun r v => { r with rectY := v }),
   (0x108, fun r v => { r with rectW := v }),
   (0x10C, fun r v => { r with rectH := v }),
   (0x110, fun r v => { r with srcX := v }),
   (0x114, fun r v => { r with srcY := v }),
   (0x120, fun r v => { r with errStart := v }),
   (0x124, fun r v => { r with errAdd1 := v }),
   (0x128, fun r v => { r with errAdd2 := v }),
   (0x12C, fun r v => { r with length := v })]

/-- The bits of a register that read back as written (10_state R43, R46). -/
def storedBits (off : Nat) : Word :=
  if off = 0x048 ∨ off = 0x088 then 0x00000007
  else if 0x05C ≤ off ∧ off ≤ 0x064 ∨ 0x09C ≤ off ∧ off ≤ 0x0A4 then 0x00000F1F
  else 0xFFFFFFFF

end Sys2Proof.Claims

open Sys2Proof Sys2Proof.Machine Sys2Proof.Claims

/-! ### Encoding and the step -/

/-- 30_encoding R91, R106, R109, R113: a word decodes to a command exactly when the command is well formed and the word
is its encoding, so that decoding the encoding of a well-formed command gives it back and no command has two
spellings. -/
def Obligations.DecodeAndEncodeAgree : Prop :=
  ∀ (w : Word) (i : Instr), decode w = .ok i ↔ WellFormed i ∧ encode i = w

/-- 30_encoding R109, against the printed table of R113: BADOP, then RSVD, then PARAM, else the command. -/
def Obligations.DecodeChecksInOrder : Prop :=
  ∀ w : Word,
    ((∀ m, (w.extractLsb' 0 8, m) ∉ maskTable) → decode w = .error .badop) ∧
    ∀ m, (w.extractLsb' 0 8, m) ∈ maskTable →
      (reservedBits w m → decode w = .error .rsvd) ∧
      (¬reservedBits w m → reservedField w → decode w = .error .param) ∧
      (¬reservedBits w m → ¬reservedField w → ∃ i, decode w = .ok i ∧ encode i = w)

/-- 30_encoding R113, R111: one word of each family, written out from its rule, is the command it stands for. -/
def Obligations.SampleWordsDecode : Prop :=
  decode 0x00000000 = .ok .nop ∧
  decode 0x00010012 = .ok (.pix2rgb .src) ∧
  decode 0x00000620 = .ok (.ropcodes 6) ∧
  decode 0x00040032 = .ok (.pack .bpp4) ∧
  decode 0x00200040 = .ok (.dthresh .t16) ∧
  decode 0x00000650 = .ok (.solidfill 6 false) ∧
  decode 0x08000C51 = .ok (.solidline 12 false true false false) ∧
  decode 0x00002C52 = .ok (.copyrect 12 true false) ∧
  decode 0x00000C62 = .ok (.maskfill 12) ∧
  decode 0x01400071 = .ok (.shrinkrow .or true false false)

/-- What a step runs when no host access comes first. An idle engine does nothing (60_exceptions R288). A busy one
whose word decodes runs that command, and nothing is added around it; a word that is no command ends in its error
(60_exceptions R277). That a command takes ONE step is the model's choice (70_reset R310, log entry 1). -/
def Obligations.StepRunsTheDecodedCommand : Prop :=
  ∀ s : State,
    (s.host = [] → s.status.busy = false → step s = .next s) ∧
    (s.status.busy = true → s.raced = [] →
      (∀ i, s.host = [] → decode s.cmd = .ok i → step s = exec i s) ∧
      (∀ e, s.host = [] → decode s.cmd = .error e → step s = .next (s.raise e)) ∧
      (∀ i rest, s.host = .engine :: rest → decode s.cmd = .ok i → step s = exec i (taken s rest)) ∧
      (∀ e rest, s.host = .engine :: rest → decode s.cmd = .error e → step s = .next ((taken s rest).raise e)))

/-! ### How a command ends -/

/-- 60_exceptions R275, R276, R278: the STATUS bits each ending writes, and that it writes nothing else but the results
and the memory of a success and the results of a null no-op. NOP (R107, R276) is a success that changes neither. -/
def Obligations.EndingsWriteTheirFields : Prop :=
  ∀ s : State,
    (∀ e, s.raise e =
      { s with status := { s.status with err := true, errcode := codeOf e, done := true, busy := false } }) ∧
    (∀ res mem, s.complete res mem =
      { s with status := { s.status with done := true, busy := false }, res := res, mem := mem }) ∧
    (∀ res, s.nullEnd res =
      { s with status := { s.status with nullop := true, done := true, busy := false }, res := res }) ∧
    exec .nop s = .next (s.complete s.res s.mem)

/-- 60_exceptions R270, 10_state R33: every command ends by success, as a null no-op, or in PARAM or BOUNDS (decode
raises the other errors); only the commands whose rules name them change RES1 to RES3, and a command that draws changes
no result register. -/
def Obligations.EveryCommandEnds : Prop :=
  ∀ (i : Instr) (s : State), ∃ t, exec i s = .next t ∧ EndsProperly s t ∧
    (i.opcode ∉ [.ropcodes, .pixaddr] → t.res.res2 = s.res.res2 ∧ t.res.res3 = s.res.res3) ∧
    (i.opcode ∉ [.ropcodes, .pixaddr, .ropmask, .dcmp, .dmono] → t.res.res1 = s.res.res1) ∧
    (i.opcode ∈ [.nop, .putpixel, .dconv1, .solidfill, .solidline, .copyrect, .brushmask, .patfill, .maskfill,
      .stretchrow, .shrinkrow] → t.res = s.res) ∧
    (t.status.err = true → s.status.err = false → t.res = s.res ∧ t.mem = s.mem)

/-- 60_exceptions R279: a command ends as a null no-op in exactly the cases of the table. -/
def Obligations.NullConditionsAreTheTable : Prop :=
  ∀ (i : Instr) (s t : State), s.status.nullop = false → exec i s = .next t →
    (t.status.nullop = true ↔ nullCondition i s.regs)

/-- 60_exceptions R273, R274, R277: a decoded command raises PARAM in exactly the cases of the table, and BOUNDS only
when it is one of the ten commands of R274; it never reports another code. -/
def Obligations.ErrorCausesOfCommands : Prop :=
  ∀ (i : Instr) (s t : State), s.status.err = false → exec i s = .next t →
    (t.status.err = true → t.status.errcode = 3 ∨ t.status.errcode = 4) ∧
    (t.status.err = true ∧ t.status.errcode = 3 ↔ paramCause i s.regs) ∧
    (t.status.err = true ∧ t.status.errcode = 4 → i.opcode ∈ boundsCommands)

/-! ### The codec -/

/-- 41_codec R125 with R121: EXTRACT replicates the field, most significant bit first; PARAM above width 8. -/
def Obligations.ExtractReplicatesTheField : Prop :=
  decode 0x00000010 = .ok .extract ∧
  ∀ (s : State) (sh w : Nat), sh = (s.regs.opb.extractLsb' 0 5).toNat → w = (s.regs.opb.extractLsb' 8 4).toNat →
    (8 < w → exec .extract s = .next (s.raise .param)) ∧
    (w ≤ 8 → ∃ v : Byte, exec .extract s = .next (s.complete { s.res with res0 := v.setWidth 32 } s.mem) ∧
      (w = 0 → v = 0) ∧
      (0 < w → ∀ k < 8, v.getLsbD (7 - k) = s.regs.opa.getLsbD (sh + (w - 1 - k % w))))

/-- 41_codec R126 with R123: INSERT places the top `w` bits of OPA[7:0] at bit `s`; PARAM above width 8. -/
def Obligations.InsertPlacesTheTopBits : Prop :=
  decode 0x00000011 = .ok .insert ∧
  ∀ (s : State) (sh w : Nat), sh = (s.regs.opb.extractLsb' 0 5).toNat → w = (s.regs.opb.extractLsb' 8 4).toNat →
    (8 < w → exec .insert s = .next (s.raise .param)) ∧
    (w ≤ 8 → ∃ v : Word, exec .insert s = .next (s.complete { s.res with res0 := v } s.mem) ∧
      ∀ k < 32, v.getLsbD k =
        (decide (sh ≤ k) && decide (k < sh + w) && s.regs.opa.getLsbD (8 - w + (k - sh))))

/-- 41_codec R124: inserting what was extracted gives the original field in place and nothing else. -/
def Obligations.InsertOfExtractIsTheField : Prop :=
  ∀ (p : Word) (s w : Nat), s ≤ 31 → w ≤ 8 → insertChan (extractChan p s w) s w = p &&& (ones w <<< s)

/-- 41_codec R122: the corner cases of `Extract`. Width 0 gives 0, width 8 gives the byte at the shift, bits past bit 31
read 0, and the top `w` bits are the field. -/
def Obligations.ExtractCornerCases : Prop :=
  ∀ (p : Word) (s : Nat), s ≤ 31 →
    extractChan p s 0 = 0 ∧ extractChan p s 8 = p.extractLsb' s 8 ∧
    extractChan 0x80000000 31 2 = 0x55 ∧
    ∀ w, 1 ≤ w → w ≤ 8 →
      (extractChan p s w >>> (8 - w)).toNat = p.toNat / 2 ^ s % 2 ^ w ∧
      (∀ k, 32 ≤ s + k → k < w → (extractChan p s w).getLsbD (8 - w + k) = false)

/-- 41_codec R127, R128: PIX2RGB and RGB2PIX on a surface that is not bitfield, with a channel that is too wide, and
otherwise. -/
def Obligations.PixelAndRgbConversions : Prop :=
  decode 0x00000012 = .ok (.pix2rgb .dst) ∧ decode 0x00010012 = .ok (.pix2rgb .src) ∧
  decode 0x00000013 = .ok (.rgb2pix .dst) ∧ decode 0x00010013 = .ok (.rgb2pix .src) ∧
  ∀ (surf : Surf) (s : State) (S : Surface), S = s.regs.surface surf →
    (¬formatBitfield S.format →
      exec (.pix2rgb surf) s = .next (s.nullEnd { s.res with res0 := 0 }) ∧
      exec (.rgb2pix surf) s = .next (s.nullEnd { s.res with res0 := 0 })) ∧
    (formatBitfield S.format → wideChannel S →
      exec (.pix2rgb surf) s = .next (s.raise .param) ∧ exec (.rgb2pix surf) s = .next (s.raise .param)) ∧
    (∀ bits : Nat, (S.format = 4 ∧ bits = 16 ∨ S.format = 5 ∧ bits = 24 ∨ S.format = 6 ∧ bits = 32) →
      ¬wideChannel S →
      (∃ v : Word, exec (.pix2rgb surf) s = .next (s.complete { s.res with res0 := v } s.mem) ∧
        v.extractLsb' 16 8 =
          extractChan (s.regs.opa &&& ones bits) S.chanR.shift.toNat S.chanR.width.toNat ∧
        v.extractLsb' 8 8 =
          extractChan (s.regs.opa &&& ones bits) S.chanG.shift.toNat S.chanG.width.toNat ∧
        v.extractLsb' 0 8 =
          extractChan (s.regs.opa &&& ones bits) S.chanB.shift.toNat S.chanB.width.toNat ∧
        v.extractLsb' 24 8 = 0) ∧
      exec (.rgb2pix surf) s = .next (s.complete { s.res with res0 :=
        (insertChan (s.regs.opa.extractLsb' 16 8) S.chanR.shift.toNat S.chanR.width.toNat |||
          insertChan (s.regs.opa.extractLsb' 8 8) S.chanG.shift.toNat S.chanG.width.toNat |||
          insertChan (s.regs.opa.extractLsb' 0 8) S.chanB.shift.toNat S.chanB.width.toNat) &&& ones bits } s.mem))

/-- 41_codec R129: a pixel of one surface converted to the other's format and back is the pixel, with its bits outside the
channels cleared, when its channels are no wider than the other's. -/
def Obligations.ConversionToWiderChannelsIsLossless : Prop :=
  ∀ (s : State) (a b : Surf) (X Y : Surface) (dX dY : Depth), X = s.regs.surface a → Y = s.regs.surface b →
    depthOf X.format = some dX → dX.bitfield = true → depthOf Y.format = some dY → dY.bitfield = true →
    ChannelsFit X dX → ChannelsFit Y dY →
    X.chanR.width ≤ Y.chanR.width → X.chanG.width ≤ Y.chanG.width → X.chanB.width ≤ Y.chanB.width →
    ∃ t1 t2 t3 t4, exec (.pix2rgb a) s = .next t1 ∧ exec (.rgb2pix b) (feed t1) = .next t2 ∧
      exec (.pix2rgb b) (feed t2) = .next t3 ∧ exec (.rgb2pix a) (feed t3) = .next t4 ∧
      t4.res.res0 = s.regs.opa &&& channelBits X

/-! ### Raster operations -/

/-- 42_rop R147 with the printed table of R142: ROPCODES. -/
def Obligations.RopcodesGivesTheConstants : Prop :=
  ∀ c : BitVec 4, decode (0x00000020 ||| ropField c) = .ok (.ropcodes c) ∧
    ∃ a1 a2 x1 x2, ropTable[c.toNat]? = some (a1, a2, x1, x2) ∧
      ∀ s : State, exec (.ropcodes c) s = .next (s.complete
        { res0 := allOnes a1, res1 := allOnes a2, res2 := allOnes x1, res3 := allOnes x2 } s.mem)

/-- 42_rop R144 with R148: the pair that ROPMASK gives acts as the truth table of the code, on every bit. -/
def Obligations.RopmaskFollowsTheTruthTable : Prop :=
  ∀ (c : BitVec 4) (s : State), decode (0x00000021 ||| ropField c) = .ok (.ropmask c) ∧
    ∃ a x : Word, exec (.ropmask c) s = .next (s.complete { s.res with res0 := a, res1 := x } s.mem) ∧
      ∀ (d : Word) (k : Nat), k < 32 →
        ((d &&& a) ^^^ x).getLsbD k = c.getLsbD (2 * (s.regs.opa.getLsbD k).toNat + (d.getLsbD k).toNat)

/-- 42_rop R149, R150, R151 with R145, R146: ROPAPPLY, ROPAPPLYM and ROPSRC, bit by bit. Where the partial mask of
ROPAPPLYM is 1 it acts as ROPAPPLY, and where it is 0 the value stays; ROPSRC is the truth table of the code. -/
def Obligations.ValuesCombineBitByBit : Prop :=
  decode 0x00000022 = .ok .ropapply ∧ decode 0x00000023 = .ok .ropapplym ∧
  (∀ c : BitVec 4, decode (0x00000024 ||| ropField c) = .ok (.ropsrc c)) ∧
  ∀ s : State,
    (∃ v : Word, exec .ropapply s = .next (s.complete { s.res with res0 := v } s.mem) ∧
      ∀ k < 32, v.getLsbD k = ((s.regs.opa.getLsbD k && s.regs.opb.getLsbD k) ^^ s.regs.opc.getLsbD k)) ∧
    (∃ v : Word, exec .ropapplym s = .next (s.complete { s.res with res0 := v } s.mem) ∧
      ∀ k < 32, v.getLsbD k =
        if s.regs.opd.getLsbD k then ((s.regs.opa.getLsbD k && s.regs.opb.getLsbD k) ^^ s.regs.opc.getLsbD k)
        else s.regs.opa.getLsbD k) ∧
    ∀ c : BitVec 4, ∃ v : Word, exec (.ropsrc c) s = .next (s.complete { s.res with res0 := v } s.mem) ∧
      ∀ k < 32, v.getLsbD k = c.getLsbD (2 * (s.regs.opa.getLsbD k).toNat + (s.regs.opb.getLsbD k).toNat)

/-! ### The packer and pixel access -/

/-- 43_pack R161 with 20_memory R66, R67: PIXADDR. What every command takes of DST and SRC is said first: SURF selects the
descriptor (30_encoding R98), FORMAT codes 0 and 7 are NULL, and any other descriptor gives the view of its registers
(10_state R41 to R45). -/
def Obligations.PixaddrGivesThePlace : Prop :=
  decode 0x00000030 = .ok (.pixaddr .dst) ∧ decode 0x00010030 = .ok (.pixaddr .src) ∧
  (∀ r : Regs, r.surface .dst = r.dst ∧ r.surface .src = r.src) ∧
  (∀ S : Surface, (formatNull S.format → S.view = none) ∧
    (¬formatNull S.format → ∃ V, S.view = some V ∧ ReadsRegisters S V)) ∧
  ∀ (surf : Surf) (s : State),
    ((s.regs.surface surf).view = none →
      exec (.pixaddr surf) s = .next (s.nullEnd { res0 := 0, res1 := 0, res2 := 0, res3 := 0 })) ∧
    ∀ (V : View) (X row : Int), (s.regs.surface surf).view = some V → X = V.orgX + s.regs.opa.toInt →
      row = V.base.toNat + (V.orgY + s.regs.opb.toInt) * V.stride →
      (V.depth = .bpp1 → exec (.pixaddr surf) s = .next (s.complete
        { res0 := word (row + X / 8), res1 := 1 <<< (7 - (X % 8).toNat), res2 := BitVec.ofNat 32 (7 - (X % 8).toNat),
          res3 := 1 } s.mem)) ∧
      (V.depth = .bpp4 → exec (.pixaddr surf) s = .next (s.complete
        { res0 := word (row + X / 2), res1 := if X % 2 = 0 then 0xF0 else 0x0F,
          res2 := if X % 2 = 0 then 4 else 0, res3 := 4 } s.mem)) ∧
      (V.depth ≠ .bpp1 → V.depth ≠ .bpp4 → exec (.pixaddr surf) s = .next (s.complete
        { res0 := word (row + X * (V.depth.bits / 8 : Nat)), res1 := 0xFF, res2 := 0,
          res3 := BitVec.ofNat 32 V.depth.bits } s.mem))

/-- 43_pack R162, R163: UNPACK takes one pixel out of a byte, and PACK replaces one pixel of a byte, bit by bit. -/
def Obligations.UnpackAndPackOnePixel : Prop :=
  decode 0x00020031 = .ok (.unpack .bpp1) ∧ decode 0x00040031 = .ok (.unpack .bpp4) ∧
  decode 0x00020032 = .ok (.pack .bpp1) ∧ decode 0x00040032 = .ok (.pack .bpp4) ∧
  otherFieldsAreParam 0x31 0x000E00FF 17 3 [1, 2] ∧ otherFieldsAreParam 0x32 0x000E00FF 17 3 [1, 2] ∧
  ∀ (s : State) (X : Nat), X = s.regs.opb.toNat →
    (∃ v : Word, exec (.unpack .bpp1) s = .next (s.complete { s.res with res0 := v } s.mem) ∧
      ∀ k < 32, v.getLsbD k = (decide (k = 0) && s.regs.opa.getLsbD (7 - X % 8))) ∧
    (∃ v : Word, exec (.unpack .bpp4) s = .next (s.complete { s.res with res0 := v } s.mem) ∧
      ∀ k < 32, v.getLsbD k = (decide (k < 4) && s.regs.opa.getLsbD (if X % 2 = 0 then 4 + k else k))) ∧
    (∃ v : Word, exec (.pack .bpp1) s = .next (s.complete { s.res with res0 := v } s.mem) ∧
      ∀ k < 32, v.getLsbD k =
        if k = 7 - X % 8 then s.regs.opc.getLsbD 0 else decide (k < 8) && s.regs.opa.getLsbD k) ∧
    (∃ v : Word, exec (.pack .bpp4) s = .next (s.complete { s.res with res0 := v } s.mem) ∧
      ∀ k < 32, v.getLsbD k =
        if X % 2 = 0 ∧ 4 ≤ k ∧ k < 8 then s.regs.opc.getLsbD (k - 4)
        else if X % 2 = 1 ∧ k < 4 then s.regs.opc.getLsbD k
        else decide (k < 8) && s.regs.opa.getLsbD k)

/-- 43_pack R166: UNPACK and PACK agree with `GetPix` and `PutPix` on a sub-byte pixel. -/
def Obligations.PackerAgreesWithPixelAccess : Prop :=
  ∀ (s : State) (V : View) (x y : Int) (d : SubDepth) (a : Word),
    s.mem.wf = true → (V.depth = .bpp1 ∧ d = .bpp1 ∨ V.depth = .bpp4 ∧ d = .bpp4) →
    a = (pixAddr V x y).addr → s.mem.unbacked a.toNat = false →
    s.regs.opa.extractLsb' 0 8 = s.mem.read a → s.regs.opb = word (V.orgX + x) →
    (∃ t, exec (.unpack d) s = .next t ∧ t.res.res0 = getPix V s.mem x y) ∧
    (∃ t, exec (.pack d) s = .next t ∧
      t.res.res0 = ((putPix V s.mem x y s.regs.opc).read a).setWidth 32)

/-- 43_pack R164 with 20_memory R62, R68: GETPIXEL on a NULL surface, outside the clip rectangle, and inside it, where
the bytes of a pixel of 8 bits or more lie least significant first. -/
def Obligations.GetpixelReadsThePixel : Prop :=
  decode 0x00000033 = .ok (.getpixel .dst) ∧ decode 0x00010033 = .ok (.getpixel .src) ∧
  ∀ (surf : Surf) (s : State),
    ((s.regs.surface surf).view = none →
      exec (.getpixel surf) s = .next (s.nullEnd { s.res with res0 := 0 })) ∧
    ∀ (V : View) (x y : Int), (s.regs.surface surf).view = some V → x = s.regs.opa.toInt → y = s.regs.opb.toInt →
      (¬(0 ≤ x ∧ x < V.clipW ∧ 0 ≤ y ∧ y < V.clipH) → exec (.getpixel surf) s = .next (s.raise .bounds)) ∧
      (0 ≤ x ∧ x < V.clipW ∧ 0 ≤ y ∧ y < V.clipH →
        ∃ v : Word, exec (.getpixel surf) s = .next (s.complete { s.res with res0 := v } s.mem) ∧
          (V.depth.subByte = true →
            v = ((s.mem.read (pixAddr V x y).addr &&& (pixAddr V x y).mask) >>> (pixAddr V x y).shift).setWidth 32) ∧
          (V.depth.subByte = false →
            v.toNat < 2 ^ V.depth.bits ∧
            ∀ k < V.depth.bytes,
              v.extractLsb' (8 * k) 8 = s.mem.read ((pixAddr V x y).addr + BitVec.ofNat 32 k)))

/-- 43_pack R165: PUTPIXEL on a NULL surface, outside the clip rectangle, and inside it. -/
def Obligations.PutpixelWritesThePixel : Prop :=
  (∀ c : BitVec 4, decode (0x00000034 ||| ropField c) = .ok (.putpixel c false)) ∧
  decode 0x00001034 = .ok (.putpixel 0 true) ∧ ropWithMsrcIsReserved 0x34 ∧
  ∀ (c : BitVec 4) (msrc : Bool) (s : State),
    (s.regs.dst.view = none → exec (.putpixel c msrc) s = .next (s.nullEnd s.res)) ∧
    ∀ (V : View) (x y : Int), s.regs.dst.view = some V → x = s.regs.opa.toInt → y = s.regs.opb.toInt →
      (¬(0 ≤ x ∧ x < V.clipW ∧ 0 ≤ y ∧ y < V.clipH) → exec (.putpixel c msrc) s = .next (s.raise .bounds)) ∧
      (0 ≤ x ∧ x < V.clipW ∧ 0 ≤ y ∧ y < V.clipH →
        exec (.putpixel c msrc) s = .next (s.complete s.res
          (applyAt V (solidPair s.regs c msrc).1 (solidPair s.regs c msrc).2 s.mem (x, y))))

/-- 20_memory R68, R69: a pixel reads back as written, cut to the depth; a pixel that shares no bit of memory with it,
also one in the same byte, keeps its value. -/
def Obligations.PixelReadsBackAsWritten : Prop :=
  ∀ (V : View) (m : Memory) (x y : Int) (v : Word), m.wf = true → m.backs (pixBytes V x y) →
    getPix V (putPix V m x y v) x y = v &&& ones V.depth.bits ∧
    ∀ (W : View) (x' y' : Int), m.backs (pixBytes W x' y') → PixelsApart V W x y x' y' →
      getPix W (putPix V m x y v) x' y' = getPix W m x' y'

/-! ### Dither -/

/-- 45_dither R211: the printed tables are the recursive Bayer matrices at every coordinate, and each value stands once
in its table. -/
def Obligations.ThresholdTablesAreBayer : Prop :=
  ∀ m : MatrixSize,
    (∀ x y : Int, thresh m x y = bayer m (y % tableSide m).toNat (x % tableSide m).toNat) ∧
    ∀ v, v < tableSide m * tableSide m →
      ((rasterOffsets (tableSide m) (tableSide m)).filter fun c => thresh m c.1 c.2 == v).length = 1

/-- 45_dither R218, R219: DTHRESH and DCMP. A value of 0 never passes, and 255 passes except where the table holds 0. -/
def Obligations.ThresholdCommands : Prop :=
  (∀ m : MatrixSize, decode (0x00000040 ||| mszField m) = .ok (.dthresh m) ∧
    decode (0x00000041 ||| mszField m) = .ok (.dcmp m)) ∧
  otherFieldsAreParam 0x40 0x003000FF 20 2 [0, 1, 2] ∧ otherFieldsAreParam 0x41 0x003000FF 20 2 [0, 1, 2] ∧
  ∀ (m : MatrixSize) (s : State) (k : Nat), (m = .t4 ∧ k = 16 ∨ m = .t8 ∧ k = 4 ∨ m = .t16 ∧ k = 1) →
    exec (.dthresh m) s = .next (s.complete
      { s.res with res0 := BitVec.ofNat 32 (thresh m s.regs.opa.toInt s.regs.opb.toInt) } s.mem) ∧
    ∃ (t : Nat) (b : Bool), t = thresh m s.regs.opb.toInt s.regs.opc.toInt * k ∧ t ≤ 255 ∧
      (b = true ↔ 255 < (s.regs.opa.extractLsb' 0 8).toNat + t) ∧
      exec (.dcmp m) s = .next (s.complete
        { s.res with res0 := if b then 1 else 0, res1 := BitVec.ofNat 32 t } s.mem) ∧
      (s.regs.opa.extractLsb' 0 8 = 0 → b = false) ∧
      (s.regs.opa.extractLsb' 0 8 = 255 → (b = true ↔ t ≠ 0))

/-- 45_dither R220 with R215, R216, and R219: DMONO, and that DCMP with the 16×16 matrix on the gray value agrees with
it. -/
def Obligations.MonochromeComparator : Prop :=
  decode 0x00000042 = .ok .dmono ∧
  ∀ (s : State) (g : Nat),
    g = (30 * (s.regs.opa.extractLsb' 16 8).toNat + 59 * (s.regs.opa.extractLsb' 8 8).toNat +
      11 * (s.regs.opa.extractLsb' 0 8).toNat) / 100 →
    g ≤ 255 ∧
    ∃ b : Bool, (b = true ↔ 255 < g + thresh .t16 s.regs.opb.toInt s.regs.opc.toInt) ∧
      exec .dmono s =
        .next (s.complete { s.res with res0 := if b then 1 else 0, res1 := BitVec.ofNat 32 g } s.mem) ∧
      (s.regs.opa.extractLsb' 0 24 = 0 → b = false) ∧
      ∃ t, exec (.dcmp .t16) { s with regs := { s.regs with opa := BitVec.ofNat 32 g } } = .next t ∧
        t.res.res0 = if b then 1 else 0

/-- 45_dither R221 with R217: QUANT5, channel by channel, and that it leaves its own result as it is. -/
def Obligations.QuantiserGivesLatticeCentres : Prop :=
  decode 0x00000043 = .ok .quant5 ∧
  ∀ s : State, ∃ v : Word, exec .quant5 s = .next (s.complete { s.res with res0 := v } s.mem) ∧
    (v.extractLsb' 16 8).toNat = (s.regs.opa.extractLsb' 16 8).toNat / 8 * 8 + 4 ∧
    (v.extractLsb' 8 8).toNat = (s.regs.opa.extractLsb' 8 8).toNat / 8 * 8 + 4 ∧
    (v.extractLsb' 0 8).toNat = (s.regs.opa.extractLsb' 0 8).toNat / 8 * 8 + 4 ∧
    v.extractLsb' 24 8 = 0 ∧
    exec .quant5 { s with regs := { s.regs with opa := v } } =
      .next ({ s with regs := { s.regs with opa := v } }.complete { s.res with res0 := v } s.mem)

/-- 45_dither R222: DCONV1's null path, PARAM, empty rectangle, BOUNDS, and its pixels and padding in order. -/
def Obligations.DitheredConversion : Prop :=
  decode 0x00000044 = .ok (.dconv1 false) ∧ decode 0x00008044 = .ok (.dconv1 true) ∧
  ∀ (pad : Bool) (s : State),
    (s.regs.dst.format ≠ 1 ∨ ¬formatBitfield s.regs.src.format →
      exec (.dconv1 pad) s = .next (s.nullEnd s.res)) ∧
    ∀ (D S : View) (x0 y0 sx0 sy0 : Int) (w h : Nat), s.regs.dst.view = some D → s.regs.src.view = some S →
      s.regs.dst.format = 1 → formatBitfield s.regs.src.format →
      x0 = s.regs.rectX.toInt → y0 = s.regs.rectY.toInt → sx0 = s.regs.srcX.toInt → sy0 = s.regs.srcY.toInt →
      w = s.regs.rectW.toNat → h = s.regs.rectH.toNat →
      (wideChannel s.regs.src → exec (.dconv1 pad) s = .next (s.raise .param)) ∧
      (¬wideChannel s.regs.src → w = 0 ∨ h = 0 → exec (.dconv1 pad) s = .next (s.complete s.res s.mem)) ∧
      (¬wideChannel s.regs.src → w ≠ 0 → h ≠ 0 →
        ¬(D.rectInside x0 y0 w h = true ∧ S.rectInside sx0 sy0 w h = true) →
        exec (.dconv1 pad) s = .next (s.raise .bounds)) ∧
      (¬wideChannel s.regs.src → w ≠ 0 → h ≠ 0 → D.rectInside x0 y0 w h = true → S.rectInside sx0 sy0 w h = true →
        exec (.dconv1 pad) s = .next (s.complete s.res ((List.range h).foldl (fun m (r : Nat) =>
          let m1 := (List.range w).foldl (fun m' (c : Nat) => putPix D m' (x0 + c) (y0 + r)
            (if mono (s.regs.src.pixToRgb (getPix S m' (sx0 + c) (sy0 + r))) (x0 + c) (y0 + r) then 1 else 0)) m
          if pad then padRow D m1 (y0 + r) (D.orgX + x0 + w) else m1) s.mem)))

/-- 45_dither R222, R216, 20_memory R84: without padding, when no pixel shares memory with another, each DST pixel ends
as the comparator's answer for the SRC pixel of the start, taken at the DST coordinate. -/
def Obligations.DitheredPixels : Prop :=
  ∀ (s t : State) (D S : View) (x0 y0 sx0 sy0 : Int) (w h : Nat), s.mem.wf = true →
    s.regs.dst.view = some D → s.regs.src.view = some S → D.depth = .bpp1 → S.depth.bitfield = true →
    ¬wideChannel s.regs.src → x0 = s.regs.rectX.toInt → y0 = s.regs.rectY.toInt →
    sx0 = s.regs.srcX.toInt → sy0 = s.regs.srcY.toInt → w = s.regs.rectW.toNat → h = s.regs.rectH.toNat →
    D.rectInside x0 y0 w h = true → S.rectInside sx0 sy0 w h = true →
    Apart D (rectPoints x0 y0 w h) → ApartFrom D S (rectPoints x0 y0 w h) (rectPoints sx0 sy0 w h) →
    s.mem.backs (pixelBytes D (rectPoints x0 y0 w h)) → s.mem.backs (pixelBytes S (rectPoints sx0 sy0 w h)) →
    exec (.dconv1 false) s = .next t →
    ∀ c r : Nat, c < w → r < h →
      getPix D t.mem (x0 + c) (y0 + r) =
        if 255 < gray (s.regs.src.pixToRgb (getPix S s.mem (sx0 + c) (sy0 + r))) + thresh .t16 (x0 + c) (y0 + r)
        then 1 else 0

/-- 45_dither R223: `PadRow` clears the columns of a row from `Xe` on, keeps those before it, and touches no other
byte. -/
def Obligations.PaddingClearsTheRestOfTheRow : Prop :=
  ∀ (S : Surface) (V : View) (m : Memory) (y Xe row : Int), S.view = some V → m.wf = true →
    row = V.base.toNat + (V.orgY + y) * V.stride →
    (∀ k < V.stride.natAbs, m.unbacked (word (row + k)).toNat = false) →
    (∀ k < V.stride.natAbs, ∀ j < 8,
      ((padRow V m y Xe).read (word (row + k))).getLsbD (7 - j) =
        (decide (((8 * k + j : Nat) : Int) < Xe) && (m.read (word (row + k))).getLsbD (7 - j))) ∧
    ∀ a : Word, m.unbacked a.toNat = false → (∀ k < V.stride.natAbs, a ≠ word (row + k)) →
      (padRow V m y Xe).read a = m.read a

/-! ### The blitter -/

/-- 44_blit R181: SOLIDFILL's null path, empty rectangle, BOUNDS, and its pixels in raster order. -/
def Obligations.SolidfillVisitsItsRectangle : Prop :=
  (∀ c : BitVec 4, decode (0x00000050 ||| ropField c) = .ok (.solidfill c false)) ∧
  decode 0x00001050 = .ok (.solidfill 0 true) ∧ ropWithMsrcIsReserved 0x50 ∧
  ∀ (c : BitVec 4) (msrc : Bool) (s : State),
    (s.regs.dst.view = none → exec (.solidfill c msrc) s = .next (s.nullEnd s.res)) ∧
    ∀ (V : View) (x0 y0 : Int) (w h : Nat), s.regs.dst.view = some V →
      x0 = s.regs.rectX.toInt → y0 = s.regs.rectY.toInt → w = s.regs.rectW.toNat → h = s.regs.rectH.toNat →
      (w = 0 ∨ h = 0 → exec (.solidfill c msrc) s = .next (s.complete s.res s.mem)) ∧
      (w ≠ 0 → h ≠ 0 → ¬(0 ≤ x0 ∧ 0 ≤ y0 ∧ x0 + w ≤ V.clipW ∧ y0 + h ≤ V.clipH) →
        exec (.solidfill c msrc) s = .next (s.raise .bounds)) ∧
      (w ≠ 0 → h ≠ 0 → 0 ≤ x0 ∧ 0 ≤ y0 ∧ x0 + w ≤ V.clipW ∧ y0 + h ≤ V.clipH →
        exec (.solidfill c msrc) s = .next (s.complete s.res
          ((rectPoints x0 y0 w h).foldl
            (applyAt V (solidPair s.regs c msrc).1 (solidPair s.regs c msrc).2) s.mem)))

/-- 44_blit R181, R182, 20_memory R69, R70: when no two pixels of the rectangle share memory, each ends as its old value
under the pair, cut to the depth; a pixel that shares no memory with them, also one in an edge byte, and every byte that
holds none of them, stay. -/
def Obligations.SolidfillUpdatesEachPixelOnce : Prop :=
  ∀ (c : BitVec 4) (msrc : Bool) (s : State) (V : View) (x0 y0 : Int) (w h : Nat), s.mem.wf = true →
    s.regs.dst.view = some V → x0 = s.regs.rectX.toInt → y0 = s.regs.rectY.toInt →
    w = s.regs.rectW.toNat → h = s.regs.rectH.toNat → V.rectInside x0 y0 w h = true →
    Apart V (rectPoints x0 y0 w h) → s.mem.backs (pixelBytes V (rectPoints x0 y0 w h)) →
    ∃ t, exec (.solidfill c msrc) s = .next t ∧
      (∀ p ∈ rectPoints x0 y0 w h, getPix V t.mem p.1 p.2 =
        ((getPix V s.mem p.1 p.2 &&& (solidPair s.regs c msrc).1) ^^^ (solidPair s.regs c msrc).2) &&&
          ones V.depth.bits) ∧
      (∀ (W : View) (q : Int × Int), s.mem.backs (pixBytes W q.1 q.2) →
        ApartFrom V W (rectPoints x0 y0 w h) [q] → getPix W t.mem q.1 q.2 = getPix W s.mem q.1 q.2) ∧
      (∀ a : Word, s.mem.unbacked a.toNat = false → a ∉ pixelBytes V (rectPoints x0 y0 w h) →
        t.mem.read a = s.mem.read a)

/-- 42_rop R153: the copy code's pair, that a copy fill is idempotent, and that the code D leaves every pixel as it was;
whether or not pixels of the surface share memory. -/
def Obligations.CopyFillIsIdempotent : Prop :=
  (∀ colour d : Word, ropMask 12 colour = { and := 0, xor := colour } ∧ applyPair d 0 colour = colour ∧
    ropMask 10 colour = { and := 0xFFFFFFFF, xor := 0 }) ∧
  ∀ (s t : State) (V : View), s.mem.wf = true → s.regs.dst.view = some V →
    s.mem.backs (pixelBytes V (rectPoints s.regs.rectX.toInt s.regs.rectY.toInt s.regs.rectW.toNat
      s.regs.rectH.toNat)) →
    (exec (.solidfill 12 false) s = .next t → ∃ u, exec (.solidfill 12 false) t = .next u ∧ u.mem = t.mem) ∧
    (exec (.solidfill 10 false) s = .next t → t.mem = s.mem)

/-- 44_blit R184: SOLIDLINE's null path, zero length, BOUNDS over the whole walk, and its pixels in the walk's order. -/
def Obligations.SolidlineFollowsItsWalk : Prop :=
  (∀ (c : BitVec 4) (msrc xmaj xneg yneg : Bool), (msrc = true → c = 0) →
    decode (0x00000051 ||| ropField c ||| flag msrc 12 ||| flag xmaj 27 ||| flag xneg 28 ||| flag yneg 29) =
      .ok (.solidline c msrc xmaj xneg yneg)) ∧
  ropWithMsrcIsReserved 0x51 ∧
  ∀ (c : BitVec 4) (msrc xmaj xneg yneg : Bool) (s : State),
    (s.regs.dst.view = none → exec (.solidline c msrc xmaj xneg yneg) s = .next (s.nullEnd s.res)) ∧
    ∀ (V : View) (n : Nat) (pts : List (Int × Int)), s.regs.dst.view = some V → n = s.regs.length.toNat →
      pts = lineWalk s.regs.errAdd1 s.regs.errAdd2 xmaj (if xneg then -1 else 1) (if yneg then -1 else 1) n
        s.regs.rectX.toInt s.regs.rectY.toInt s.regs.errStart →
      (n = 0 → exec (.solidline c msrc xmaj xneg yneg) s = .next (s.complete s.res s.mem)) ∧
      (n ≠ 0 → (∃ p ∈ pts, ¬(0 ≤ p.1 ∧ p.1 < V.clipW ∧ 0 ≤ p.2 ∧ p.2 < V.clipH)) →
        exec (.solidline c msrc xmaj xneg yneg) s = .next (s.raise .bounds)) ∧
      (n ≠ 0 → (∀ p ∈ pts, 0 ≤ p.1 ∧ p.1 < V.clipW ∧ 0 ≤ p.2 ∧ p.2 < V.clipH) →
        exec (.solidline c msrc xmaj xneg yneg) s = .next (s.complete s.res
          (pts.foldl (applyAt V (solidPair s.regs c msrc).1 (solidPair s.regs c msrc).2) s.mem)))

/-- 44_blit R183, R184: the walk in closed form. Pixel `k` is `k` major steps and as many minor steps from the start as
error tests have passed; no pixel comes twice. -/
def Obligations.LineWalkInClosedForm : Prop :=
  ∀ (add1 add2 e0 : Word) (xmaj xneg yneg : Bool) (n : Nat) (x0 y0 sx sy : Int),
    sx = (if xneg then -1 else 1) → sy = (if yneg then -1 else 1) →
    lineWalk add1 add2 xmaj sx sy n x0 y0 e0 = ((List.range n).map fun (k : Nat) =>
      if xmaj then (x0 + sx * k, y0 + sy * passes e0 add1 add2 k)
      else (x0 + sx * passes e0 add1 add2 k, y0 + sy * k)) ∧
    (lineWalk add1 add2 xmaj sx sy n x0 y0 e0).Nodup

/-- 44_blit R185: with the classical constants the walk has `dx + 1` pixels, takes exactly `dy` minor steps and ends on
the far endpoint, each pixel one major step from the last. -/
def Obligations.BresenhamLineReachesItsEnd : Prop :=
  ∀ (xmaj xneg yneg : Bool) (dx dy : Nat) (x0 y0 sx sy : Int) (pts : List (Int × Int)), dy ≤ dx → dx < 2 ^ 29 →
    sx = (if xneg then -1 else 1) → sy = (if yneg then -1 else 1) →
    pts = lineWalk (word (2 * ((dy : Int) - dx))) (word (2 * dy)) xmaj sx sy (dx + 1) x0 y0
      (word (2 * (dy : Int) - dx)) →
    pts.length = dx + 1 ∧
    passes (word (2 * (dy : Int) - dx)) (word (2 * ((dy : Int) - dx))) (word (2 * dy)) dx = dy ∧
    pts[0]? = some (x0, y0) ∧
    pts[dx]? = some (if xmaj then (x0 + sx * dx, y0 + sy * dy) else (x0 + sx * dy, y0 + sy * dx)) ∧
    ∀ (k : Nat) (p q : Int × Int), pts[k]? = some p → pts[k + 1]? = some q →
      if xmaj then q.1 = p.1 + sx ∧ (q.2 = p.2 ∨ q.2 = p.2 + sy)
      else q.2 = p.2 + sy ∧ (q.1 = p.1 ∨ q.1 = p.1 + sx)

/-- 44_blit R186, R188: COPYRECT's null path, empty rectangle, BOUNDS, and its pixels in the order REVX and REVY pick. -/
def Obligations.CopyrectCopiesInTheChosenOrder : Prop :=
  (∀ (c : BitVec 4) (revx revy : Bool),
    decode (0x00000052 ||| ropField c ||| flag revx 13 ||| flag revy 14) = .ok (.copyrect c revx revy)) ∧
  ∀ (c : BitVec 4) (revx revy : Bool) (s : State),
    (formatNull s.regs.dst.format ∨ formatNull s.regs.src.format ∨ s.regs.src.format ≠ s.regs.dst.format →
      exec (.copyrect c revx revy) s = .next (s.nullEnd s.res)) ∧
    ∀ (D S : View) (x0 y0 sx0 sy0 : Int) (w h : Nat) (rows cols : List Nat),
      s.regs.dst.view = some D → s.regs.src.view = some S → S.depth = D.depth →
      x0 = s.regs.rectX.toInt → y0 = s.regs.rectY.toInt → sx0 = s.regs.srcX.toInt → sy0 = s.regs.srcY.toInt →
      w = s.regs.rectW.toNat → h = s.regs.rectH.toNat →
      rows = (if revy then (List.range h).reverse else List.range h) →
      cols = (if revx then (List.range w).reverse else List.range w) →
      (w = 0 ∨ h = 0 → exec (.copyrect c revx revy) s = .next (s.complete s.res s.mem)) ∧
      (w ≠ 0 → h ≠ 0 → ¬(D.rectInside x0 y0 w h = true ∧ S.rectInside sx0 sy0 w h = true) →
        exec (.copyrect c revx revy) s = .next (s.raise .bounds)) ∧
      (w ≠ 0 → h ≠ 0 → D.rectInside x0 y0 w h = true → S.rectInside sx0 sy0 w h = true →
        exec (.copyrect c revx revy) s = .next (s.complete s.res (rows.foldl (fun m (r : Nat) =>
          cols.foldl (fun m' (k : Nat) => putPix D m' (x0 + k) (y0 + r)
            (ropSrc c (getPix S m' (sx0 + k) (sy0 + r)) (getPix D m' (x0 + k) (y0 + r)))) m) s.mem)))

/-- 44_blit R187: with the order it tells the host to pick, a copy inside one surface gives what reading the whole source
first would give. Its stride condition is taken by its purpose, which it names: two different absolute pixels of the two
rectangles share no memory. -/
def Obligations.OverlappingCopyReadsTheSourceFirst : Prop :=
  ∀ (c : BitVec 4) (revx revy : Bool) (s : State) (D S : View) (x0 y0 sx0 sy0 : Int) (w h : Nat) (dx dy : Int),
    s.mem.wf = true → s.regs.dst.view = some D → s.regs.src.view = some S →
    S.base = D.base → S.stride = D.stride → S.depth = D.depth →
    x0 = s.regs.rectX.toInt → y0 = s.regs.rectY.toInt → sx0 = s.regs.srcX.toInt → sy0 = s.regs.srcY.toInt →
    w = s.regs.rectW.toNat → h = s.regs.rectH.toNat →
    D.rectInside x0 y0 w h = true → S.rectInside sx0 sy0 w h = true →
    dx = (D.orgX + x0) - (S.orgX + sx0) → dy = (D.orgY + y0) - (S.orgY + sy0) →
    (0 < dy → revy = true) → (dy < 0 → revy = false) → (dy = 0 → revx = decide (0 < dx)) →
    Apart D (rectPoints x0 y0 w h ++ rectPoints (x0 - dx) (y0 - dy) w h) →
    s.mem.backs (pixelBytes D (rectPoints x0 y0 w h)) → s.mem.backs (pixelBytes S (rectPoints sx0 sy0 w h)) →
    ∃ t, exec (.copyrect c revx revy) s = .next t ∧
      ∀ k r : Nat, k < w → r < h →
        getPix D t.mem (x0 + k) (y0 + r) =
          ropSrc c (getPix S s.mem (sx0 + k) (sy0 + r)) (getPix D s.mem (x0 + k) (y0 + r)) &&& ones D.depth.bits

/-! ### Pattern and stencil -/

/-- 46_pattern R232, R231: BRUSHMASK's null path, and the 64 pixels of the two images in order. -/
def Obligations.BrushmaskBuildsTheImages : Prop :=
  (∀ c : BitVec 4, decode (0x00000060 ||| ropField c) = .ok (.brushmask c)) ∧
  ∀ (c : BitVec 4) (s : State),
    (s.regs.dst.view = none → exec (.brushmask c) s = .next (s.nullEnd s.res)) ∧
    ∀ (V A X : View), s.regs.dst.view = some V →
      A = { base := s.regs.brAndBase, stride := s.regs.brStride.toInt, depth := V.depth,
            orgX := 0, orgY := 0, clipW := 8, clipH := 8 } →
      X = { A with base := s.regs.brXorBase } →
      exec (.brushmask c) s = .next (s.complete s.res ((List.range 8).foldl (fun m (y : Nat) =>
        (List.range 8).foldl (fun m' (x : Nat) =>
          if (if y < 4 then s.regs.hatchLo.extractLsb' (8 * y) 8
              else s.regs.hatchHi.extractLsb' (8 * (y - 4)) 8).getLsbD (7 - x) then
            putPix X (putPix A m' x y (ropMask c s.regs.fgPixel).and) x y (ropMask c s.regs.fgPixel).xor
          else putPix X (putPix A m' x y (ropMask c s.regs.bgPixel).and) x y (ropMask c s.regs.bgPixel).xor) m)
        s.mem))

/-- 46_pattern R233, R231: PATFILL's null path, PARAM, empty rectangle, BOUNDS, and its pixels in raster order. -/
def Obligations.PatfillTilesTheBrush : Prop :=
  decode 0x00000061 = .ok .patfill ∧
  ∀ s : State,
    (s.regs.dst.view = none → exec .patfill s = .next (s.nullEnd s.res)) ∧
    ∀ (V A X : View) (x0 y0 : Int) (w h bw bh : Nat), s.regs.dst.view = some V →
      x0 = s.regs.rectX.toInt → y0 = s.regs.rectY.toInt → w = s.regs.rectW.toNat → h = s.regs.rectH.toNat →
      bw = s.regs.brW.toNat → bh = s.regs.brH.toNat →
      A = { base := s.regs.brAndBase, stride := s.regs.brStride.toInt, depth := V.depth,
            orgX := 0, orgY := 0, clipW := bw, clipH := bh } →
      X = { A with base := s.regs.brXorBase } →
      (bw = 0 ∨ bh = 0 → exec .patfill s = .next (s.raise .param)) ∧
      (bw ≠ 0 → bh ≠ 0 → w = 0 ∨ h = 0 → exec .patfill s = .next (s.complete s.res s.mem)) ∧
      (bw ≠ 0 → bh ≠ 0 → w ≠ 0 → h ≠ 0 → V.rectInside x0 y0 w h = false →
        exec .patfill s = .next (s.raise .bounds)) ∧
      (bw ≠ 0 → bh ≠ 0 → w ≠ 0 → h ≠ 0 → V.rectInside x0 y0 w h = true →
        exec .patfill s = .next (s.complete s.res ((rectPoints x0 y0 w h).foldl (fun m p =>
          applyAt V
            (getPix A m ((p.1 - s.regs.brAnchX.toInt) % bw) ((p.2 - s.regs.brAnchY.toInt) % bh))
            (getPix X m ((p.1 - s.regs.brAnchX.toInt) % bw) ((p.2 - s.regs.brAnchY.toInt) % bh)) m p) s.mem)))

/-- 46_pattern R234: filling the two parts of a split rectangle, in either order, leaves the bytes of one fill of the
whole, when no brush byte is a byte of the rectangle. That the rectangle's pixels share no memory with one another is the
premise of the rule's reason, which it does not spell out. -/
def Obligations.SplitPatternFillIsSeamless : Prop :=
  ∀ (s t : State) (V : View) (R : Rect) (xb yb wa ha wb hb : Word), s.mem.wf = true →
    s.regs.dst.view = some V → R = s.regs.dstRect V → R.inside = true → Apart V (rectPoints R.x0 R.y0 R.w R.h) →
    s.mem.backs R.bytes → s.mem.backs (s.regs.brushBytes R) → (∀ a ∈ s.regs.brushBytes R, a ∉ R.bytes) →
    (ha = s.regs.rectH ∧ hb = s.regs.rectH ∧ yb = s.regs.rectY ∧ xb.toInt = R.x0 + wa.toNat ∧
        wa.toNat + wb.toNat = R.w ∨
      wa = s.regs.rectW ∧ wb = s.regs.rectW ∧ xb = s.regs.rectX ∧ yb.toInt = R.y0 + ha.toNat ∧
        ha.toNat + hb.toNat = R.h) →
    exec .patfill s = .next t →
    ∃ t1 t2 u1 u2,
      exec .patfill (withRect s s.regs.rectX s.regs.rectY wa ha) = .next t1 ∧
      exec .patfill (withRect t1 xb yb wb hb) = .next t2 ∧ t2.mem = t.mem ∧
      exec .patfill (withRect s xb yb wb hb) = .next u1 ∧
      exec .patfill (withRect u1 s.regs.rectX s.regs.rectY wa ha) = .next u2 ∧ u2.mem = t.mem

/-- 46_pattern R235: MASKFILL's null path, empty rectangle, BOUNDS, and its pixels in raster order. -/
def Obligations.MaskfillSelectsByTheStencil : Prop :=
  (∀ c : BitVec 4, decode (0x00000062 ||| ropField c) = .ok (.maskfill c)) ∧
  ∀ (c : BitVec 4) (s : State),
    (formatNull s.regs.dst.format ∨ s.regs.src.format ≠ 1 → exec (.maskfill c) s = .next (s.nullEnd s.res)) ∧
    ∀ (D S : View) (x0 y0 sx0 sy0 : Int) (w h : Nat),
      s.regs.dst.view = some D → s.regs.src.view = some S → S.depth = .bpp1 →
      x0 = s.regs.rectX.toInt → y0 = s.regs.rectY.toInt → sx0 = s.regs.srcX.toInt → sy0 = s.regs.srcY.toInt →
      w = s.regs.rectW.toNat → h = s.regs.rectH.toNat →
      (w = 0 ∨ h = 0 → exec (.maskfill c) s = .next (s.complete s.res s.mem)) ∧
      (w ≠ 0 → h ≠ 0 → ¬(D.rectInside x0 y0 w h = true ∧ S.rectInside sx0 sy0 w h = true) →
        exec (.maskfill c) s = .next (s.raise .bounds)) ∧
      (w ≠ 0 → h ≠ 0 → D.rectInside x0 y0 w h = true → S.rectInside sx0 sy0 w h = true →
        exec (.maskfill c) s = .next (s.complete s.res ((rasterOffsets w h).foldl (fun m k =>
          putPix D m (x0 + k.1) (y0 + k.2) (ropSrc c
            (if getPix S m (sx0 + k.1) (sy0 + k.2) = 1 then s.regs.fgPixel else s.regs.bgPixel)
            (getPix D m (x0 + k.1) (y0 + k.2)))) s.mem)))

/-! ### Row scaling -/

/-- 47_scan R250, R252, R253: the two walks in closed form, from the number of error tests passed. -/
def Obligations.ScanWalksInClosedForm : Prop :=
  ∀ (r : Regs) (sneg dneg : Bool) (n : Nat) (si di : Int), n = r.length.toNat →
    si = (if sneg then -1 else 1) → di = (if dneg then -1 else 1) →
    r.stretchSteps sneg dneg = ((List.range n).map fun (k : Nat) =>
      { sx := r.srcX.toInt + si * passes r.errStart r.errAdd1 r.errAdd2 k, dx := r.rectX.toInt + di * k,
        new := true }) ∧
    r.shrinkSteps sneg dneg = ((List.range n).map fun (k : Nat) =>
      { sx := r.srcX.toInt + si * k, dx := r.rectX.toInt + di * passes r.errStart r.errAdd1 r.errAdd2 k,
        new := k = 0 || decide (0 < (errAt r.errStart r.errAdd1 r.errAdd2 (k - 1)).toInt) })

/-- 47_scan R252: STRETCHROW's null path, zero length, BOUNDS over the whole walk, and its pixels in the walk's order. -/
def Obligations.StretchrowRepeatsPixels : Prop :=
  (∀ (mode : ScanMode) (keep sneg dneg : Bool),
    decode (0x00000070 ||| smodeField mode ||| flag keep 24 ||| flag sneg 25 ||| flag dneg 26) =
      .ok (.stretchrow mode keep sneg dneg)) ∧
  otherFieldsAreParam 0x70 0x07C000FF 22 2 [0, 1, 2] ∧
  ∀ (mode : ScanMode) (keep sneg dneg : Bool) (s : State),
    (formatNull s.regs.dst.format ∨ formatNull s.regs.src.format ∨ s.regs.src.format ≠ s.regs.dst.format →
      exec (.stretchrow mode keep sneg dneg) s = .next (s.nullEnd s.res)) ∧
    ∀ (D S : View) (sy dy : Int) (walk : List ScanStep), s.regs.dst.view = some D → s.regs.src.view = some S →
      S.depth = D.depth → sy = s.regs.srcY.toInt → dy = s.regs.rectY.toInt → walk = s.regs.stretchSteps sneg dneg →
      (s.regs.length = 0 → exec (.stretchrow mode keep sneg dneg) s = .next (s.complete s.res s.mem)) ∧
      (s.regs.length ≠ 0 → (∃ k ∈ walk, ¬(S.inside k.sx sy = true ∧ D.inside k.dx dy = true)) →
        exec (.stretchrow mode keep sneg dneg) s = .next (s.raise .bounds)) ∧
      (s.regs.length ≠ 0 → (∀ k ∈ walk, S.inside k.sx sy = true ∧ D.inside k.dx dy = true) →
        exec (.stretchrow mode keep sneg dneg) s = .next (s.complete s.res (walk.foldl (fun m k =>
          putPix D m k.dx dy (match mode, keep with
            | .or, true => getPix D m k.dx dy ||| getPix S m k.sx sy
            | .and, true => getPix D m k.dx dy &&& getPix S m k.sx sy
            | _, _ => getPix S m k.sx sy)) s.mem)))

/-- 47_scan R253, R251: SHRINKROW's null path, zero length, BOUNDS over the whole walk, and its pixels in the walk's
order. -/
def Obligations.ShrinkrowCombinesPixels : Prop :=
  (∀ (mode : ScanMode) (keep sneg dneg : Bool),
    decode (0x00000071 ||| smodeField mode ||| flag keep 24 ||| flag sneg 25 ||| flag dneg 26) =
      .ok (.shrinkrow mode keep sneg dneg)) ∧
  otherFieldsAreParam 0x71 0x07C000FF 22 2 [0, 1, 2] ∧
  ∀ (mode : ScanMode) (keep sneg dneg : Bool) (s : State),
    (formatNull s.regs.dst.format ∨ formatNull s.regs.src.format ∨ s.regs.src.format ≠ s.regs.dst.format →
      exec (.shrinkrow mode keep sneg dneg) s = .next (s.nullEnd s.res)) ∧
    ∀ (D S : View) (sy dy : Int) (walk : List ScanStep), s.regs.dst.view = some D → s.regs.src.view = some S →
      S.depth = D.depth → sy = s.regs.srcY.toInt → dy = s.regs.rectY.toInt → walk = s.regs.shrinkSteps sneg dneg →
      (s.regs.length = 0 → exec (.shrinkrow mode keep sneg dneg) s = .next (s.complete s.res s.mem)) ∧
      (s.regs.length ≠ 0 → (∃ k ∈ walk, ¬(S.inside k.sx sy = true ∧ D.inside k.dx dy = true)) →
        exec (.shrinkrow mode keep sneg dneg) s = .next (s.raise .bounds)) ∧
      (s.regs.length ≠ 0 → (∀ k ∈ walk, S.inside k.sx sy = true ∧ D.inside k.dx dy = true) →
        exec (.shrinkrow mode keep sneg dneg) s = .next (s.complete s.res (walk.foldl (fun m k =>
          putPix D m k.dx dy (match mode with
            | .replace => getPix S m k.sx sy
            | .or => (if k.new && !keep then 0 else getPix D m k.dx dy) ||| getPix S m k.sx sy
            | .and =>
              (if k.new && !keep then ones D.depth.bits else getPix D m k.dx dy) &&& getPix S m k.sx sy))
          s.mem)))

/-- 47_scan R254: with the endpoint constants a stretch writes every destination pixel once and reads every source pixel
in order; a shrink reads every source pixel once and writes every destination pixel in order, starting a run exactly
where the destination moves. -/
def Obligations.ScanConstantsCoverBothRows : Prop :=
  ∀ (ls ld dx dy : Nat) (x0 y0 : Int) (e0 add1 add2 : Word), 1 ≤ ls → 1 ≤ ld → dx < 2 ^ 29 →
    e0 = word (2 * (dy : Int) - dx) → add1 = word (2 * ((dy : Int) - dx)) → add2 = word (2 * dy) →
    (∀ walk, ls ≤ ld → dx = ld - 1 → dy = ls - 1 → walk = stretchWalk add1 add2 1 1 ld x0 y0 e0 →
      walk.map ScanStep.dx = ((List.range ld).map fun (k : Nat) => y0 + k) ∧
      (walk.map ScanStep.sx).Pairwise (· ≤ ·) ∧
      (∀ j : Int, j ∈ walk.map ScanStep.sx ↔ x0 ≤ j ∧ j < x0 + ls)) ∧
    (∀ walk, ld ≤ ls → dx = ls - 1 → dy = ld - 1 → walk = shrinkWalk add1 add2 1 1 ls x0 y0 true e0 →
      walk.map ScanStep.sx = ((List.range ls).map fun (k : Nat) => x0 + k) ∧
      (walk.map ScanStep.dx).Pairwise (· ≤ ·) ∧
      (∀ j : Int, j ∈ walk.map ScanStep.dx ↔ y0 ≤ j ∧ j < y0 + ld) ∧
      (walk.filter ScanStep.new).map ScanStep.dx = ((List.range ld).map fun (k : Nat) => y0 + k))

/-! ### Registers, the host and the interrupt -/

/-- 10_state R31: a CMD write to an idle block is accepted; to a busy one it is dropped and sets OVR. CMD reads as the
word of the last acceptance, and holds NOP's word at reset. -/
def Obligations.CmdWriteStartsACommand : Prop :=
  (∀ s : State, s.readOffset 0x00C = s.cmd) ∧ State.reset.cmd = encode .nop ∧
  ∀ (s : State) (w : Word) (rest : List HostEvent), s.host = .mmioWrite 32 0x00C w :: rest →
    (s.status.busy = false → step s = .next { s with
      host := rest, cmd := w,
      status := { busy := true, done := false, err := false, ovr := s.status.ovr, nullop := false, errcode := 0 } }) ∧
    (s.status.busy = true → step s = .next { s with host := rest, status := { s.status with ovr := true } })

/-- 10_state R37, R29: a busy block drops a write to CMD or to a register that commands read, and sets OVR. Busy or not, a
write to ID, to RES0 to RES3 or to a reserved offset is ignored, and CTRL without SRST and STATUS take their writes. -/
def Obligations.BusyBlockDropsWrites : Prop :=
  ∀ (s : State) (off : Nat) (v : Word) (rest : List HostEvent), s.host = .mmioWrite 32 off v :: rest →
    wordOffset off →
    (s.status.busy = true → dropped off → step s = .next { s with host := rest, status := { s.status with ovr := true } }) ∧
    (off = 0x000 ∨ 0x020 ≤ off ∧ off ≤ 0x02C ∨ reserved off → step s = .next (taken s rest)) ∧
    (off = 0x004 → v.getLsbD 1 = false → step s = .next { s with host := rest, irqEn := v.getLsbD 0 }) ∧
    (off = 0x008 → step s = .next { s with host := rest, status := s.status.writeOneToClear v })

/-- 10_state R36: a reserved offset reads 0, and a write to it is ignored and never sets OVR. -/
def Obligations.ReservedOffsetsReadZero : Prop :=
  ∀ (s : State) (off : Nat) (rest : List HostEvent), wordOffset off → reserved off →
    (s.host = .mmioRead 32 off :: rest → step s = .next { s with host := rest, rdata := 0 }) ∧
    (∀ v, s.host = .mmioWrite 32 off v :: rest → step s = .next (taken s rest))

/-- 10_state R22, R43, R46, 70_reset R316: in an idle block a write to a register that commands read changes that register
alone, as the printed table has its offset. It then reads back the stored bits of what was written, through a step that
changes nothing else, and no other offset reads differently. The table has every offset that a busy block drops but
CMD's. -/
def Obligations.RegisterReadsBackAsWritten : Prop :=
  (∀ off : Nat, off ∈ registerTable.map Prod.fst ↔ wordOffset off ∧ dropped off ∧ off ≠ 0x00C) ∧
  ∀ (s : State) (off : Nat) (store : Regs → Word → Regs) (v : Word) (rest : List HostEvent),
    (off, store) ∈ registerTable → s.host = .mmioWrite 32 off v :: rest → s.status.busy = false →
    ∃ t, step s = .next t ∧ t = { s with host := rest, regs := store s.regs v } ∧
      t.readOffset off = v &&& storedBits off ∧
      (∀ rest', rest = .mmioRead 32 off :: rest' →
        step t = .next { t with host := rest', rdata := v &&& storedBits off }) ∧
      ∀ off', off' ≠ off → t.readOffset off' = s.readOffset off'

/-- 10_state R20, R21, R24, R25, R33, R55, 60_exceptions R282: a host read answers what its offset holds and changes nothing
else; ID, CTRL, STATUS and RES0 to RES3 as they read; the interrupt output as a function of CTRL and STATUS; and a host
write of STATUS. CMD and the registers commands read are in `CmdWriteStartsACommand` and `RegisterReadsBackAsWritten`. -/
def Obligations.HostReadsAndStatusClears : Prop :=
  ∀ s : State,
    (∀ (off : Nat) (rest : List HostEvent), wordOffset off → s.host = .mmioRead 32 off :: rest →
      step s = .next { s with host := rest, rdata := s.readOffset off }) ∧
    s.readOffset 0x000 = Config.implId ∧
    s.readOffset 0x020 = s.res.res0 ∧ s.readOffset 0x024 = s.res.res1 ∧
    s.readOffset 0x028 = s.res.res2 ∧ s.readOffset 0x02C = s.res.res3 ∧
    (s.readOffset 0x004 = if s.irqEn then 1 else 0) ∧
    (∀ k < 32, (s.readOffset 0x008).getLsbD k =
      if k = 0 then s.status.busy else if k = 1 then s.status.done else if k = 2 then s.status.err
      else if k = 3 then s.status.ovr else if k = 4 then s.status.nullop
      else decide (8 ≤ k) && decide (k ≤ 11) && s.status.errcode.getLsbD (k - 8)) ∧
    s.irq = ((s.readOffset 0x004).getLsbD 0 && (s.readOffset 0x008).getLsbD 1) ∧
    ∀ (v : Word) (rest : List HostEvent), s.host = .mmioWrite 32 0x008 v :: rest →
      step s = .next { s with host := rest, status :=
        { busy := s.status.busy
          done := s.status.done && !v.getLsbD 1
          err := s.status.err && !v.getLsbD 2
          ovr := s.status.ovr && !v.getLsbD 3
          nullop := s.status.nullop && !v.getLsbD 4
          errcode := if v.getLsbD 2 then 0 else s.status.errcode } }

/-- 10_state R54: what every offset reads after reset, and the interrupt output. ID reads the parameter `IMPL_ID`
(10_state R21). -/
def Obligations.ResetValues : Prop :=
  (∀ off, State.reset.readOffset off = if off = 0 then Config.implId else 0) ∧ State.reset.irq = false ∧
    State.reset.status.busy = false ∧ Machine.State.reset.cmd = encode .nop

/-- 70_reset R300, R301: a soft and a hardware reset put every register to its reset value and leave every byte that the
command in progress does not write; an idle block's memory stays as it is. What the bytes of an abandoned command's
write set hold is not stated (93 I2, log entry 8). -/
def Obligations.ResetFromAnyState : Prop :=
  ∀ (s : State) (rest : List HostEvent),
    (s.host = .hardReset :: rest ∨ ∃ v : Word, v.getLsbD 1 = true ∧ s.host = .mmioWrite 32 0x004 v :: rest) →
    ∃ t, step s = .next t ∧ t.irqEn = false ∧ t.status = State.reset.status ∧ t.cmd = 0 ∧
      t.regs = State.reset.regs ∧ t.res = State.reset.res ∧ t.irq = false ∧ t.host = rest ∧
      (s.status.busy = false → t.mem = s.mem) ∧
      (s.mem.backs (wordFootprint s.cmd s.regs).writes →
        ∀ a : Word, s.mem.unbacked a.toNat = false → a ∉ (wordFootprint s.cmd s.regs).writes →
          t.mem.read a = s.mem.read a)

/-- 10_state R20, 93 I3, 60_exceptions R283: a step never faults, and is refused exactly when the next host access is an
MMIO access that is not 32 bits wide, or whose offset is no multiple of 4 or lies outside the block. That an offset
outside the block is refused is the model's choice (log entry 10). -/
def Obligations.OnlyUndefinedAccessesAreRefused : Prop :=
  ∀ s : State,
    (IsNext (step s) ∨ ∃ r, step s = .refused r) ∧
    ((∃ r, step s = .refused r) ↔
      ∃ (width off : Nat) (rest : List HostEvent), ¬(width = 32 ∧ wordOffset off) ∧
        (s.host = .mmioRead width off :: rest ∨ ∃ v, s.host = .mmioWrite width off v :: rest))

/-- 20_memory R77, R79, 60_exceptions R290: what an idle block's host writes to a backed byte of memory, it reads back;
every other backed byte stays. -/
def Obligations.HostMemoryReadsBack : Prop :=
  ∀ (s : State) (a : Word) (v : Byte) (rest : List HostEvent), s.mem.wf = true →
    s.mem.unbacked a.toNat = false → s.status.busy = false → s.host = .memWrite a v :: .memRead a :: rest →
    ∃ t, step s = .next t ∧ step t = .next { t with host := rest, rdata := v.setWidth 32 } ∧
      (∀ b : Word, s.mem.unbacked b.toNat = false → b ≠ a → t.mem.read b = s.mem.read b) ∧
      t = { s with host := .memRead a :: rest, mem := t.mem }

/-- 20_memory R78, 93 I1 (log entry 7): a command that the host raced still completes with its registers kept, and
every backed byte outside its write set is as the host left it. -/
def Obligations.RacedCommandStillCompletes : Prop :=
  ∀ s : State, s.host = [] → s.status.busy = true → s.raced ≠ [] →
    s.mem.backs (wordFootprint s.cmd s.regs).writes →
    ∃ t, step s = .next t ∧ t.status.busy = false ∧ t.status.done = true ∧ t.regs = s.regs ∧ t.cmd = s.cmd ∧
      t.raced = [] ∧
      ∀ a : Word, s.mem.unbacked a.toNat = false → a ∉ (wordFootprint s.cmd s.regs).writes →
        t.mem.read a = s.mem.read a

/-! ### The whole machine -/

/-- 20_memory R70: a command changes no backed byte but those its footprint says it writes, the bytes of its pixels and
DCONV1's padding, when memory stands behind them all; and only STATUS, the results and memory change. -/
def Obligations.CommandsWriteOnlyTheirFootprint : Prop :=
  ∀ (i : Instr) (s t : State), exec i s = .next t →
    t.irqEn = s.irqEn ∧ t.cmd = s.cmd ∧ t.regs = s.regs ∧ t.host = s.host ∧ t.rdata = s.rdata ∧
    t.raced = s.raced ∧ t.fresh = s.fresh ∧ t.mem.holes = s.mem.holes ∧
    (s.mem.backs (footprint i s.regs).writes →
      ∀ a : Word, s.mem.unbacked a.toNat = false → a ∉ (footprint i s.regs).writes →
        t.mem.read a = s.mem.read a)

/-- 10_state R26, R37: BUSY rises only by the acceptance of a CMD write, and while it stays up CMD and every register a
command reads keep their values. -/
def Obligations.BusyKeepsTheCommandsRegisters : Prop :=
  ∀ s t : State, step s = .next t →
    (s.status.busy = false → t.status.busy = true →
      ∃ w rest, s.host = .mmioWrite 32 0x00C w :: rest ∧ t.cmd = w ∧ t.regs = s.regs ∧ t.mem = s.mem) ∧
    (s.status.busy = true → t.status.busy = true → t.regs = s.regs ∧ t.cmd = s.cmd ∧ t.res = s.res)

/-- The machine's invariant at reset: memory in its canonical form, STATUS legal, no race. -/
def Obligations.InvariantHoldsAtReset : Prop := State.reset.inv = true

/-- 10_state R28, 60_exceptions R270, R278 and the canonical form of memory: every step keeps the machine's
invariant. -/
def Obligations.EveryStepKeepsTheInvariant : Prop :=
  ∀ s t : State, s.inv = true → step s = .next t → t.inv = true
end

