-- ==== Sys2Proof/Laws/Memory.lean ====
section
/-! SUPPORT. The laws of framebuffer memory: a byte reads back as written, a write leaves every other backed byte alone,
every operation keeps the canonical form, and equal contents are equal data. -/

namespace Sys2Proof.Machine

/-! ### Lists of cells -/

/-- The addresses rise strictly, as a pairwise statement. -/
theorem cellsRise_iff (l : List Host.Cell) : cellsRise l = true ↔ l.Pairwise (fun c d => c.1 < d.1) := by
  induction l with
  | nil => simp [cellsRise]
  | cons c t ih =>
    cases t with
    | nil => simp [cellsRise]
    | cons d t =>
      simp only [cellsRise, Bool.and_eq_true, decide_eq_true_eq, ih, List.pairwise_cons]
      constructor
      · rintro ⟨h, hd, ht⟩
        refine ⟨?_, hd, ht⟩
        intro e he
        rcases List.mem_cons.1 he with rfl | he
        · exact h
        · exact lt_trans h (hd e he)
      · rintro ⟨h, hd, ht⟩
        exact ⟨h d (by simp), hd, ht⟩

/-- An address below every cell reads as an unlisted one. -/
theorem cellGet_of_lt (l : List Host.Cell) (a : Nat) (h : ∀ c ∈ l, a < c.1) : cellGet l a = Config.unlistedByte := by
  induction l with
  | nil => rfl
  | cons c t ih =>
    have h0 : a < c.1 := h c (by simp)
    simp only [cellGet]
    rw [if_neg (by omega)]
    exact ih (fun d hd => h d (by simp [hd]))

theorem cellGet_cellCons_ne (a b : Nat) (v : Byte) (t : List Host.Cell) (h : b ≠ a) :
    cellGet (cellCons a v t) b = cellGet t b := by
  unfold cellCons
  split
  · rfl
  · simp [cellGet, h]

/-- A cell set leaves every other address alone. -/
theorem cellGet_cellSet_ne (l : List Host.Cell) (a b : Nat) (v : Byte) (h : b ≠ a) :
    cellGet (cellSet l a v) b = cellGet l b := by
  induction l with
  | nil => simp [cellSet, cellGet_cellCons_ne _ _ _ _ h]
  | cons c t ih =>
    obtain ⟨c, w⟩ := c
    simp only [cellSet]
    split
    · exact cellGet_cellCons_ne _ _ _ _ h
    · split
      · next h2 => subst h2; rw [cellGet_cellCons_ne _ _ _ _ h]; simp [cellGet, h]
      · simp only [cellGet]; rw [ih]

theorem cellGet_cellCons_self (a : Nat) (v : Byte) (t : List Host.Cell) (h : ∀ c ∈ t, a < c.1) :
    cellGet (cellCons a v t) a = v := by
  unfold cellCons
  split
  · next hv => rw [hv]; exact cellGet_of_lt t a h
  · simp [cellGet]

/-- A cell reads back as set. -/
theorem cellGet_cellSet_self (l : List Host.Cell) (a : Nat) (v : Byte) (hl : cellsRise l = true) :
    cellGet (cellSet l a v) a = v := by
  rw [cellsRise_iff] at hl
  induction l with
  | nil => exact cellGet_cellCons_self _ _ _ (by simp)
  | cons c t ih =>
    obtain ⟨c, w⟩ := c
    obtain ⟨hc, ht⟩ := List.pairwise_cons.1 hl
    simp only [cellSet]
    split
    · next h1 =>
      refine cellGet_cellCons_self _ _ _ ?_
      intro d hd
      rcases List.mem_cons.1 hd with rfl | hd
      · exact h1
      · exact lt_trans h1 (hc d hd)
    · split
      · next h2 => subst h2; exact cellGet_cellCons_self _ _ _ hc
      · next h1 h2 => simp only [cellGet]; rw [if_neg h2]; exact ih ht

/-- The cells of a list after a set. -/
theorem mem_cellSet (l : List Host.Cell) (a : Nat) (v : Byte) (c : Host.Cell) (h : c ∈ cellSet l a v) :
    (c = (a, v) ∧ v ≠ Config.unlistedByte) ∨ c ∈ l := by
  induction l with
  | nil =>
    simp only [cellSet, cellCons] at h
    split at h
    · simp at h
    · next hv => left; exact ⟨by simpa using h, hv⟩
  | cons d t ih =>
    obtain ⟨d, w⟩ := d
    simp only [cellSet, cellCons] at h
    split at h
    · split at h
      · exact .inr h
      · next hv =>
        rcases List.mem_cons.1 h with rfl | h
        · exact .inl ⟨rfl, hv⟩
        · exact .inr h
    · split at h
      · split at h
        · exact .inr (by simp [h])
        · next hv =>
          rcases List.mem_cons.1 h with rfl | h
          · exact .inl ⟨rfl, hv⟩
          · exact .inr (by simp [h])
      · rcases List.mem_cons.1 h with rfl | h
        · exact .inr (by simp)
        · rcases ih h with h | h
          · exact .inl h
          · exact .inr (by simp [h])

/-- A set keeps the addresses rising. -/
theorem cellsRise_cellSet (l : List Host.Cell) (a : Nat) (v : Byte) (hl : cellsRise l = true) :
    cellsRise (cellSet l a v) = true := by
  rw [cellsRise_iff] at hl ⊢
  induction l with
  | nil => simp only [cellSet, cellCons]; split <;> simp
  | cons c t ih =>
    obtain ⟨c, w⟩ := c
    obtain ⟨hc, ht⟩ := List.pairwise_cons.1 hl
    simp only [cellSet, cellCons]
    split
    · next h1 =>
      split
      · exact hl
      · refine List.pairwise_cons.2 ⟨?_, hl⟩
        intro d hd
        rcases List.mem_cons.1 hd with rfl | hd
        · exact h1
        · exact lt_trans h1 (hc d hd)
    · split
      · next h2 =>
        subst h2
        split
        · exact ht
        · exact List.pairwise_cons.2 ⟨hc, ht⟩
      · next h1 h2 =>
        refine List.pairwise_cons.2 ⟨?_, ih ht⟩
        intro d hd
        rcases mem_cellSet _ _ _ _ hd with ⟨rfl, -⟩ | hd
        · show c < a; omega
        · exact hc d hd

/-- Two canonical lists that read alike at every address are the same list. -/
theorem cells_eq_of_cellGet (l l' : List Host.Cell) (hl : cellsRise l = true) (hl' : cellsRise l' = true)
    (h0 : ∀ c ∈ l, c.2 ≠ Config.unlistedByte) (h0' : ∀ c ∈ l', c.2 ≠ Config.unlistedByte)
    (h : ∀ a, cellGet l a = cellGet l' a) : l = l' := by
  rw [cellsRise_iff] at hl hl'
  induction l generalizing l' with
  | nil =>
    cases l' with
    | nil => rfl
    | cons d t' =>
      have := h d.1
      simp only [cellGet] at this
      exact absurd this.symm (h0' d (by simp))
  | cons c t ih =>
    cases l' with
    | nil =>
      have := h c.1
      simp only [cellGet] at this
      exact absurd this (h0 c (by simp))
    | cons d t' =>
      obtain ⟨c, w⟩ := c
      obtain ⟨d, w'⟩ := d
      obtain ⟨hc, ht⟩ := List.pairwise_cons.1 hl
      obtain ⟨hd, ht'⟩ := List.pairwise_cons.1 hl'
      have hcd : c = d := by
        rcases lt_trichotomy c d with hlt | heq | hgt
        · have h1 := h c
          rw [cellGet_of_lt ((d, w') :: t') c (by
            intro e he
            rcases List.mem_cons.1 he with rfl | he
            · exact hlt
            · exact lt_trans hlt (hd e he))] at h1
          simp only [cellGet, if_true] at h1
          exact absurd h1 (h0 (c, w) (by simp))
        · exact heq
        · have h1 := h d
          rw [cellGet_of_lt ((c, w) :: t) d (by
            intro e he
            rcases List.mem_cons.1 he with rfl | he
            · exact hgt
            · exact lt_trans hgt (hc e he))] at h1
          simp only [cellGet, if_true] at h1
          exact absurd h1.symm (h0' (d, w') (by simp))
      subst hcd
      have hw : w = w' := by simpa [cellGet] using h c
      subst hw
      have : t = t' := by
        refine ih t' ht ht' (fun e he => h0 e (by simp [he])) (fun e he => h0' e (by simp [he])) ?_
        intro a
        by_cases ha : a = c
        · subst ha; rw [cellGet_of_lt t a hc, cellGet_of_lt t' a hd]
        · simpa [cellGet, ha] using h a
      rw [this]

/-! ### One byte -/

/-- A byte of memory at a backed address is the byte of its cells. -/
theorem Memory.read_backed (m : Memory) (a : Word) (h : m.unbacked a.toNat = false) :
    m.read a = cellGet m.cells a.toNat := by simp [Memory.read, h]

@[simp] theorem Memory.setBacked_holes (m : Memory) (a : Nat) (v : Byte) : (m.setBacked a v).holes = m.holes := by
  unfold Memory.setBacked; split <;> rfl

/-- A byte set at a backed address of the space sets its cell. -/
theorem Memory.setBacked_inside (m : Memory) (a : Nat) (v : Byte) (h : m.unbacked a = false) (ha : a < 2 ^ 32) :
    m.setBacked a v = { m with cells := cellSet m.cells a v } := by
  unfold Memory.setBacked
  rw [if_neg]
  rw [h, Bool.false_or, decide_eq_true_eq]
  exact Nat.not_le.2 ha

/-- Outside the space, and at an unbacked address, nothing is set. -/
theorem Memory.setBacked_outside (m : Memory) (a : Nat) (v : Byte) (h : ¬(m.unbacked a = false ∧ a < 2 ^ 32)) :
    m.setBacked a v = m := by
  unfold Memory.setBacked
  rw [if_pos]
  rw [Bool.or_eq_true, decide_eq_true_eq]
  by_cases hb : m.unbacked a = true
  · exact .inl hb
  · refine .inr ?_
    by_contra hlt
    exact h ⟨by simpa using hb, Nat.not_le.1 hlt⟩

theorem Memory.foldl_setBacked_holes (l : List Host.Cell) (m : Memory) :
    (l.foldl (fun m' c => m'.setBacked c.1 c.2) m).holes = m.holes := by
  induction l generalizing m with
  | nil => rfl
  | cons c t ih => simp [ih]

/-- No write changes which addresses are backed (20_memory R73). -/
@[simp] theorem Memory.write_holes (m : Memory) (a : Word) (v : Byte) : (m.write a v).holes = m.holes := by
  unfold Memory.write
  split
  · exact Memory.foldl_setBacked_holes _ _
  · simp

theorem Memory.unbacked_of_holes {m m' : Memory} (h : m'.holes = m.holes) (a : Nat) : m'.unbacked a = m.unbacked a := by
  simp [Memory.unbacked, h]

@[simp] theorem Memory.write_unbacked (m : Memory) (a : Word) (v : Byte) (b : Nat) :
    (m.write a v).unbacked b = m.unbacked b := Memory.unbacked_of_holes (Memory.write_holes m a v) b

/-- A write at a backed address sets its cell. -/
theorem Memory.write_backed (m : Memory) (a : Word) (v : Byte) (h : m.unbacked a.toNat = false) :
    m.write a v = { m with cells := cellSet m.cells a.toNat v } := by
  unfold Memory.write
  rw [if_neg (by simp [h]), Memory.setBacked_inside m a.toNat v h a.isLt]

/-- The parts of the canonical form. -/
theorem Memory.wf_iff (m : Memory) : m.wf = true ↔ cellsRise m.cells = true ∧
    ∀ c ∈ m.cells, c.1 < 2 ^ 32 ∧ c.2 ≠ Config.unlistedByte ∧ m.unbacked c.1 = false := by
  simp [Memory.wf, and_assoc]

/-- A byte reads back as written (20_memory R62, R63). -/
theorem Memory.read_write_self (m : Memory) (a : Word) (v : Byte) (hm : m.wf = true)
    (h : m.unbacked a.toNat = false) : (m.write a v).read a = v := by
  rw [Memory.read_backed _ _ (by simpa using h), Memory.write_backed _ _ _ h]
  exact cellGet_cellSet_self _ _ _ ((Memory.wf_iff m).1 hm).1

/-- A write at a backed address leaves every other backed byte alone. -/
theorem Memory.read_write_ne (m : Memory) (a b : Word) (v : Byte) (ha : m.unbacked a.toNat = false)
    (hb : m.unbacked b.toNat = false) (h : b ≠ a) : (m.write a v).read b = m.read b := by
  rw [Memory.read_backed _ _ (by simpa using hb), Memory.read_backed _ _ hb, Memory.write_backed _ _ _ ha]
  exact cellGet_cellSet_ne _ _ _ _ (fun e => h (BitVec.eq_of_toNat_eq e))

theorem Memory.setBacked_wf (m : Memory) (a : Nat) (v : Byte) (hm : m.wf = true) : (m.setBacked a v).wf = true := by
  by_cases h : m.unbacked a = false ∧ a < 2 ^ 32
  · obtain ⟨hr, hc⟩ := (Memory.wf_iff m).1 hm
    rw [Memory.setBacked_inside m a v h.1 h.2]
    refine (Memory.wf_iff _).2 ⟨cellsRise_cellSet _ _ _ hr, ?_⟩
    intro c hcm
    rcases mem_cellSet _ _ _ _ hcm with ⟨rfl, hv⟩ | hcm
    · exact ⟨h.2, hv, h.1⟩
    · exact hc c hcm
  · rw [Memory.setBacked_outside m a v h]; exact hm

theorem Memory.foldl_setBacked_wf (l : List Host.Cell) (m : Memory) (hm : m.wf = true) :
    (l.foldl (fun m' c => m'.setBacked c.1 c.2) m).wf = true := by
  induction l generalizing m with
  | nil => exact hm
  | cons c t ih => exact ih _ (Memory.setBacked_wf m c.1 c.2 hm)

/-- A write keeps the canonical form. -/
theorem Memory.write_wf (m : Memory) (a : Word) (v : Byte) (hm : m.wf = true) : (m.write a v).wf = true := by
  unfold Memory.write
  split
  · exact Memory.foldl_setBacked_wf _ _ hm
  · exact Memory.setBacked_wf _ _ _ hm

/-- The cells of a canonical memory read as zero at an unbacked address and outside the space. -/
theorem Memory.cellGet_of_not_listed (l : List Host.Cell) (a : Nat) (h : ∀ c ∈ l, c.1 ≠ a) :
    cellGet l a = Config.unlistedByte := by
  induction l with
  | nil => rfl
  | cons c t ih =>
    simp only [cellGet]
    rw [if_neg (fun e => h c (by simp) e.symm)]
    exact ih (fun d hd => h d (by simp [hd]))

/-- Equal contents are equal data: two canonical memories of one platform with the same byte at every backed address
are the same memory. -/
theorem Memory.eq_of_read (m m' : Memory) (hm : m.wf = true) (hm' : m'.wf = true) (hh : m.holes = m'.holes)
    (h : ∀ a : Word, m.unbacked a.toNat = false → m.read a = m'.read a) : m = m' := by
  obtain ⟨hr, hc⟩ := (Memory.wf_iff m).1 hm
  obtain ⟨hr', hc'⟩ := (Memory.wf_iff m').1 hm'
  have hu : ∀ a, m'.unbacked a = m.unbacked a := fun a => Memory.unbacked_of_holes hh.symm a
  have hcells : m.cells = m'.cells := by
    refine cells_eq_of_cellGet _ _ hr hr' (fun c hcm => (hc c hcm).2.1) (fun c hcm => (hc' c hcm).2.1) ?_
    intro a
    by_cases ha : a < 2 ^ 32 ∧ m.unbacked a = false
    · have e : (BitVec.ofNat 32 a).toNat = a := by rw [BitVec.toNat_ofNat, Nat.mod_eq_of_lt ha.1]
      have h1 := h (BitVec.ofNat 32 a) (by rw [e]; exact ha.2)
      rw [Memory.read_backed _ _ (by rw [e]; exact ha.2), Memory.read_backed _ _ (by rw [e, hu]; exact ha.2), e] at h1
      exact h1
    · rw [Memory.cellGet_of_not_listed, Memory.cellGet_of_not_listed]
      · intro c hcm e
        have := hc' c hcm
        rw [hu] at this
        exact ha ⟨e ▸ this.1, e ▸ this.2.2⟩
      · intro c hcm e
        have := hc c hcm
        exact ha ⟨e ▸ this.1, e ▸ this.2.2⟩
  cases m; cases m'; simp_all

/-! ### Several bytes and one pixel -/

@[simp] theorem memWrite_holes (n : Nat) (m : Memory) (a v : Word) : (memWrite m a n v).holes = m.holes := by
  induction n generalizing m a v with
  | zero => rfl
  | succ n ih => simp [memWrite, ih]

/-- `MemWrite` keeps the canonical form. -/
theorem memWrite_wf (n : Nat) (m : Memory) (a v : Word) (hm : m.wf = true) : (memWrite m a n v).wf = true := by
  induction n generalizing m a v with
  | zero => exact hm
  | succ n ih => exact ih _ _ _ (Memory.write_wf _ _ _ hm)

/-- `MemWrite` changes no backed byte but those it writes, when memory stands behind them all (20_memory R63). -/
theorem memWrite_read_ne (n : Nat) (m : Memory) (a v b : Word)
    (hw : ∀ c ∈ byteAddrs a n, m.unbacked c.toNat = false) (hb : m.unbacked b.toNat = false)
    (h : b ∉ byteAddrs a n) : (memWrite m a n v).read b = m.read b := by
  induction n generalizing m a v with
  | zero => rfl
  | succ n ih =>
    simp only [byteAddrs, List.mem_cons, not_or] at h
    simp only [memWrite]
    rw [ih _ _ _ (fun c hc => by simpa using hw c (List.mem_cons_of_mem _ hc)) (by simpa using hb) h.2]
    exact Memory.read_write_ne _ _ _ _ (hw a (by simp [byteAddrs])) hb h.1

@[simp] theorem putPix_holes (V : View) (m : Memory) (x y : Int) (v : Word) : (putPix V m x y v).holes = m.holes := by
  unfold putPix; dsimp only; split <;> simp

@[simp] theorem putPix_unbacked (V : View) (m : Memory) (x y : Int) (v : Word) (b : Nat) :
    (putPix V m x y v).unbacked b = m.unbacked b := Memory.unbacked_of_holes (putPix_holes V m x y v) b

/-- `PutPix` keeps the canonical form. -/
theorem putPix_wf (V : View) (m : Memory) (x y : Int) (v : Word) (hm : m.wf = true) :
    (putPix V m x y v).wf = true := by
  unfold putPix; dsimp only; split
  · exact Memory.write_wf _ _ _ hm
  · exact memWrite_wf _ _ _ _ hm

/-- `PutPix` changes no backed byte but its pixel's, when memory stands behind them all (20_memory R69). -/
theorem putPix_read_ne (V : View) (m : Memory) (x y : Int) (v b : Word)
    (hw : ∀ c ∈ pixBytes V x y, m.unbacked c.toNat = false) (hb : m.unbacked b.toNat = false)
    (h : b ∉ pixBytes V x y) : (putPix V m x y v).read b = m.read b := by
  unfold putPix; dsimp only; split
  · next hs =>
    have hd : V.depth.bytes = 1 := by revert hs; cases V.depth <;> simp [Depth.subByte, Depth.bytes]
    simp only [pixBytes, hd, byteAddrs, List.mem_singleton] at hw h
    exact Memory.read_write_ne _ _ _ _ (hw _ rfl) hb h
  · exact memWrite_read_ne _ _ _ _ _ hw hb h

/-! ### Reset -/

theorem reset_mem_wf : State.reset.mem.wf = true := by decide

end Sys2Proof.Machine
end

