-- ==== Sys2Proof/Laws/State.lean ====
section
/-! SUPPORT. One lemma per field per update of the state, true by `rfl`, so that no proof unfolds a record update. -/

namespace Sys2Proof.Machine

/-! ### An error -/

@[simp] theorem State.raise_irqEn (s : State) (e : CmdError) : (s.raise e).irqEn = s.irqEn := rfl
@[simp] theorem State.raise_status (s : State) (e : CmdError) : (s.raise e).status = s.status.raise e := rfl
@[simp] theorem State.raise_cmd (s : State) (e : CmdError) : (s.raise e).cmd = s.cmd := rfl
@[simp] theorem State.raise_regs (s : State) (e : CmdError) : (s.raise e).regs = s.regs := rfl
@[simp] theorem State.raise_res (s : State) (e : CmdError) : (s.raise e).res = s.res := rfl
@[simp] theorem State.raise_mem (s : State) (e : CmdError) : (s.raise e).mem = s.mem := rfl
@[simp] theorem State.raise_host (s : State) (e : CmdError) : (s.raise e).host = s.host := rfl
@[simp] theorem State.raise_rdata (s : State) (e : CmdError) : (s.raise e).rdata = s.rdata := rfl
@[simp] theorem State.raise_raced (s : State) (e : CmdError) : (s.raise e).raced = s.raced := rfl
@[simp] theorem State.raise_fresh (s : State) (e : CmdError) : (s.raise e).fresh = s.fresh := rfl

/-! ### A null no-op -/

@[simp] theorem State.nullEnd_irqEn (s : State) (r : Results) : (s.nullEnd r).irqEn = s.irqEn := rfl
@[simp] theorem State.nullEnd_status (s : State) (r : Results) : (s.nullEnd r).status = s.status.nullEnd := rfl
@[simp] theorem State.nullEnd_cmd (s : State) (r : Results) : (s.nullEnd r).cmd = s.cmd := rfl
@[simp] theorem State.nullEnd_regs (s : State) (r : Results) : (s.nullEnd r).regs = s.regs := rfl
@[simp] theorem State.nullEnd_res (s : State) (r : Results) : (s.nullEnd r).res = r := rfl
@[simp] theorem State.nullEnd_mem (s : State) (r : Results) : (s.nullEnd r).mem = s.mem := rfl
@[simp] theorem State.nullEnd_host (s : State) (r : Results) : (s.nullEnd r).host = s.host := rfl
@[simp] theorem State.nullEnd_rdata (s : State) (r : Results) : (s.nullEnd r).rdata = s.rdata := rfl
@[simp] theorem State.nullEnd_raced (s : State) (r : Results) : (s.nullEnd r).raced = s.raced := rfl
@[simp] theorem State.nullEnd_fresh (s : State) (r : Results) : (s.nullEnd r).fresh = s.fresh := rfl

/-! ### Success -/

@[simp] theorem State.complete_irqEn (s : State) (r : Results) (m : Memory) : (s.complete r m).irqEn = s.irqEn := rfl
@[simp] theorem State.complete_status (s : State) (r : Results) (m : Memory) : (s.complete r m).status = s.status.complete := rfl
@[simp] theorem State.complete_cmd (s : State) (r : Results) (m : Memory) : (s.complete r m).cmd = s.cmd := rfl
@[simp] theorem State.complete_regs (s : State) (r : Results) (m : Memory) : (s.complete r m).regs = s.regs := rfl
@[simp] theorem State.complete_res (s : State) (r : Results) (m : Memory) : (s.complete r m).res = r := rfl
@[simp] theorem State.complete_mem (s : State) (r : Results) (m : Memory) : (s.complete r m).mem = m := rfl
@[simp] theorem State.complete_host (s : State) (r : Results) (m : Memory) : (s.complete r m).host = s.host := rfl
@[simp] theorem State.complete_rdata (s : State) (r : Results) (m : Memory) : (s.complete r m).rdata = s.rdata := rfl
@[simp] theorem State.complete_raced (s : State) (r : Results) (m : Memory) : (s.complete r m).raced = s.raced := rfl
@[simp] theorem State.complete_fresh (s : State) (r : Results) (m : Memory) : (s.complete r m).fresh = s.fresh := rfl

/-! ### Acceptance of a command -/

@[simp] theorem State.accept_irqEn (s : State) (w : Word) : (s.accept w).irqEn = s.irqEn := rfl
@[simp] theorem State.accept_status (s : State) (w : Word) : (s.accept w).status = s.status.accept := rfl
@[simp] theorem State.accept_cmd (s : State) (w : Word) : (s.accept w).cmd = w := rfl
@[simp] theorem State.accept_regs (s : State) (w : Word) : (s.accept w).regs = s.regs := rfl
@[simp] theorem State.accept_res (s : State) (w : Word) : (s.accept w).res = s.res := rfl
@[simp] theorem State.accept_mem (s : State) (w : Word) : (s.accept w).mem = s.mem := rfl
@[simp] theorem State.accept_host (s : State) (w : Word) : (s.accept w).host = s.host := rfl
@[simp] theorem State.accept_rdata (s : State) (w : Word) : (s.accept w).rdata = s.rdata := rfl
@[simp] theorem State.accept_raced (s : State) (w : Word) : (s.accept w).raced = s.raced := rfl
@[simp] theorem State.accept_fresh (s : State) (w : Word) : (s.accept w).fresh = s.fresh := rfl

/-! ### A dropped write -/

@[simp] theorem State.overrun_irqEn (s : State) : (s.overrun).irqEn = s.irqEn := rfl
@[simp] theorem State.overrun_status (s : State) : (s.overrun).status = s.status.overrun := rfl
@[simp] theorem State.overrun_cmd (s : State) : (s.overrun).cmd = s.cmd := rfl
@[simp] theorem State.overrun_regs (s : State) : (s.overrun).regs = s.regs := rfl
@[simp] theorem State.overrun_res (s : State) : (s.overrun).res = s.res := rfl
@[simp] theorem State.overrun_mem (s : State) : (s.overrun).mem = s.mem := rfl
@[simp] theorem State.overrun_host (s : State) : (s.overrun).host = s.host := rfl
@[simp] theorem State.overrun_rdata (s : State) : (s.overrun).rdata = s.rdata := rfl
@[simp] theorem State.overrun_raced (s : State) : (s.overrun).raced = s.raced := rfl
@[simp] theorem State.overrun_fresh (s : State) : (s.overrun).fresh = s.fresh := rfl

/-! ### STATUS after acceptance -/

@[simp] theorem Status.accept_busy (t : Status) : (t.accept).busy = true := rfl
@[simp] theorem Status.accept_done (t : Status) : (t.accept).done = false := rfl
@[simp] theorem Status.accept_err (t : Status) : (t.accept).err = false := rfl
@[simp] theorem Status.accept_ovr (t : Status) : (t.accept).ovr = t.ovr := rfl
@[simp] theorem Status.accept_nullop (t : Status) : (t.accept).nullop = false := rfl
@[simp] theorem Status.accept_errcode (t : Status) : (t.accept).errcode = 0 := rfl

/-! ### STATUS after success -/

@[simp] theorem Status.complete_busy (t : Status) : (t.complete).busy = false := rfl
@[simp] theorem Status.complete_done (t : Status) : (t.complete).done = true := rfl
@[simp] theorem Status.complete_err (t : Status) : (t.complete).err = t.err := rfl
@[simp] theorem Status.complete_ovr (t : Status) : (t.complete).ovr = t.ovr := rfl
@[simp] theorem Status.complete_nullop (t : Status) : (t.complete).nullop = t.nullop := rfl
@[simp] theorem Status.complete_errcode (t : Status) : (t.complete).errcode = t.errcode := rfl

/-! ### STATUS after a null no-op -/

@[simp] theorem Status.nullEnd_busy (t : Status) : (t.nullEnd).busy = false := rfl
@[simp] theorem Status.nullEnd_done (t : Status) : (t.nullEnd).done = true := rfl
@[simp] theorem Status.nullEnd_err (t : Status) : (t.nullEnd).err = t.err := rfl
@[simp] theorem Status.nullEnd_ovr (t : Status) : (t.nullEnd).ovr = t.ovr := rfl
@[simp] theorem Status.nullEnd_nullop (t : Status) : (t.nullEnd).nullop = true := rfl
@[simp] theorem Status.nullEnd_errcode (t : Status) : (t.nullEnd).errcode = t.errcode := rfl

/-! ### STATUS after an error -/

@[simp] theorem Status.raise_busy (t : Status) (e : CmdError) : (t.raise e).busy = false := rfl
@[simp] theorem Status.raise_done (t : Status) (e : CmdError) : (t.raise e).done = true := rfl
@[simp] theorem Status.raise_err (t : Status) (e : CmdError) : (t.raise e).err = true := rfl
@[simp] theorem Status.raise_ovr (t : Status) (e : CmdError) : (t.raise e).ovr = t.ovr := rfl
@[simp] theorem Status.raise_nullop (t : Status) (e : CmdError) : (t.raise e).nullop = t.nullop := rfl
@[simp] theorem Status.raise_errcode (t : Status) (e : CmdError) : (t.raise e).errcode = errorCode e := rfl

/-! ### STATUS after a dropped write -/

@[simp] theorem Status.overrun_busy (t : Status) : (t.overrun).busy = t.busy := rfl
@[simp] theorem Status.overrun_done (t : Status) : (t.overrun).done = t.done := rfl
@[simp] theorem Status.overrun_err (t : Status) : (t.overrun).err = t.err := rfl
@[simp] theorem Status.overrun_ovr (t : Status) : (t.overrun).ovr = true := rfl
@[simp] theorem Status.overrun_nullop (t : Status) : (t.overrun).nullop = t.nullop := rfl
@[simp] theorem Status.overrun_errcode (t : Status) : (t.overrun).errcode = t.errcode := rfl

/-! ### RES0 replaced -/

@[simp] theorem Results.set0_res0 (r : Results) (v : Word) : (r.set0 v).res0 = v := rfl
@[simp] theorem Results.set0_res1 (r : Results) (v : Word) : (r.set0 v).res1 = r.res1 := rfl
@[simp] theorem Results.set0_res2 (r : Results) (v : Word) : (r.set0 v).res2 = r.res2 := rfl
@[simp] theorem Results.set0_res3 (r : Results) (v : Word) : (r.set0 v).res3 = r.res3 := rfl

/-! ### RES0 and RES1 replaced -/

@[simp] theorem Results.set01_res0 (r : Results) (v w : Word) : (r.set01 v w).res0 = v := rfl
@[simp] theorem Results.set01_res1 (r : Results) (v w : Word) : (r.set01 v w).res1 = w := rfl
@[simp] theorem Results.set01_res2 (r : Results) (v w : Word) : (r.set01 v w).res2 = r.res2 := rfl
@[simp] theorem Results.set01_res3 (r : Results) (v w : Word) : (r.set01 v w).res3 = r.res3 := rfl

/-! ### The three endings -/

@[simp] theorem State.finish_complete (s : State) (r : Results) (m : Memory) :
    s.finish (.complete r m) = s.complete r m := rfl

@[simp] theorem State.finish_nullop (s : State) (r : Results) : s.finish (.nullop r) = s.nullEnd r := rfl

@[simp] theorem State.finish_raise (s : State) (e : CmdError) : s.finish (.raise e) = s.raise e := rfl

/-- A command changes STATUS, the result registers and memory, and nothing else. -/
theorem State.finish_frame (s : State) (e : Ending) :
    (s.finish e).irqEn = s.irqEn ∧ (s.finish e).cmd = s.cmd ∧ (s.finish e).regs = s.regs ∧
      (s.finish e).host = s.host ∧ (s.finish e).rdata = s.rdata ∧ (s.finish e).raced = s.raced ∧
      (s.finish e).fresh = s.fresh := by
  cases e <;> simp

/-- Every ending leaves the engine idle with DONE set and OVR as it was (10_state R26, R27, R29). -/
theorem State.finish_status (s : State) (e : Ending) :
    (s.finish e).status.busy = false ∧ (s.finish e).status.done = true ∧
      (s.finish e).status.ovr = s.status.ovr := by
  cases e <;> simp

end Sys2Proof.Machine
end

