-- ==== Sys2Proof/Laws/Ops.lean ====
section
/-! SUPPORT. What each shared operation can do, said once: the loops of the commands keep the canonical form of memory and
touch no byte but those their footprint lists; a host access and an engine turn have a handful of outcomes. -/

namespace Sys2Proof.Machine

/-! ### Loops -/

/-- A loop keeps what each of its rounds keeps. -/
theorem foldl_keeps {α : Type} (P : Memory → Prop) (f : Memory → α → Memory) (l : List α)
    (h : ∀ m, ∀ x ∈ l, P m → P (f m x)) (m : Memory) (hm : P m) : P (l.foldl f m) := by
  induction l generalizing m with
  | nil => exact hm
  | cons x t ih => exact ih (fun m' y hy => h m' y (by simp [hy])) _ (h m x (by simp) hm)

/-- `m'` has the platform of `m` and its byte at `b`. -/
def Untouched (b : Word) (m m' : Memory) : Prop := m'.holes = m.holes ∧ m'.read b = m.read b

theorem Untouched.refl (b : Word) (m : Memory) : Untouched b m m := ⟨rfl, rfl⟩

theorem Untouched.trans {b : Word} {m m' m'' : Memory} (h : Untouched b m m') (h' : Untouched b m' m'') :
    Untouched b m m'' := ⟨h'.1.trans h.1, h'.2.trans h.2⟩

/-- A byte that no round of a loop touches is as before the loop. -/
theorem foldl_untouched {α : Type} (b : Word) (f : Memory → α → Memory) (l : List α) (m : Memory)
    (h : ∀ m', ∀ x ∈ l, m'.holes = m.holes → Untouched b m' (f m' x)) : Untouched b m (l.foldl f m) :=
  foldl_keeps (fun m' => Untouched b m m') f l (fun m' x hx hm' => hm'.trans (h m' x hx hm'.1)) m (.refl b m)

theorem write_untouched (b a : Word) (m : Memory) (v : Byte) (ha : m.unbacked a.toNat = false)
    (hb : m.unbacked b.toNat = false) (h : b ≠ a) : Untouched b m (m.write a v) :=
  ⟨by simp, Memory.read_write_ne m a b v ha hb h⟩

theorem putPix_untouched (b : Word) (V : View) (m : Memory) (x y : Int) (v : Word)
    (hw : ∀ c ∈ pixBytes V x y, m.unbacked c.toNat = false) (hb : m.unbacked b.toNat = false)
    (h : b ∉ pixBytes V x y) : Untouched b m (putPix V m x y v) :=
  ⟨by simp, putPix_read_ne V m x y v b hw hb h⟩

theorem fillPix_wf (V : View) (p : MaskPair) (m : Memory) (x y : Int) (hm : m.wf = true) :
    (fillPix V p m x y).wf = true := putPix_wf _ _ _ _ _ hm

/-! ### The order of a rectangle -/

theorem mem_counted (n : Nat) (rev : Bool) (k : Nat) : k ∈ counted n rev ↔ k < n := by
  cases rev <;> simp [counted]

/-- The cells of a rectangle, whatever the order (44_blit R180, R186). -/
theorem mem_rectCells (w h : Nat) (revx revy : Bool) (c : Nat × Nat) :
    c ∈ rectCells w h revx revy ↔ c.1 < w ∧ c.2 < h := by
  obtain ⟨c, r⟩ := c
  simp [rectCells, mem_counted, and_comm]

/-- Each cell of a rectangle is visited once. -/
theorem rectCells_nodup (w h : Nat) (revx revy : Bool) : (rectCells w h revx revy).Nodup := by
  have hc : ∀ n rev, (counted n rev).Nodup := by
    intro n rev
    cases rev <;> simp [counted, List.nodup_range]
  unfold rectCells
  refine List.nodup_flatMap.2 ⟨fun r _ => (hc w revx).map fun _ _ e => by simpa using e, ?_⟩
  refine (hc h revy).imp ?_
  intro r r' hne x hx hx'
  simp only [List.mem_map] at hx hx'
  obtain ⟨_, -, rfl⟩ := hx
  obtain ⟨_, -, e⟩ := hx'
  exact hne (by simpa using (Prod.ext_iff.1 e).2.symm)

/-! ### The memory effect of each command keeps the canonical form -/

theorem solidfillRun_wf (p : MaskPair) (R : Rect) (m : Memory) (hm : m.wf = true) :
    (solidfillRun p R m).wf = true :=
  foldl_keeps (fun m => m.wf = true) _ _ (fun _ _ _ h => fillPix_wf _ _ _ _ _ h) _ hm

theorem solidlineRun_wf (p : MaskPair) (W : Walk) (m : Memory) (hm : m.wf = true) :
    (solidlineRun p W m).wf = true :=
  foldl_keeps (fun m => m.wf = true) _ _ (fun _ _ _ h => fillPix_wf _ _ _ _ _ h) _ hm

theorem copyrectRun_wf (rop : BitVec 4) (revx revy : Bool) (P : RectPair) (m : Memory) (hm : m.wf = true) :
    (copyrectRun rop revx revy P m).wf = true :=
  foldl_keeps (fun m => m.wf = true) _ _ (fun _ _ _ h => putPix_wf _ _ _ _ _ h) _ hm

theorem brushmaskRun_wf (rop : BitVec 4) (r : Regs) (B : BrushImages) (m : Memory) (hm : m.wf = true) :
    (brushmaskRun rop r B m).wf = true :=
  foldl_keeps (fun m => m.wf = true) _ _ (fun _ _ _ h => putPix_wf _ _ _ _ _ (putPix_wf _ _ _ _ _ h)) _ hm

theorem patfillRun_wf (r : Regs) (R : Rect) (m : Memory) (hm : m.wf = true) : (patfillRun r R m).wf = true :=
  foldl_keeps (fun m => m.wf = true) _ _ (fun _ _ _ h => putPix_wf _ _ _ _ _ h) _ hm

theorem maskfillRun_wf (rop : BitVec 4) (r : Regs) (P : RectPair) (m : Memory) (hm : m.wf = true) :
    (maskfillRun rop r P m).wf = true :=
  foldl_keeps (fun m => m.wf = true) _ _ (fun _ _ _ h => putPix_wf _ _ _ _ _ h) _ hm

theorem padRow_wf (V : View) (m : Memory) (y Xe : Int) (hm : m.wf = true) : (padRow V m y Xe).wf = true := by
  unfold padRow
  refine foldl_keeps (fun m => m.wf = true) _ _ (fun _ _ _ h => Memory.write_wf _ _ _ h) _ ?_
  split
  · exact hm
  · exact Memory.write_wf _ _ _ hm

theorem dconv1Run_wf (src : Surface) (pad : Bool) (P : RectPair) (m : Memory) (hm : m.wf = true) :
    (dconv1Run src pad P m).wf = true := by
  refine foldl_keeps (fun m => m.wf = true) _ _ (fun m' r _ h => ?_) _ hm
  have h1 := foldl_keeps (fun m => m.wf = true) (dconv1Pix src P) ((List.range P.dst.w).map fun c => (c, r))
    (fun _ _ _ h => putPix_wf _ _ _ _ _ h) m' h
  unfold dconv1Row
  cases pad
  · exact h1
  · exact padRow_wf _ _ _ _ h1

theorem stretchRun_wf (mode : ScanMode) (keep : Bool) (S : Scan) (m : Memory) (hm : m.wf = true) :
    (S.steps.foldl (stretchStep mode keep S) m).wf = true := by
  refine foldl_keeps (fun m => m.wf = true) _ _ (fun m' t _ h => ?_) _ hm
  unfold stretchStep
  dsimp only
  split <;> exact putPix_wf _ _ _ _ _ h

theorem shrinkRun_wf (mode : ScanMode) (keep : Bool) (S : Scan) (m : Memory) (hm : m.wf = true) :
    (S.steps.foldl (shrinkStep mode keep S) m).wf = true :=
  foldl_keeps (fun m => m.wf = true) _ _ (fun _ _ _ h => putPix_wf _ _ _ _ _ h) _ hm

/-- What a free byte does to memory: nothing, at an unbacked address only, or the write of a free byte. -/
theorem Memory.freeAt_cases (k : Nat) (a : Word) (m : Memory) :
    (m.unbacked a.toNat = true ∧ m.freeAt k a = m) ∨ m.freeAt k a = m.write a (Config.freeByte k) := by
  unfold Memory.freeAt
  split
  · next h => exact .inl ⟨(Bool.and_eq_true_iff.mp h).1, rfl⟩
  · exact .inr rfl

/-- At a backed address a free byte is always written. -/
theorem Memory.freeAt_backed (k : Nat) (a : Word) (m : Memory) (h : m.unbacked a.toNat = false) :
    m.freeAt k a = m.write a (Config.freeByte k) := by
  simp [Memory.freeAt, h]

theorem Memory.freeAt_wf (k : Nat) (a : Word) (m : Memory) (hm : m.wf = true) : (m.freeAt k a).wf = true := by
  rcases Memory.freeAt_cases k a m with ⟨-, h⟩ | h <;> rw [h]
  · exact hm
  · exact Memory.write_wf _ _ _ hm

/-- The free bytes of a race or a reset keep the canonical form. -/
theorem freeBytes_wf (k : Nat) (l : List Word) (m : Memory) (hm : m.wf = true) : (freeBytes k l m).wf = true := by
  induction l generalizing k m with
  | nil => exact hm
  | cons a t ih => exact ih _ _ (Memory.freeAt_wf _ _ _ hm)

theorem racedView_wf (k : Nat) (l : List (Word × Byte)) (m : Memory) (hm : m.wf = true) :
    (racedView k l m).wf = true := by
  induction l generalizing k m with
  | nil => exact hm
  | cons c t ih =>
    refine ih _ _ ?_
    split
    · exact Memory.write_wf _ _ _ hm
    · exact hm

/-- The free bytes change no backed byte but their own. -/
theorem freeBytes_untouched (b : Word) (k : Nat) (l : List Word) (m : Memory)
    (hw : ∀ a ∈ l, m.unbacked a.toNat = false) (hb : m.unbacked b.toNat = false) (h : b ∉ l) :
    Untouched b m (freeBytes k l m) := by
  induction l generalizing k m with
  | nil => exact .refl b m
  | cons a t ih =>
    simp only [List.mem_cons, not_or] at h
    rw [freeBytes, Memory.freeAt_backed k a m (hw a (by simp))]
    refine (write_untouched b a m (Config.freeByte k) (hw a (by simp)) hb h.1).trans ?_
    exact ih _ _ (fun c hc => by simpa using hw c (by simp [hc])) (by simpa using hb) h.2

/-! ### The checks -/

/-- What the ending of a checked command can be. -/
theorem Checked.ending_cases {α : Type} (c : Checked α) (res : Results) (m : Memory) (run : α → Memory) :
    (c = .null ∧ c.ending res m run = .nullop res) ∨ (∃ e, c = .raise e ∧ c.ending res m run = .raise e) ∨
      (c = .empty ∧ c.ending res m run = .complete res m) ∨
      (∃ a, c = .go a ∧ c.ending res m run = .complete res (run a)) := by
  cases c <;> simp [Checked.ending]

/-- A rectangle's checks: empty, inside, or BOUNDS (60_exceptions R277). -/
theorem checkRect_cases (R : Rect) :
    ((R.w = 0 ∨ R.h = 0) ∧ checkRect R = .empty) ∨
      (¬(R.w = 0 ∨ R.h = 0) ∧ R.inside = true ∧ checkRect R = .go R) ∨
      (¬(R.w = 0 ∨ R.h = 0) ∧ R.inside = false ∧ checkRect R = .raise .bounds) := by
  unfold checkRect
  by_cases h : R.w = 0 ∨ R.h = 0
  · exact .inl ⟨h, if_pos h⟩
  · cases hi : R.inside <;> simp [h]

/-! ### The outside -/

/-- What an engine turn can do: nothing when idle; the command when it was not raced; else the raced ending. -/
theorem State.engineTurn_cases (s : State) :
    (s.status.busy = false ∧ s.engineTurn = .next s) ∨
      (s.status.busy = true ∧ s.raced = [] ∧ s.engineTurn = s.runCommand) ∨
      (s.status.busy = true ∧ s.raced ≠ [] ∧ s.engineTurn = s.runRaced) := by
  unfold State.engineTurn
  cases hb : s.status.busy
  · simp
  · cases hr : s.raced with
    | nil => simp
    | cons c t => simp

/-- What a host write to a register can do (10_state R21 to R37). -/
theorem State.hostWriteReg_cases (s : State) (r : Reg) (v : Word) :
    s.hostWriteReg r v = s ∨ s.hostWriteReg r v = s.resetBlock ∨
      s.hostWriteReg r v = { s with irqEn := v.getLsbD 0 } ∨
      s.hostWriteReg r v = { s with status := s.status.writeOneToClear v } ∨
      (s.status.busy = true ∧ s.hostWriteReg r v = s.overrun) ∨
      (s.status.busy = false ∧ r = .cmd ∧ s.hostWriteReg r v = s.accept v) ∨
      (s.status.busy = false ∧ s.hostWriteReg r v = { s with regs := s.regs.set r v }) := by
  by_cases hr : r = .ctrl
  · subst hr
    by_cases h1 : v.getLsbD 1 = true
    · exact .inr (.inl (if_pos h1))
    · exact .inr (.inr (.inl (if_neg h1)))
  · cases hb : s.status.busy <;> cases r <;> simp [State.hostWriteReg, hb] at hr ⊢

end Sys2Proof.Machine
end

