-- ==== Sys2Proof/Laws/PerInstr.lean ====
section
/-! SUPPORT. A family of lemmas about every command as syntax, one lemma per constructor. -/

namespace Sys2Proof.Laws.EncodeOpcode

/-- The word of a command carries its opcode in [7:0] and sets no bit outside its `USED_MASK` (30_encoding R109,
R113). -/
def Statement (i : Instr) : Prop :=
  (encode i).extractLsb' 0 8 = i.opcode.code ∧ encode i &&& ~~~i.opcode.usedMask = 0

theorem nop : Statement .nop := by constructor <;> rfl

theorem extract : Statement .extract := by constructor <;> rfl

theorem insert : Statement .insert := by constructor <;> rfl

theorem pix2rgb (surf : Surf) : Statement (.pix2rgb surf) := by
  unfold Statement
  cases surf <;> decide

theorem rgb2pix (surf : Surf) : Statement (.rgb2pix surf) := by
  unfold Statement
  cases surf <;> decide

theorem ropcodes (rop : BitVec 4) : Statement (.ropcodes rop) := by
  unfold Statement
  revert rop
  decide

theorem ropmask (rop : BitVec 4) : Statement (.ropmask rop) := by
  unfold Statement
  revert rop
  decide

theorem ropapply : Statement .ropapply := by constructor <;> rfl

theorem ropapplym : Statement .ropapplym := by constructor <;> rfl

theorem ropsrc (rop : BitVec 4) : Statement (.ropsrc rop) := by
  unfold Statement
  revert rop
  decide

theorem pixaddr (surf : Surf) : Statement (.pixaddr surf) := by
  unfold Statement
  cases surf <;> decide

theorem unpack (depth : SubDepth) : Statement (.unpack depth) := by
  unfold Statement
  cases depth <;> decide

theorem pack (depth : SubDepth) : Statement (.pack depth) := by
  unfold Statement
  cases depth <;> decide

theorem getpixel (surf : Surf) : Statement (.getpixel surf) := by
  unfold Statement
  cases surf <;> decide

theorem putpixel (rop : BitVec 4) (f1 : Bool) : Statement (.putpixel rop f1) := by
  unfold Statement
  revert rop f1
  decide

theorem dthresh (msz : MatrixSize) : Statement (.dthresh msz) := by
  unfold Statement
  cases msz <;> decide

theorem dcmp (msz : MatrixSize) : Statement (.dcmp msz) := by
  unfold Statement
  cases msz <;> decide

theorem dmono : Statement .dmono := by constructor <;> rfl

theorem quant5 : Statement .quant5 := by constructor <;> rfl

theorem dconv1 (f0 : Bool) : Statement (.dconv1 f0) := by
  unfold Statement
  revert f0
  decide

theorem solidfill (rop : BitVec 4) (f1 : Bool) : Statement (.solidfill rop f1) := by
  unfold Statement
  revert rop f1
  decide

theorem solidline (rop : BitVec 4) (f1 : Bool) (f2 : Bool) (f3 : Bool) (f4 : Bool) : Statement (.solidline rop f1 f2 f3 f4) := by
  unfold Statement
  revert rop f1 f2 f3 f4
  decide

theorem copyrect (rop : BitVec 4) (f1 : Bool) (f2 : Bool) : Statement (.copyrect rop f1 f2) := by
  unfold Statement
  revert rop f1 f2
  decide

theorem brushmask (rop : BitVec 4) : Statement (.brushmask rop) := by
  unfold Statement
  revert rop
  decide

theorem patfill : Statement .patfill := by constructor <;> rfl

theorem maskfill (rop : BitVec 4) : Statement (.maskfill rop) := by
  unfold Statement
  revert rop
  decide

theorem stretchrow (smode : ScanMode) (f1 : Bool) (f2 : Bool) (f3 : Bool) : Statement (.stretchrow smode f1 f2 f3) := by
  unfold Statement
  cases smode <;>
  (revert f1 f2 f3; decide)

theorem shrinkrow (smode : ScanMode) (f1 : Bool) (f2 : Bool) (f3 : Bool) : Statement (.shrinkrow smode f1 f2 f3) := by
  unfold Statement
  cases smode <;>
  (revert f1 f2 f3; decide)

end Sys2Proof.Laws.EncodeOpcode
end

