-- ==== Sys2Proof/Laws/Safety.lean ====
section
/-! SUPPORT. How STATUS stays legal under each of its updates, and what every command's meaning comes down to: one of the
three endings, with a memory in canonical form. -/

namespace Sys2Proof.Machine

/-! ### STATUS stays legal -/

theorem Status.accept_legal (t : Status) : t.accept.legal = true := by
  simp [Status.legal, Status.accept]

theorem Status.overrun_legal (t : Status) (h : t.legal = true) : t.overrun.legal = true := by
  rcases t with ⟨b, d, e, o, n, c⟩
  exact h

theorem Status.complete_legal (t : Status) (h : t.legal = true) : t.complete.legal = true := by
  rcases t with ⟨b, d, e, o, n, c⟩
  revert b d e o n c
  decide

theorem Status.nullEnd_legal (t : Status) (h : t.legal = true) (hb : t.busy = true) : t.nullEnd.legal = true := by
  rcases t with ⟨b, d, e, o, n, c⟩
  revert b d e o n c
  decide

theorem Status.raise_legal (t : Status) (x : CmdError) (h : t.legal = true) (hb : t.busy = true) :
    (t.raise x).legal = true := by
  rcases t with ⟨b, d, e, o, n, c⟩
  cases x <;> (revert b d e o n c; decide)

theorem Status.writeOneToClear_legal (t : Status) (v : Word) (h : t.legal = true) :
    (t.writeOneToClear v).legal = true := by
  have key : ∀ (t : Status) (d1 e1 o1 n1 : Bool), t.legal = true →
      Status.legal { busy := t.busy, done := t.done && !d1, err := t.err && !e1, ovr := t.ovr && !o1,
                     nullop := t.nullop && !n1, errcode := if e1 then 0 else t.errcode } = true := by
    rintro ⟨b, d, e, o, n, c⟩ d1 e1 o1 n1
    cases e1 <;> cases d1 <;> cases n1 <;> cases o1 <;> (revert b d e o n c; decide)
  exact key t (v.getLsbD 1) (v.getLsbD 2) (v.getLsbD 3) (v.getLsbD 4) h

theorem Status.reset_legal : Status.reset.legal = true := by decide

/-! ### Every command comes down to one ending -/

/-- An ending that a command may give from `s`: canonical memory stays canonical, and an error is PARAM or BOUNDS
(60_exceptions R273, R274). -/
def Ending.good (e : Ending) (s : State) : Prop :=
  (∀ r m, e = .complete r m → s.mem.wf = true → m.wf = true) ∧ ∀ x, e = .raise x → x = .param ∨ x = .bounds

theorem Ending.good_complete (s : State) (r : Results) : (Ending.complete r s.mem).good s :=
  ⟨fun _ _ h hm => (by cases h; exact hm), fun _ h => by cases h⟩

theorem Ending.good_nullop (s : State) (r : Results) : (Ending.nullop r).good s :=
  ⟨fun _ _ h _ => (by cases h), fun _ h => by cases h⟩

theorem Ending.good_param (s : State) : (Ending.raise .param).good s :=
  ⟨fun _ _ h _ => (by cases h), fun _ h => by cases h; exact .inl rfl⟩

theorem Ending.good_bounds (s : State) : (Ending.raise .bounds).good s :=
  ⟨fun _ _ h _ => (by cases h), fun _ h => by cases h; exact .inr rfl⟩

/-- A command that writes no result register gives a good ending when its checks raise PARAM or BOUNDS only and its
memory effect keeps the canonical form. -/
theorem Checked.ending_good {α : Type} (c : Checked α) (s : State) (run : α → Memory)
    (hc : ∀ x, c = .raise x → x = .param ∨ x = .bounds) (hr : ∀ a, s.mem.wf = true → (run a).wf = true) :
    (c.ending s.res s.mem run).good s := by
  rcases c.ending_cases s.res s.mem run with ⟨-, e⟩ | ⟨x, h, e⟩ | ⟨-, e⟩ | ⟨a, -, e⟩ <;> rw [e]
  · exact Ending.good_nullop s _
  · rcases hc x h with rfl | rfl
    · exact Ending.good_param s
    · exact Ending.good_bounds s
  · exact Ending.good_complete s _
  · exact ⟨fun _ _ h hm => (by cases h; exact hr a hm), fun _ h => by cases h⟩

theorem checkRect_raises (R : Rect) (x : CmdError) (h : checkRect R = .raise x) : x = .bounds := by
  rcases checkRect_cases R with ⟨-, e⟩ | ⟨-, -, e⟩ | ⟨-, -, e⟩ <;> rw [e] at h <;> cases h
  rfl

theorem checkPair_raises (D S : Rect) (x : CmdError) (h : checkPair D S = .raise x) : x = .bounds := by
  unfold checkPair at h
  split at h
  · cases h
  · split at h <;> cases h
    rfl

theorem pointChecks_raises (S : Surface) (r : Regs) (x : CmdError) (h : pointChecks S r = .raise x) : x = .bounds := by
  unfold pointChecks at h
  split at h
  · cases h
  · split at h <;> cases h
    rfl

theorem solidfillChecks_raises (r : Regs) (x : CmdError) (h : solidfillChecks r = .raise x) : x = .bounds := by
  unfold solidfillChecks at h
  split at h
  · cases h
  · exact checkRect_raises _ _ h

theorem solidlineChecks_raises (xm xn yn : Bool) (r : Regs) (x : CmdError)
    (h : solidlineChecks xm xn yn r = .raise x) : x = .bounds := by
  unfold solidlineChecks at h
  split at h
  · cases h
  · split at h
    · cases h
    · dsimp only at h
      split at h <;> cases h
      rfl

theorem copyrectChecks_raises (r : Regs) (x : CmdError) (h : copyrectChecks r = .raise x) : x = .bounds := by
  unfold copyrectChecks at h
  split at h
  · split at h
    · cases h
    · exact checkPair_raises _ _ _ h
  · cases h

theorem maskfillChecks_raises (r : Regs) (x : CmdError) (h : maskfillChecks r = .raise x) : x = .bounds := by
  unfold maskfillChecks at h
  split at h
  · split at h
    · cases h
    · exact checkPair_raises _ _ _ h
  · cases h

theorem brushmaskChecks_raises (r : Regs) (x : CmdError) (h : brushmaskChecks r = .raise x) : x = .bounds := by
  unfold brushmaskChecks at h
  split at h <;> cases h

theorem dconv1Checks_raises (r : Regs) (x : CmdError) (h : dconv1Checks r = .raise x) : x = .param ∨ x = .bounds := by
  unfold dconv1Checks at h
  split at h
  · split at h
    · cases h
    · split at h
      · cases h; exact .inl rfl
      · exact .inr (checkPair_raises _ _ _ h)
  · cases h

theorem patfillChecks_raises (r : Regs) (x : CmdError) (h : patfillChecks r = .raise x) :
    x = .param ∨ x = .bounds := by
  unfold patfillChecks at h
  split at h
  · cases h
  · split at h
    · cases h; exact .inl rfl
    · exact .inr (checkRect_raises _ _ h)

theorem scanChecks_raises (r : Regs) (steps : List ScanStep) (x : CmdError) (h : scanChecks r steps = .raise x) :
    x = .bounds := by
  unfold scanChecks at h
  split at h
  · split at h
    · cases h
    · split at h
      · cases h
      · dsimp only at h
        split at h <;> cases h
        rfl
  · cases h

/-- The meaning of every command is one ending (60_exceptions R270, R283). -/
theorem exec_finish (i : Instr) (s : State) : ∃ e, exec i s = .next (s.finish e) ∧ e.good s := by
  cases i with
  | nop => exact ⟨_, rfl, Ending.good_complete s _⟩
  | extract =>
    refine ⟨_, rfl, ?_⟩
    split
    · exact Ending.good_param s
    · exact Ending.good_complete s _
  | insert =>
    refine ⟨_, rfl, ?_⟩
    split
    · exact Ending.good_param s
    · exact Ending.good_complete s _
  | pix2rgb surf =>
    refine ⟨_, rfl, ?_⟩
    split
    · exact Ending.good_nullop s _
    · split
      · exact Ending.good_param s
      · exact Ending.good_complete s _
  | rgb2pix surf =>
    refine ⟨_, rfl, ?_⟩
    split
    · exact Ending.good_nullop s _
    · split
      · exact Ending.good_param s
      · exact Ending.good_complete s _
  | ropcodes rop => exact ⟨_, rfl, Ending.good_complete s _⟩
  | ropmask rop => exact ⟨_, rfl, Ending.good_complete s _⟩
  | ropapply => exact ⟨_, rfl, Ending.good_complete s _⟩
  | ropapplym => exact ⟨_, rfl, Ending.good_complete s _⟩
  | ropsrc rop => exact ⟨_, rfl, Ending.good_complete s _⟩
  | pixaddr surf =>
    refine ⟨_, rfl, ?_⟩
    split
    · exact Ending.good_nullop s _
    · exact Ending.good_complete s _
  | unpack depth => exact ⟨_, rfl, Ending.good_complete s _⟩
  | pack depth => exact ⟨_, rfl, Ending.good_complete s _⟩
  | getpixel surf =>
    refine ⟨_, rfl, ?_⟩
    split
    · exact Ending.good_nullop s _
    · next e h => rw [pointChecks_raises _ _ _ h]; exact Ending.good_bounds s
    · exact Ending.good_complete s _
    · exact Ending.good_complete s _
  | putpixel rop msrc =>
    exact ⟨_, rfl, Checked.ending_good _ s _ (fun x h => .inr (pointChecks_raises _ _ x h))
      fun _ h => fillPix_wf _ _ _ _ _ h⟩
  | dthresh msz => exact ⟨_, rfl, Ending.good_complete s _⟩
  | dcmp msz => exact ⟨_, rfl, Ending.good_complete s _⟩
  | dmono => exact ⟨_, rfl, Ending.good_complete s _⟩
  | quant5 => exact ⟨_, rfl, Ending.good_complete s _⟩
  | dconv1 pad =>
    exact ⟨_, rfl, Checked.ending_good _ s _ (dconv1Checks_raises _) fun _ h => dconv1Run_wf _ _ _ _ h⟩
  | solidfill rop msrc =>
    exact ⟨_, rfl, Checked.ending_good _ s _ (fun x h => .inr (solidfillChecks_raises _ x h))
      fun _ h => solidfillRun_wf _ _ _ h⟩
  | solidline rop msrc xmajor xneg yneg =>
    exact ⟨_, rfl, Checked.ending_good _ s _ (fun x h => .inr (solidlineChecks_raises _ _ _ _ x h))
      fun _ h => solidlineRun_wf _ _ _ h⟩
  | copyrect rop revx revy =>
    exact ⟨_, rfl, Checked.ending_good _ s _ (fun x h => .inr (copyrectChecks_raises _ x h))
      fun _ h => copyrectRun_wf _ _ _ _ _ h⟩
  | brushmask rop =>
    exact ⟨_, rfl, Checked.ending_good _ s _ (fun x h => .inr (brushmaskChecks_raises _ x h))
      fun _ h => brushmaskRun_wf _ _ _ _ h⟩
  | patfill =>
    exact ⟨_, rfl, Checked.ending_good _ s _ (patfillChecks_raises _) fun _ h => patfillRun_wf _ _ _ h⟩
  | maskfill rop =>
    exact ⟨_, rfl, Checked.ending_good _ s _ (fun x h => .inr (maskfillChecks_raises _ x h))
      fun _ h => maskfillRun_wf _ _ _ _ h⟩
  | stretchrow smode keep sneg dneg =>
    exact ⟨_, rfl, Checked.ending_good _ s _ (fun x h => .inr (scanChecks_raises _ _ x h))
      fun _ h => stretchRun_wf _ _ _ _ h⟩
  | shrinkrow smode keep sneg dneg =>
    exact ⟨_, rfl, Checked.ending_good _ s _ (fun x h => .inr (scanChecks_raises _ _ x h))
      fun _ h => shrinkRun_wf _ _ _ _ h⟩

end Sys2Proof.Machine
end

