-- ==== Sys2Proof/Machine/HostProgram.lean ====
section
/-! DEFINITION. The host-program notation (30_encoding R110 to R112) as lists of host events. -/

namespace Sys2Proof.Machine

/-- `W <REG>, <value>` (30_encoding R110). -/
def hostW (r : Reg) (v : Word) : List HostEvent := [.mmioWrite 32 r.offset v]

/-- `R <REG>` (30_encoding R110). -/
def hostR (r : Reg) : List HostEvent := [.mmioRead 32 r.offset]

/-- `C <MNEMONIC> [fields]` (30_encoding R110, R111). -/
def hostC (i : Instr) : List HostEvent := hostW .cmd (encode i)

/-- `WAIT`: STATUS is read until BUSY = 0. A command completes in one engine turn (70_reset R310; log entry 1), so one
turn and one read are enough (30_encoding R110). -/
def hostWait : List HostEvent := .engine :: hostR .status

/-- `M <addr>: <b0> <b1> ...`, the framebuffer bytes of a start state (30_encoding R110). -/
def hostM : Word → List Byte → List HostEvent
  | _, [] => []
  | a, b :: t => .memWrite a b :: hostM (a + 1) t

/-- `RUN <MNEMONIC> [fields]` (30_encoding R112). -/
def hostRun (i : Instr) : List HostEvent := hostC i ++ hostWait

/-- `FILL` (30_encoding R112). -/
def hostFill : List HostEvent := hostRun (.solidfill 12 false)

/-- `INVERT` (30_encoding R112). -/
def hostInvert : List HostEvent := hostRun (.solidfill 5 false)

/-- `COPY [revx=a, revy=b]` (30_encoding R112). -/
def hostCopy (revx revy : Bool) : List HostEvent := hostRun (.copyrect 12 revx revy)

/-- `CLEARSTATUS` (30_encoding R112). -/
def hostClearStatus : List HostEvent := hostW .status 0x0000001E

/-- `SOFTRESET` (30_encoding R112). -/
def hostSoftReset : List HostEvent := hostW .ctrl 0x00000002

/-- `SETRECT x, y, w, h` (30_encoding R112). -/
def hostSetRect (x y w h : Word) : List HostEvent :=
  hostW .rectX x ++ hostW .rectY y ++ hostW .rectW w ++ hostW .rectH h

/-- `SETSURF <D>, base, stride, fmt, orgx, orgy, clipw, cliph` (30_encoding R112). -/
def hostSetSurf (d : Surf) (base stride fmt orgx orgy clipw cliph : Word) : List HostEvent :=
  hostW (.surf d .base) base ++ hostW (.surf d .stride) stride ++ hostW (.surf d .format) fmt
    ++ hostW (.surf d .orgX) orgx ++ hostW (.surf d .orgY) orgy
    ++ hostW (.surf d .clipW) clipw ++ hostW (.surf d .clipH) cliph

/-- `SETCHAN <D>, rs, rw, gs, gw, bs, bw` (30_encoding R112). -/
def hostSetChan (d : Surf) (rs rw gs gw bs bw : Word) : List HostEvent :=
  hostW (.surf d .chanR) (rw <<< 8 ||| rs) ++ hostW (.surf d .chanG) (gw <<< 8 ||| gs)
    ++ hostW (.surf d .chanB) (bw <<< 8 ||| bs)

end Sys2Proof.Machine
end

