-- ==== Sys2Proof/Tests/Slice0.lean ====
section
/-! SUPPORT. Our own tests. The words of the decode tests are written out from 30_encoding R91 and R113; the expected
results are the examples of the command rules (named in each comment) or a vector of 95_test_vectors. The witness theorems
show, for a statement with hypotheses, a state and operands that meet them all, one for each of its clauses. -/

namespace Sys2Proof.Tests

open Sys2Proof.Machine Sys2Proof.Claims

/-! ### Helpers -/

/-- A state with a command just accepted, the given registers, and bytes at the given addresses. -/
def at' (r : Regs) (bytes : List (Word × Byte)) : State :=
  { State.reset with
    regs := r
    status := State.reset.status.accept
    mem := bytes.foldl (fun m c => m.write c.1 c.2) State.reset.mem }

/-- Consecutive bytes from an address. -/
def from' (a : Word) (l : List Byte) : List (Word × Byte) :=
  (List.range l.length).map fun k => (a + BitVec.ofNat 32 k, l.getD k 0)

/-- A surface with its clip origin at the pixel (0, 0) of its memory. -/
def surface (base stride : Word) (format : BitVec 3) (clipW clipH : Word) : Surface :=
  { Surface.reset with base := base, stride := stride, format := format, clipW := clipW, clipH := clipH }

/-- A surface with channels. -/
def chans (S : Surface) (r g b : Word) : Surface :=
  { S with chanR := Chan.ofWord r, chanG := Chan.ofWord g, chanB := Chan.ofWord b }

/-- The registers with a destination rectangle. -/
def rect (r : Regs) (x y w h : Word) : Regs := { r with rectX := x, rectY := y, rectW := w, rectH := h }

/-- RES0 to RES3 and ERRCODE after a command. -/
def results (o : Host.Outcome State Fault Refusal) : Option (List Word × BitVec 4) :=
  match o with
  | .next t => some ([t.res.res0, t.res.res1, t.res.res2, t.res.res3], t.status.errcode)
  | .fault _ => none
  | .refused _ => none

/-- Bytes of memory after a command. -/
def bytesOf (o : Host.Outcome State Fault Refusal) (a : Word) (n : Nat) : Option (List Byte) :=
  match o with
  | .next t => some ((List.range n).map fun k => t.mem.read (a + BitVec.ofNat 32 k))
  | .fault _ => none
  | .refused _ => none

/-! ### Well-formedness -/

theorem test_putpixel_msrc_with_rop_is_refused : Instr.wellFormed (.putpixel 12 true) = false := by decide
theorem test_solidfill_msrc_with_rop_is_refused : Instr.wellFormed (.solidfill 1 true) = false := by decide
theorem test_solidline_msrc_with_rop_is_refused :
    Instr.wellFormed (.solidline 15 true true false false) = false := by decide
theorem test_solidfill_msrc_alone_is_accepted : Instr.wellFormed (.solidfill 0 true) = true := by decide

/-! ### Decoding: a written-out word of every command -/

theorem test_decode_control_and_codec :
    decode 0x00000000 = .ok .nop ∧ decode 0x00000010 = .ok .extract ∧ decode 0x00000011 = .ok .insert ∧
    decode 0x00000012 = .ok (.pix2rgb .dst) ∧ decode 0x00010012 = .ok (.pix2rgb .src) ∧
    decode 0x00010013 = .ok (.rgb2pix .src) := by decide

theorem test_decode_rop :
    decode 0x00000620 = .ok (.ropcodes 6) ∧ decode 0x00000621 = .ok (.ropmask 6) ∧
    decode 0x00000022 = .ok .ropapply ∧ decode 0x00000023 = .ok .ropapplym ∧
    decode 0x00000224 = .ok (.ropsrc 2) := by decide

theorem test_decode_pack :
    decode 0x00000030 = .ok (.pixaddr .dst) ∧ decode 0x00020031 = .ok (.unpack .bpp1) ∧
    decode 0x00040032 = .ok (.pack .bpp4) ∧ decode 0x00010033 = .ok (.getpixel .src) ∧
    decode 0x00000C34 = .ok (.putpixel 12 false) ∧ decode 0x00001034 = .ok (.putpixel 0 true) := by decide

theorem test_decode_dither :
    decode 0x00200040 = .ok (.dthresh .t16) ∧ decode 0x00100041 = .ok (.dcmp .t8) ∧
    decode 0x00000042 = .ok .dmono ∧ decode 0x00000043 = .ok .quant5 ∧
    decode 0x00008044 = .ok (.dconv1 true) := by decide

theorem test_decode_blit :
    decode 0x00000650 = .ok (.solidfill 6 false) ∧
    decode 0x08000C51 = .ok (.solidline 12 false true false false) ∧
    decode 0x10000C51 = .ok (.solidline 12 false false true false) ∧
    decode 0x20000C51 = .ok (.solidline 12 false false false true) ∧
    decode 0x00002C52 = .ok (.copyrect 12 true false) ∧ decode 0x00004C52 = .ok (.copyrect 12 false true) := by decide

theorem test_decode_pattern :
    decode 0x00000660 = .ok (.brushmask 6) ∧ decode 0x00000061 = .ok .patfill ∧
    decode 0x00000C62 = .ok (.maskfill 12) := by decide

theorem test_decode_scan :
    decode 0x00400070 = .ok (.stretchrow .or false false false) ∧
    decode 0x01800070 = .ok (.stretchrow .and true false false) ∧
    decode 0x02000071 = .ok (.shrinkrow .replace false true false) ∧
    decode 0x04000071 = .ok (.shrinkrow .replace false false true) := by decide

theorem test_decode_errors :
    decode 0x00000001 = .error .badop ∧ decode 0x00000072 = .error .badop ∧ decode 0x40000000 = .error .rsvd ∧
    decode 0x00001C50 = .error .rsvd ∧ decode 0x00300040 = .error .param ∧ decode 0x00C00070 = .error .param ∧
    decode 0x00000031 = .error .param ∧ decode 0x00060032 = .error .param := by decide

/-- The table's row for SHRINKROW, as the host numbers its bits. -/
theorem test_decodeTableWord :
    decodeTableWord 32 0x00000071 = some (.shrinkrow .replace false false false) ∧
    decodeTableWord 32 0x00C00071 = none := by decide

/-! ### Commands -/

/-- 60_exceptions R276. -/
theorem test_nop : exec .nop (at' Regs.reset []) = .next
    { State.reset with status := { State.reset.status with done := true } } := by rfl

/-- 41_codec R125, the example, and R122, the field past bit 31. -/
theorem test_extract :
    results (exec .extract (at' { Regs.reset with opa := 0x00007BEF, opb := 0x0000050B } [])) =
      some ([0x7B, 0, 0, 0], 0) ∧
    results (exec .extract (at' { Regs.reset with opa := 0x80000000, opb := 0x0000021F } [])) =
      some ([0x55, 0, 0, 0], 0) := by decide

/-- 41_codec R126, the example, and the width above 8. -/
theorem test_insert :
    results (exec .insert (at' { Regs.reset with opa := 0x0000007B, opb := 0x0000050B } [])) =
      some ([0x7800, 0, 0, 0], 0) ∧
    results (exec .insert (at' { Regs.reset with opa := 0x0000007B, opb := 0x0000090B } [])) =
      some ([0, 0, 0, 0], 3) := by decide

/-- A 16 bpp surface with 5, 6 and 5 bits, as in 41_codec R127. -/
def s565 : Surface := chans (surface 0x100 8 4 4 4) 0x050B 0x0605 0x0500

/-- 41_codec R127, the example. -/
theorem test_pix2rgb :
    results (exec (.pix2rgb .dst) (at' { Regs.reset with dst := s565, opa := 0x00007BEF } [])) =
      some ([0x007B7D7B, 0, 0, 0], 0) := by decide

/-- 41_codec R128, the example. -/
theorem test_rgb2pix :
    results (exec (.rgb2pix .dst) (at' { Regs.reset with dst := s565, opa := 0x007B7D7B } [])) =
      some ([0x00007BEF, 0, 0, 0], 0) := by decide

/-- 42_rop R147, R148, the examples. -/
theorem test_ropcodes_and_ropmask :
    results (exec (.ropcodes 6) (at' Regs.reset [])) = some ([0, 0xFFFFFFFF, 0xFFFFFFFF, 0], 0) ∧
    results (exec (.ropmask 6) (at' { Regs.reset with opa := 0x12345678 } [])) =
      some ([0xFFFFFFFF, 0x12345678, 0, 0], 0) := by decide

/-- 42_rop R149, R150, the examples. -/
theorem test_ropapply_and_ropapplym :
    results (exec .ropapply (at' { Regs.reset with opa := 0xAB, opb := 0xF0, opc := 0x0F } [])) =
      some ([0xAF, 0, 0, 0], 0) ∧
    results (exec .ropapplym (at' { Regs.reset with opa := 0xAB, opb := 0, opc := 0xFF, opd := 0x0F } [])) =
      some ([0xAF, 0, 0, 0], 0) := by decide

/-- 42_rop R151, the example. -/
theorem test_ropsrc :
    results (exec (.ropsrc 2) (at' { Regs.reset with opa := 0x0F0F0F0F, opb := 0x00FF00FF } [])) =
      some ([0x00F000F0, 0, 0, 0], 0) := by decide

/-- 43_pack R161, the example. -/
theorem test_pixaddr :
    results (exec (.pixaddr .dst) (at' { Regs.reset with
      dst := { surface 0x1000 4 1 0 0 with orgX := 3 }, opa := 6, opb := 2 } [])) =
      some ([0x1009, 0x40, 6, 1], 0) := by decide

/-- 43_pack R162, R163, the examples. -/
theorem test_unpack_and_pack :
    results (exec (.unpack .bpp1) (at' { Regs.reset with opa := 0xA5, opb := 2 } [])) = some ([1, 0, 0, 0], 0) ∧
    results (exec (.pack .bpp4) (at' { Regs.reset with opa := 0x12, opb := 1, opc := 0xF } [])) =
      some ([0x1F, 0, 0, 0], 0) := by decide

/-- 43_pack R164, the example. -/
theorem test_getpixel :
    results (exec (.getpixel .src) (at' { Regs.reset with src := surface 0x2000 12 5 4 4, opa := 1 }
      (from' 0x2003 [0x11, 0x22, 0x33]))) = some ([0x00332211, 0, 0, 0], 0) := by decide

/-- 43_pack R165, the example. -/
theorem test_putpixel :
    bytesOf (exec (.putpixel 12 false) (at' { Regs.reset with dst := surface 0x3000 4 2 8 1, fgPixel := 0xF, opa := 1 }
      (from' 0x3000 [0x12]))) 0x3000 2 = some [0x1F, 0] := by decide

/-- 45_dither R218, the examples. -/
theorem test_dthresh :
    results (exec (.dthresh .t16) (at' { Regs.reset with opa := 1 } [])) = some ([128, 0, 0, 0], 0) ∧
    results (exec (.dthresh .t8) (at' { Regs.reset with opa := 0xFFFFFFFF, opb := 0xFFFFFFFF } [])) =
      some ([21, 0, 0, 0], 0) := by decide

/-- 45_dither R219, the example. -/
theorem test_dcmp :
    results (exec (.dcmp .t4) (at' { Regs.reset with opa := 200, opb := 1 } [])) = some ([1, 128, 0, 0], 0) := by decide

/-- 45_dither R220, the examples. -/
theorem test_dmono :
    results (exec .dmono (at' { Regs.reset with opa := 0x00808080, opb := 1 } [])) = some ([1, 128, 0, 0], 0) ∧
    results (exec .dmono (at' { Regs.reset with opa := 0x00808080 } [])) = some ([0, 128, 0, 0], 0) := by decide

/-- 45_dither R221, the example. -/
theorem test_quant5 :
    results (exec .quant5 (at' { Regs.reset with opa := 0x00FF0807 } [])) = some ([0x00FC0C04, 0, 0, 0], 0) := by decide

/-- A mid-gray 32 bpp row and a 1 bpp row, as in 45_dither R222. -/
def ditherRegs : Regs :=
  rect { Regs.reset with
    dst := surface 0x40 4 1 4 4, src := chans (surface 0x80 16 6 4 4) 0x0810 0x0808 0x0800 } 0 0 4 1

/-- 45_dither R222, the first row of the example, with PAD (R223) over a byte that was not zero. -/
theorem test_dconv1 :
    bytesOf (exec (.dconv1 true) (at' ditherRegs (from' 0x40 [0x0F, 0xFF, 0, 0] ++ from' 0x80
      [0x80, 0x80, 0x80, 0, 0x80, 0x80, 0x80, 0, 0x80, 0x80, 0x80, 0, 0x80, 0x80, 0x80, 0]))) 0x40 4 =
      some [0x50, 0, 0, 0] := by decide

/-- 44_blit R181, the example. -/
theorem test_solidfill :
    bytesOf (exec (.solidfill 6 false) (at' (rect { Regs.reset with dst := surface 0x100 4 1 32 1, fgPixel := 1 }
      3 0 10 1) (from' 0x100 [0xFF]))) 0x100 4 = some [0xE0, 0xF8, 0, 0] := by decide

/-- The line of the example of 44_blit R184. -/
def lineRegs : Regs :=
  { Regs.reset with dst := surface 0x200 8 3 8 4, fgPixel := 0x11, errAdd1 := 0xFFFFFFFC, errAdd2 := 4, length := 5 }

/-- 44_blit R184, the example. -/
theorem test_solidline :
    bytesOf (exec (.solidline 12 false true false false) (at' lineRegs [])) 0x200 24 =
      some [0x11, 0x11, 0, 0, 0, 0, 0, 0, 0, 0, 0x11, 0x11, 0, 0, 0, 0, 0, 0, 0, 0, 0x11, 0, 0, 0] := by decide

/-- The self-overlapping row of the example of 44_blit R186. -/
def copyRegs : Regs :=
  rect { Regs.reset with dst := surface 0x300 8 3 8 1, src := surface 0x300 8 3 8 1 } 2 0 5 1

/-- 44_blit R186, the examples in both orders. -/
theorem test_copyrect :
    bytesOf (exec (.copyrect 12 true false) (at' copyRegs (from' 0x300 [1, 2, 3, 4, 5, 6, 7, 8]))) 0x300 8 =
      some [1, 2, 1, 2, 3, 4, 5, 8] ∧
    bytesOf (exec (.copyrect 12 false false) (at' copyRegs (from' 0x300 [1, 2, 3, 4, 5, 6, 7, 8]))) 0x300 8 =
      some [1, 2, 1, 2, 1, 2, 1, 8] := by decide

/-- The brush of the example of 46_pattern R232. -/
def brushRegs : Regs :=
  { Regs.reset with
    dst := surface 0x100 4 1 8 8, brAndBase := 0x600, brXorBase := 0x608, brStride := 1, hatchLo := 0x81, fgPixel := 1 }

/-- 46_pattern R232, the example. -/
theorem test_brushmask :
    bytesOf (exec (.brushmask 6) (at' brushRegs [])) 0x600 16 =
      some [0xFF, 0xFF, 0xFF, 0xFF, 0xFF, 0xFF, 0xFF, 0xFF, 0x81, 0, 0, 0, 0, 0, 0, 0] := by decide +kernel

/-- The pattern of the example of 46_pattern R233. -/
def patRegs : Regs :=
  rect { Regs.reset with
    dst := surface 0x400 4 3 4 2, brAndBase := 0x500, brXorBase := 0x510, brStride := 2, brW := 2, brH := 2,
    brAnchX := 1 } 0 0 4 2

/-- 46_pattern R233, the example. -/
theorem test_patfill :
    bytesOf (exec .patfill (at' patRegs (from' 0x510 [0x11, 0x22, 0x33, 0x44]))) 0x400 8 =
      some [0x22, 0x11, 0x22, 0x11, 0x44, 0x33, 0x44, 0x33] := by decide

/-- The stencil of the example of 46_pattern R235. -/
def maskRegs : Regs :=
  rect { Regs.reset with
    dst := surface 0x710 4 3 4 1, src := surface 0x700 1 1 8 1, fgPixel := 0x11, bgPixel := 0x22 } 0 0 4 1

/-- 46_pattern R235, the example. -/
theorem test_maskfill :
    bytesOf (exec (.maskfill 12) (at' maskRegs (from' 0x700 [0xA0]))) 0x710 4 = some [0x11, 0x22, 0x11, 0x22] := by
  decide

/-- Two pixels stretched to five with the constants of 47_scan R255. -/
def stretchRegs : Regs :=
  { Regs.reset with
    dst := surface 0x910 8 3 5 1, src := surface 0x900 8 3 2 1, errStart := 0xFFFFFFFE, errAdd1 := 0xFFFFFFFA,
    errAdd2 := 2, length := 5 }

/-- 47_scan R255: pixel 0 three times, then pixel 1 twice. -/
theorem test_stretchrow :
    bytesOf (exec (.stretchrow .replace false false false) (at' stretchRegs (from' 0x900 [0x0A, 0x0B]))) 0x910 5 =
      some [0x0A, 0x0A, 0x0A, 0x0B, 0x0B] := by decide

/-- The row of the example of 47_scan R253. -/
def shrinkRegs : Regs := { stretchRegs with dst := surface 0x910 2 3 2 1, src := surface 0x900 5 3 5 1 }

/-- 47_scan R253, the examples without and with KEEP. -/
theorem test_shrinkrow :
    bytesOf (exec (.shrinkrow .or false false false) (at' shrinkRegs
      (from' 0x900 [1, 2, 4, 0x10, 0x20] ++ from' 0x910 [0x80, 0x80]))) 0x910 2 = some [0x07, 0x30] ∧
    bytesOf (exec (.shrinkrow .or true false false) (at' shrinkRegs
      (from' 0x900 [1, 2, 4, 0x10, 0x20] ++ from' 0x910 [0x80, 0x80]))) 0x910 2 = some [0x87, 0xB0] := by decide

/-- The state in which a table row's word runs: it has just been accepted, and step runs it (log entry 2). -/
theorem test_withFetchWord_runs_the_word :
    results (step (State.reset.withFetchWord 32 0x00000620)) = some ([0, 0xFFFFFFFF, 0xFFFFFFFF, 0], 0) ∧
    results (step (State.reset.withFetchWord 32 0x00000001)) = some ([0, 0, 0, 0], 1) := by decide

/-! ### Witnesses: what the hypotheses of each statement ask for can be had -/

/-- `Memory.backs` as a computation. -/
theorem backs_of (m : Memory) (as : List Word) (h : (as.all fun a => !m.unbacked a.toNat) = true) : m.backs as := by
  intro a ha
  simpa using List.all_eq_true.mp h a ha

/-- `PixelsApart` as a computation. -/
def apartBool (V W : View) (p q : Int × Int) : Bool :=
  ((pixBytes V p.1 p.2).all fun a => !(pixBytes W q.1 q.2).contains a) ||
    ((pixAddr V p.1 p.2).addr == (pixAddr W q.1 q.2).addr && V.depth.subByte && W.depth.subByte &&
      (pixAddr V p.1 p.2).mask &&& (pixAddr W q.1 q.2).mask == 0)

theorem pixelsApart_of (V W : View) (p q : Int × Int) (h : apartBool V W p q = true) :
    PixelsApart V W p.1 p.2 q.1 q.2 := by
  simpa [apartBool, PixelsApart, and_assoc] using h

theorem apartFrom_of (V W : View) (ps qs : List (Int × Int))
    (h : (ps.all fun p => qs.all fun q => apartBool V W p q) = true) : ApartFrom V W ps qs := fun p hp q hq =>
  pixelsApart_of V W p q (List.all_eq_true.mp (List.all_eq_true.mp h p hp) q hq)

theorem apart_of (V : View) (ps : List (Int × Int))
    (h : (ps.all fun p => ps.all fun q => p == q || apartBool V V p q) = true) : Apart V ps := by
  intro p hp q hq hne
  have h1 := List.all_eq_true.mp (List.all_eq_true.mp h p hp) q hq
  simp only [Bool.or_eq_true, beq_iff_eq, hne, false_or] at h1
  exact pixelsApart_of V V p q h1

/-- The view of a surface whose format is not NULL. -/
def viewOf (S : Surface) : View :=
  match S.view with
  | none => { base := 0, stride := 0, depth := .bpp8, orgX := 0, orgY := 0, clipW := 0, clipH := 0 }
  | some V => V

theorem witness_DecodeAndEncodeAgree :
    decode 0x38000F51 = .ok (.solidline 15 false true true true) ∧
      WellFormed (.solidline 15 false true true true) ∧
      encode (.solidline 15 false true true true) = 0x38000F51 := by decide

theorem witness_DecodeChecksInOrder :
    (∀ m ∈ maskTable, m.1 ≠ (0x00000001 : Word).extractLsb' 0 8) ∧
    ((0x80000000 : Word).extractLsb' 0 8, 0x000000FF) ∈ maskTable ∧ reservedBits 0x80000000 0x000000FF ∧
    ((0x00001150 : Word).extractLsb' 0 8, 0x00001FFF) ∈ maskTable ∧ reservedBits 0x00001150 0x00001FFF ∧
    ((0x00300040 : Word).extractLsb' 0 8, 0x003000FF) ∈ maskTable ∧ ¬reservedBits 0x00300040 0x003000FF ∧
    reservedField 0x00300040 ∧
    ((0x00000F50 : Word).extractLsb' 0 8, 0x00001FFF) ∈ maskTable ∧ ¬reservedBits 0x00000F50 0x00001FFF ∧
    ¬reservedField 0x00000F50 := by
  unfold reservedBits reservedField
  refine ⟨by simp [maskTable], by decide, ?_, by decide, ?_, by decide, ?_, ?_, by decide, ?_, ?_⟩ <;> decide

/-- A running command word, with or without a turn of the engine to come. -/
def running (w : Word) (h : List HostEvent) : State := { at' Regs.reset [] with cmd := w, host := h }

theorem witness_StepRunsTheDecodedCommand :
    State.reset.host = [] ∧ State.reset.status.busy = false ∧
    (running 0x00000042 []).status.busy = true ∧ (running 0x00000042 []).raced = [] ∧
    (running 0x00000042 []).host = [] ∧ decode (running 0x00000042 []).cmd = .ok .dmono ∧
    (running 0x00000001 []).host = [] ∧ decode (running 0x00000001 []).cmd = .error .badop ∧
    (running 0x00000042 [.engine]).host = [.engine] ∧ decode (running 0x00000001 [.engine]).cmd = .error .badop := by
  decide

theorem witness_EveryCommandEnds :
    ∃ t, exec .extract (at' { Regs.reset with opb := 0x900 } []) = .next t ∧ t.status.err = true ∧
      (at' { Regs.reset with opb := 0x900 } []).status.err = false := ⟨_, rfl, rfl, rfl⟩

theorem witness_NullConditionsAreTheTable :
    (∃ t, exec .patfill (at' Regs.reset []) = .next t ∧ t.status.nullop = true ∧ nullCondition .patfill Regs.reset) ∧
    ∃ t, exec .patfill (at' patRegs []) = .next t ∧ t.status.nullop = false ∧ ¬nullCondition .patfill patRegs :=
  ⟨⟨_, rfl, rfl, .inl rfl⟩, ⟨_, rfl, by decide, by unfold nullCondition formatNull; decide⟩⟩

theorem witness_ErrorCausesOfCommands :
    (∃ t, exec .patfill (at' { patRegs with brW := 0 } []) = .next t ∧ t.status.err = true ∧ t.status.errcode = 3) ∧
    (∃ t, exec .patfill (at' { patRegs with rectX := 1 } []) = .next t ∧ t.status.err = true ∧ t.status.errcode = 4) ∧
    ∃ t, exec .patfill (at' patRegs []) = .next t ∧ t.status.err = false :=
  ⟨⟨_, rfl, by decide, by decide⟩, ⟨_, rfl, by decide, by decide⟩, ⟨_, rfl, by decide⟩⟩

theorem witness_ExtractReplicatesTheField :
    8 < ((0x0000091F : Word).extractLsb' 8 4).toNat ∧ ((0x0000081F : Word).extractLsb' 8 4).toNat = 8 ∧
    ((0x0000011F : Word).extractLsb' 8 4).toNat = 1 ∧ ((0x0000001F : Word).extractLsb' 8 4).toNat = 0 := by decide

theorem witness_InsertPlacesTheTopBits :
    results (exec .insert (at' { Regs.reset with opa := 0xFF, opb := 0x091F } [])) = some ([0, 0, 0, 0], 3) ∧
    results (exec .insert (at' { Regs.reset with opa := 0xFF, opb := 0x081F } [])) =
      some ([0x80000000, 0, 0, 0], 0) := by decide

theorem witness_InsertOfExtractIsTheField :
    31 ≤ 31 ∧ 8 ≤ 8 ∧ insertChan (extractChan 0xFFFFFFFF 31 8) 31 8 = 0x80000000 := by decide

theorem witness_ExtractCornerCases :
    (31 : Nat) ≤ 31 ∧ 1 ≤ 2 ∧ 2 ≤ 8 ∧ 32 ≤ 31 + 1 ∧ 1 < 2 ∧ extractChan 0x80000000 31 2 = 0x55 := by decide

theorem witness_PixelAndRgbConversions :
    ¬formatBitfield (surface 0 0 3 0 0).format ∧ formatBitfield (chans s565 0x0900 0 0).format ∧
    wideChannel (chans s565 0x0900 0 0) ∧ s565.format = 4 ∧ ¬wideChannel s565 ∧
    (surface 0 0 5 0 0).format = 5 ∧ ¬wideChannel (surface 0 0 5 0 0) ∧
    (surface 0 0 6 0 0).format = 6 ∧ ¬wideChannel (chans (surface 0 0 6 0 0) 0x0818 0x0808 0x0800) := by
  unfold formatBitfield wideChannel; decide

/-- A 32 bpp surface with 8-bit channels. -/
def s888 : Surface := chans (surface 0x200 16 6 4 4) 0x0810 0x0808 0x0800

theorem witness_ConversionToWiderChannelsIsLossless :
    depthOf s565.format = some .bpp16 ∧ depthOf s888.format = some .bpp32 ∧ ChannelsFit s565 .bpp16 ∧
    ChannelsFit s888 .bpp32 ∧ s565.chanR.width ≤ s888.chanR.width ∧ s565.chanG.width ≤ s888.chanG.width ∧
    s565.chanB.width ≤ s888.chanB.width := by
  unfold ChannelsFit wideChannel; decide

theorem witness_PixaddrGivesThePlace :
    formatNull (surface 0 0 7 0 0).format ∧ (surface 0 0 7 0 0).view = none ∧
    ¬formatNull (surface 0x80000000 0xFFFFFFFC 6 0xFFFFFFFF 1).format ∧
    ((viewOf (surface 0x80000000 0xFFFFFFFC 6 0xFFFFFFFF 1)).base = 0x80000000 ∧
      (viewOf (surface 0x80000000 0xFFFFFFFC 6 0xFFFFFFFF 1)).stride = -4 ∧
      (viewOf (surface 0x80000000 0xFFFFFFFC 6 0xFFFFFFFF 1)).clipW = 4294967295) ∧ (viewOf (surface 0 0 1 0 0)).depth = .bpp1 ∧
    (viewOf (surface 0 0 2 0 0)).depth = .bpp4 ∧ (viewOf (surface 0 0 6 0 0)).depth ≠ .bpp1 ∧
    (viewOf (surface 0 0 6 0 0)).depth ≠ .bpp4 ∧
    results (exec (.pixaddr .dst) (at' { Regs.reset with dst := surface 0 0 2 0 0, opa := 0xFFFFFFFF } [])) =
      some ([0xFFFFFFFF, 0x0F, 0, 4], 0) := by
  unfold formatNull; decide

/-- A 4 bpp row whose first byte holds the pixels 1 and 2, with the byte in OPA and its second column in OPB. -/
def nibbleState : State :=
  at' { Regs.reset with dst := surface 0x3000 4 2 8 1, opa := 0xFF12, opb := 1, opc := 0xAF } (from' 0x3000 [0x12])

theorem witness_PackerAgreesWithPixelAccess :
    nibbleState.mem.wf = true ∧ (viewOf nibbleState.regs.dst).depth = .bpp4 ∧
    (pixAddr (viewOf nibbleState.regs.dst) 1 0).addr = 0x3000 ∧ nibbleState.mem.unbacked 0x3000 = false ∧
    nibbleState.regs.opa.extractLsb' 0 8 = nibbleState.mem.read 0x3000 ∧
    nibbleState.regs.opb = word ((viewOf nibbleState.regs.dst).orgX + 1) ∧
    (viewOf (surface 0 0 1 0 0)).depth = .bpp1 := by decide

theorem witness_GetpixelReadsThePixel :
    Surface.reset.view = none ∧
    results (exec (.getpixel .dst) (at' { Regs.reset with dst := surface 0x3000 4 2 8 1, opa := 8 } [])) =
      some ([0, 0, 0, 0], 4) ∧
    results (exec (.getpixel .dst) (at' { Regs.reset with dst := surface 0x3000 4 2 8 1, opa := 7 }
      (from' 0x3003 [0x45]))) = some ([5, 0, 0, 0], 0) ∧
    results (exec (.getpixel .dst) (at' { Regs.reset with dst := surface 0x3000 4 4 2 1, opa := 1 }
      (from' 0x3002 [0x45, 0x67]))) = some ([0x6745, 0, 0, 0], 0) := by decide

theorem witness_PutpixelWritesThePixel :
    results (exec (.putpixel 12 false) (at' { Regs.reset with dst := surface 0x3000 4 2 8 1, opb := 1 } [])) =
      some ([0, 0, 0, 0], 4) ∧
    bytesOf (exec (.putpixel 0 true) (at' { Regs.reset with
      dst := surface 0x3000 4 2 8 1, opa := 7, maskXor := 0xFF } [])) 0x3003 1 = some [0x0F] := by decide

theorem witness_PixelReadsBackAsWritten :
    nibbleState.mem.wf = true ∧ nibbleState.mem.backs (pixBytes (viewOf nibbleState.regs.dst) 0 0) ∧
    PixelsApart (viewOf nibbleState.regs.dst) (viewOf nibbleState.regs.dst) 0 0 1 0 ∧
    PixelsApart (viewOf nibbleState.regs.dst) (viewOf nibbleState.regs.dst) 0 0 2 0 := by
  exact ⟨by decide, backs_of _ _ (by decide), pixelsApart_of _ _ (0, 0) (1, 0) (by decide),
    pixelsApart_of _ _ (0, 0) (2, 0) (by decide)⟩

theorem witness_ThresholdCommands :
    (MatrixSize.t16 = .t16 ∧ 1 = 1) ∧ ((0xABCDEF00 : Word).extractLsb' 0 8 = 0) ∧
    ((0xABCDEFFF : Word).extractLsb' 0 8 = 255) := by decide

theorem witness_MonochromeComparator :
    (30 * ((0x00FFFFFF : Word).extractLsb' 16 8).toNat + 59 * ((0x00FFFFFF : Word).extractLsb' 8 8).toNat +
      11 * ((0x00FFFFFF : Word).extractLsb' 0 8).toNat) / 100 = 255 ∧ (0xFF000000 : Word).extractLsb' 0 24 = 0 := by
  decide

/-- A state for DCONV1 whose two rows lie apart. -/
def ditherState : State := at' ditherRegs (from' 0x80 [0x80, 0x80, 0x80, 0, 0xFF, 0xFF, 0xFF, 0])

theorem witness_DitheredConversion :
    formatBitfield ditherRegs.src.format ∧ ditherRegs.dst.format = 1 ∧ ¬wideChannel ditherRegs.src ∧
    (viewOf ditherRegs.dst).rectInside 0 0 4 1 = true ∧ (viewOf ditherRegs.src).rectInside 0 0 4 1 = true ∧
    (viewOf ditherRegs.dst).rectInside 0 0 5 1 = false ∧ wideChannel (chans ditherRegs.src 0x0900 0 0) ∧
    ¬formatBitfield Surface.reset.format := by
  unfold formatBitfield wideChannel; decide

theorem witness_DitheredPixels :
    ditherState.mem.wf = true ∧ ditherRegs.dst.view = some (viewOf ditherRegs.dst) ∧
    ditherRegs.src.view = some (viewOf ditherRegs.src) ∧
    Apart (viewOf ditherRegs.dst) (rectPoints 0 0 4 1) ∧
    ApartFrom (viewOf ditherRegs.dst) (viewOf ditherRegs.src) (rectPoints 0 0 4 1) (rectPoints 0 0 4 1) ∧
    ditherState.mem.backs (pixelBytes (viewOf ditherRegs.dst) (rectPoints 0 0 4 1)) ∧
    ditherState.mem.backs (pixelBytes (viewOf ditherRegs.src) (rectPoints 0 0 4 1)) ∧
    ∃ t, exec (.dconv1 false) ditherState = .next t := by
  refine ⟨by decide, by decide, by decide, ?_, ?_, ?_, ?_, ⟨_, rfl⟩⟩
  · exact apart_of _ _ (by decide)
  · exact apartFrom_of _ _ _ _ (by decide +kernel)
  · exact backs_of _ _ (by decide +kernel)
  · exact backs_of _ _ (by decide +kernel)

theorem witness_PaddingClearsTheRestOfTheRow :
    ditherState.mem.wf = true ∧ (viewOf ditherRegs.dst).stride = 4 ∧
    (∀ k < 4, ditherState.mem.unbacked (word (64 + (k : Nat))).toNat = false) ∧
    ((padRow (viewOf ditherRegs.dst) (at' ditherRegs (from' 0x40 [0xFF, 0xFF])).mem 0 3).read 0x40) = 0xE0 := by
  decide

theorem witness_SolidfillVisitsItsRectangle :
    Surface.reset.view = none ∧ copyRegs.dst.view = some (viewOf copyRegs.dst) ∧
    results (exec (.solidfill 12 false) (at' (rect copyRegs 4 0 5 1) [])) = some ([0, 0, 0, 0], 4) ∧
    bytesOf (exec (.solidfill 12 false) (at' { rect copyRegs 4 0 4 1 with fgPixel := 7 } [])) 0x303 6 =
      some [0, 7, 7, 7, 7, 0] ∧
    bytesOf (exec (.solidfill 12 false) (at' { rect copyRegs 9 9 0 1 with fgPixel := 7 } [])) 0x303 2 =
      some [0, 0] := by decide

/-- The 4 bpp row with a rectangle of three pixels, whose last shares its byte with a pixel outside. -/
def nibbleFill : State := { nibbleState with regs := rect nibbleState.regs 0 0 3 1 }

theorem witness_SolidfillUpdatesEachPixelOnce :
    nibbleFill.mem.wf = true ∧ nibbleFill.regs.dst.view = some (viewOf nibbleFill.regs.dst) ∧
    nibbleFill.regs.rectX.toInt = 0 ∧ nibbleFill.regs.rectY.toInt = 0 ∧ nibbleFill.regs.rectW.toNat = 3 ∧
    nibbleFill.regs.rectH.toNat = 1 ∧ (viewOf nibbleFill.regs.dst).rectInside 0 0 3 1 = true ∧
    Apart (viewOf nibbleFill.regs.dst) (rectPoints 0 0 3 1) ∧
    nibbleFill.mem.backs (pixelBytes (viewOf nibbleFill.regs.dst) (rectPoints 0 0 3 1)) ∧
    nibbleFill.mem.backs (pixBytes (viewOf nibbleFill.regs.dst) 3 0) ∧
    ApartFrom (viewOf nibbleFill.regs.dst) (viewOf nibbleFill.regs.dst) (rectPoints 0 0 3 1) [(3, 0)] := by
  refine ⟨by decide, by decide, by decide, by decide, by decide, by decide, by decide, ?_, ?_, ?_, ?_⟩
  · exact apart_of _ _ (by decide)
  · exact backs_of _ _ (by decide +kernel)
  · exact backs_of _ _ (by decide)
  · exact apartFrom_of _ _ _ _ (by decide)

theorem witness_CopyFillIsIdempotent :
    (at' copyRegs []).mem.wf = true ∧ copyRegs.dst.view = some (viewOf copyRegs.dst) ∧
    (at' copyRegs []).mem.backs (pixelBytes (viewOf copyRegs.dst) (rectPoints 2 0 5 1)) ∧
    (∃ t, exec (.solidfill 12 false) (at' copyRegs []) = .next t) ∧
    ∃ t, exec (.solidfill 10 false) (at' copyRegs []) = .next t := by
  refine ⟨by decide, by decide, ?_, ⟨_, rfl⟩, ⟨_, rfl⟩⟩
  exact backs_of _ _ (by decide +kernel)

theorem witness_SolidlineFollowsItsWalk :
    lineRegs.dst.view = some (viewOf lineRegs.dst) ∧
    results (exec (.solidline 12 false true false false) (at' { lineRegs with rectX := 4 } [])) =
      some ([0, 0, 0, 0], 4) ∧
    results (exec (.solidline 12 false true false false) (at' { lineRegs with rectX := 3 } [])) =
      some ([0, 0, 0, 0], 0) ∧
    results (exec (.solidline 12 false true true true) (at' { lineRegs with length := 0 } [])) =
      some ([0, 0, 0, 0], 0) := by decide

theorem witness_BresenhamLineReachesItsEnd :
    (2 ≤ 4 ∧ 4 < 2 ^ 29) ∧
    lineWalk (word (2 * (2 - 4))) (word (2 * 2)) true 1 1 5 0 0 (word (2 * 2 - 4)) =
      [(0, 0), (1, 0), (2, 1), (3, 1), (4, 2)] ∧
    lineWalk (word 0) (word 0) false 1 1 1 0 0 (word 0) = [(0, 0)] := by decide

theorem witness_CopyrectCopiesInTheChosenOrder :
    formatNull Surface.reset.format ∧ (surface 0 0 3 0 0).format ≠ (surface 0 0 4 0 0).format ∧
    (viewOf copyRegs.src).depth = (viewOf copyRegs.dst).depth ∧
    (viewOf copyRegs.dst).rectInside 2 0 6 1 = true ∧ (viewOf copyRegs.dst).rectInside 2 0 7 1 = false := by
  unfold formatNull; decide

/-- A surface of three rows of four bytes. -/
def s3x4 : View := viewOf (surface 0x300 4 3 4 3)

theorem witness_OverlappingCopyReadsTheSourceFirst :
    (at' copyRegs []).mem.wf = true ∧ (viewOf copyRegs.src).base = (viewOf copyRegs.dst).base ∧
    (viewOf copyRegs.dst).rectInside 2 0 5 1 = true ∧ (viewOf copyRegs.src).rectInside 0 0 5 1 = true ∧
    Apart (viewOf copyRegs.dst) (rectPoints 2 0 5 1 ++ rectPoints (2 - 2) (0 - 0) 5 1) ∧
    Apart s3x4 (rectPoints 0 1 2 2 ++ rectPoints (0 - -1) (1 - 1) 2 2) ∧
    Apart s3x4 (rectPoints 0 0 2 2 ++ rectPoints (0 - -1) (0 - -1) 2 2) ∧
    (at' copyRegs []).mem.backs (pixelBytes (viewOf copyRegs.dst) (rectPoints 2 0 5 1)) := by
  refine ⟨by decide, by decide, by decide, by decide, ?_, ?_, ?_, ?_⟩
  · exact apart_of _ _ (by decide +kernel)
  · exact apart_of _ _ (by decide +kernel)
  · exact apart_of _ _ (by decide +kernel)
  · exact backs_of _ _ (by decide +kernel)

theorem witness_BrushmaskBuildsTheImages :
    Surface.reset.view = none ∧ brushRegs.dst.view = some (viewOf brushRegs.dst) := by decide

theorem witness_PatfillTilesTheBrush :
    patRegs.dst.view = some (viewOf patRegs.dst) ∧ patRegs.brW.toNat ≠ 0 ∧ patRegs.brH.toNat ≠ 0 ∧
    (viewOf patRegs.dst).rectInside 0 0 4 2 = true ∧ (viewOf patRegs.dst).rectInside 0 0 4 3 = false ∧
    results (exec .patfill (at' { patRegs with brW := 0, rectW := 0 } [])) = some ([0, 0, 0, 0], 3) ∧
    results (exec .patfill (at' { patRegs with rectX := 9, rectW := 0 } [])) = some ([0, 0, 0, 0], 0) := by decide

theorem witness_SplitPatternFillIsSeamless :
    (at' patRegs []).mem.wf = true ∧ (patRegs.dstRect (viewOf patRegs.dst)).inside = true ∧
    Apart (viewOf patRegs.dst) (rectPoints 0 0 4 2) ∧
    (at' patRegs []).mem.backs (patRegs.dstRect (viewOf patRegs.dst)).bytes ∧
    (at' patRegs []).mem.backs (patRegs.brushBytes (patRegs.dstRect (viewOf patRegs.dst))) ∧
    (∀ a ∈ patRegs.brushBytes (patRegs.dstRect (viewOf patRegs.dst)),
      a ∉ (patRegs.dstRect (viewOf patRegs.dst)).bytes) ∧
    ((1 : Word).toInt = 0 + ((1 : Word).toNat : Int) ∧ (1 : Word).toNat + (3 : Word).toNat = 4) ∧
    ((1 : Word).toInt = 0 + ((1 : Word).toNat : Int) ∧ (1 : Word).toNat + (1 : Word).toNat = 2) ∧
    ∃ t, exec .patfill (at' patRegs []) = .next t := by
  refine ⟨by decide, by decide, ?_, ?_, ?_, ?_, by decide, by decide, ⟨_, rfl⟩⟩
  · exact apart_of _ _ (by decide +kernel)
  · exact backs_of _ _ (by decide +kernel)
  · exact backs_of _ _ (by decide +kernel)
  · intro a ha
    exact by simpa using List.all_eq_true.mp (show (patRegs.brushBytes (patRegs.dstRect (viewOf patRegs.dst))).all
      (fun a => !(patRegs.dstRect (viewOf patRegs.dst)).bytes.contains a) = true by decide +kernel) a ha

theorem witness_MaskfillSelectsByTheStencil :
    (surface 0 0 2 0 0).format ≠ 1 ∧ maskRegs.src.view = some (viewOf maskRegs.src) ∧
    (viewOf maskRegs.src).depth = .bpp1 ∧ (viewOf maskRegs.dst).rectInside 0 0 4 1 = true ∧
    (viewOf maskRegs.dst).rectInside 0 0 5 1 = false ∧ (viewOf maskRegs.src).rectInside 0 0 4 1 = true := by decide

theorem witness_StretchrowRepeatsPixels :
    formatNull (7 : BitVec 3) ∧ (viewOf stretchRegs.src).depth = (viewOf stretchRegs.dst).depth ∧
    (∀ k ∈ stretchRegs.stretchSteps false false,
      (viewOf stretchRegs.src).inside k.sx 0 = true ∧ (viewOf stretchRegs.dst).inside k.dx 0 = true) ∧
    results (exec (.stretchrow .or true false false) (at' { stretchRegs with rectX := 1 } [])) =
      some ([0, 0, 0, 0], 4) := by
  refine ⟨.inr rfl, by decide, by decide, by decide⟩

theorem witness_ShrinkrowCombinesPixels :
    (viewOf shrinkRegs.src).depth = (viewOf shrinkRegs.dst).depth ∧
    (∀ k ∈ shrinkRegs.shrinkSteps false false,
      (viewOf shrinkRegs.src).inside k.sx 0 = true ∧ (viewOf shrinkRegs.dst).inside k.dx 0 = true) ∧
    results (exec (.shrinkrow .and true false false) (at' { shrinkRegs with srcX := 1 } [])) =
      some ([0, 0, 0, 0], 4) := by decide

theorem witness_ScanConstantsCoverBothRows :
    (1 ≤ 2 ∧ 1 ≤ 5 ∧ 4 < 2 ^ 29 ∧ 2 ≤ 5 ∧ 4 = 5 - 1 ∧ 1 = 2 - 1) ∧
    (stretchWalk (word (2 * (1 - 4))) (word (2 * 1)) 1 1 5 0 0 (word (2 * 1 - 4))).map ScanStep.sx =
      [0, 0, 0, 1, 1] ∧
    (shrinkWalk (word (2 * (1 - 4))) (word (2 * 1)) 1 1 5 0 0 true (word (2 * 1 - 4))).map ScanStep.dx =
      [0, 0, 0, 1, 1] := by decide

/-- A host access to an idle or a busy block. -/
def hosted (busy : Bool) (h : List HostEvent) : State :=
  { State.reset with status := { State.reset.status with busy := busy }, host := h }

theorem witness_RopmaskFollowsTheTruthTable :
    31 < 32 ∧ results (exec (.ropmask 8) (at' { Regs.reset with opa := 0x80000001 } [])) =
      some ([0x80000001, 0, 0, 0], 0) := by decide

theorem witness_ValuesCombineBitByBit :
    31 < 32 ∧ ((0x7FFFFFFF : Word).getLsbD 31 = false ∧ (0x7FFFFFFF : Word).getLsbD 30 = true) ∧
    results (exec .ropapplym (at' { Regs.reset with opa := 0x80000000, opc := 0xFFFFFFFF, opd := 0x7FFFFFFF } [])) =
      some ([0xFFFFFFFF, 0, 0, 0], 0) := by decide

/-- Words of UNPACK, DTHRESH and STRETCHROW with a reserved field, and of SOLIDLINE with MSRC = 1 and a ROP. -/
theorem witness_UnpackAndPackOnePixel :
    ((0x000E0031 : Word).extractLsb' 0 8 = 0x31 ∧ (0x000E0031 : Word) &&& ~~~0x000E00FF = 0 ∧
      (0x000E0031 : Word).extractLsb' 17 3 ∉ [(1 : BitVec 3), 2]) ∧
    ((0x00300040 : Word).extractLsb' 20 2 ∉ [(0 : BitVec 2), 1, 2]) ∧
    ((0x00C00070 : Word).extractLsb' 22 2 ∉ [(0 : BitVec 2), 1, 2]) ∧
    ((0x38001151 : Word).extractLsb' 0 8 = 0x51 ∧ (0x38001151 : Word).getLsbD 12 = true ∧
      (0x38001151 : Word).extractLsb' 8 4 ≠ 0) ∧ decode 0x38001151 = .error .rsvd := by decide

theorem witness_ThresholdTablesAreBayer :
    255 < tableSide .t16 * tableSide .t16 ∧ thresh .t16 (-1) (-1) = 85 ∧ thresh .t4 (-4) 7 = 15 := by decide

theorem witness_LineWalkInClosedForm :
    (-1 : Int) = (if true then -1 else 1) ∧ (1 : Int) = (if false then -1 else 1) ∧
    lineWalk 0 0 true (-1) 1 2 0 0 1 = [(0, 0), (-1, 1)] ∧ lineWalk 0 0 false (-1) 1 0 5 5 1 = [] := by decide

theorem witness_ScanWalksInClosedForm :
    5 = stretchRegs.length.toNat ∧ (-1 : Int) = (if true then -1 else 1) ∧
    (stretchRegs.stretchSteps true false).map ScanStep.sx = [0, 0, 0, -1, -1] ∧
    (stretchRegs.shrinkSteps false true).map ScanStep.new = [true, false, false, true, false] := by decide

theorem witness_CmdWriteStartsACommand :
    (hosted false [.mmioWrite 32 0x00C 0x50]).status.busy = false ∧
    (hosted true [.mmioWrite 32 0x00C 0x50]).status.busy = true ∧
    (hosted true [.mmioWrite 32 0x00C 0x50]).host = [.mmioWrite 32 0x00C 0x50] := by decide

theorem witness_BusyBlockDropsWrites :
    wordOffset 0x00C ∧ dropped 0x00C ∧ dropped 0x01C ∧ dropped 0x030 ∧ dropped 0x064 ∧ dropped 0x080 ∧
    dropped 0x0A4 ∧ dropped 0x0C0 ∧ dropped 0x0E0 ∧ dropped 0x100 ∧ dropped 0x114 ∧ dropped 0x120 ∧
    wordOffset 0x12C ∧ dropped 0x12C ∧ ¬dropped 0x000 ∧ ¬dropped 0x004 ∧ ¬dropped 0x008 ∧ ¬dropped 0x020 ∧
    ¬dropped 0x02C ∧ ¬dropped 0x068 ∧ ¬dropped 0x1FC ∧ wordOffset 0x1FC ∧ (1 : Word).getLsbD 1 = false := by
  unfold wordOffset dropped; simp

theorem witness_ReservedOffsetsReadZero :
    reserved 0x068 ∧ reserved 0x07C ∧ reserved 0x0A8 ∧ reserved 0x0BC ∧ reserved 0x0E4 ∧ reserved 0x0FC ∧
    reserved 0x118 ∧ reserved 0x11C ∧ reserved 0x130 ∧ wordOffset 0x1FC ∧ reserved 0x1FC ∧
    ¬reserved 0x064 ∧ ¬reserved 0x080 ∧ ¬reserved 0x12C := by
  unfold wordOffset reserved; simp

theorem witness_RegisterReadsBackAsWritten :
    (hosted false [.mmioWrite 32 0x0A4 0xFFFFFFFF, .mmioRead 32 0x0A4]).status.busy = false ∧
    (hosted false [.mmioWrite 32 0x0A4 0xFFFFFFFF, .mmioRead 32 0x0A4]).host =
      .mmioWrite 32 0x0A4 0xFFFFFFFF :: [.mmioRead 32 0x0A4] ∧
    (0x010, fun r v => { r with opa := v }) ∈ registerTable ∧ (0x12C, fun r v => { r with length := v }) ∈ registerTable ∧
    (0x0A4, fun r v => { r with src.chanB := chanBits v }) ∈ registerTable ∧ storedBits 0x0A4 = 0x00000F1F ∧ storedBits 0x048 = 7 ∧ storedBits 0x12C = 0xFFFFFFFF := by
  refine ⟨by decide, by decide, ?_, ?_, ?_, by decide, by decide, by decide⟩ <;> simp [registerTable]

theorem witness_HostReadsAndStatusClears :
    (hosted false [.mmioWrite 32 0x008 0x1E]).host = [.mmioWrite 32 0x008 0x1E] ∧
    wordOffset 0x000 ∧ wordOffset 0x1FC ∧ (hosted true [.mmioRead 32 0x1FC]).host = [.mmioRead 32 0x1FC] ∧
    (at' Regs.reset []).readOffset 0x008 = 1 := by
  unfold wordOffset; decide

theorem witness_ResetFromAnyState :
    (hosted true [.hardReset]).host = [.hardReset] ∧
    ((2 : Word).getLsbD 1 = true ∧ (hosted false [.mmioWrite 32 0x004 2]).host = [.mmioWrite 32 0x004 2]) ∧
    (hosted false [.hardReset]).status.busy = false ∧
    { at' copyRegs [] with cmd := 0x0C50 }.mem.backs (wordFootprint 0x0C50 copyRegs).writes := by
  refine ⟨by decide, by decide, by decide, ?_⟩
  exact backs_of _ _ (by decide +kernel)

theorem witness_OnlyUndefinedAccessesAreRefused :
    step (hosted false [.mmioRead 16 0]) = .refused (.mmioWidth 16) ∧
    step (hosted false [.mmioWrite 32 2 0]) = .refused (.mmioAlignment 2) ∧
    step (hosted true [.mmioRead 32 0x200]) = .refused (.mmioOutside 0x200) := ⟨rfl, rfl, rfl⟩

theorem witness_HostMemoryReadsBack :
    (hosted false [.memWrite 5 0x77, .memRead 5]).mem.wf = true ∧
    (hosted false [.memWrite 5 0x77, .memRead 5]).mem.unbacked 5 = false ∧
    (hosted false [.memWrite 5 0x77, .memRead 5]).host = [.memWrite 5 0x77, .memRead 5] := by decide

/-- A fill that the host raced by a write to its first byte. -/
def racedState : State := { at' copyRegs [] with cmd := 0x0C50, raced := [(0x302, 0)] }

theorem witness_RacedCommandStillCompletes :
    racedState.host = [] ∧ racedState.status.busy = true ∧ racedState.raced ≠ [] ∧
    racedState.mem.backs (wordFootprint racedState.cmd racedState.regs).writes := by
  refine ⟨by decide, by decide, by decide, ?_⟩
  exact backs_of _ _ (by decide +kernel)

theorem witness_CommandsWriteOnlyTheirFootprint :
    (∃ t, exec (.solidfill 12 false) (at' copyRegs []) = .next t) ∧
    (footprint (.solidfill 12 false) copyRegs).writes = [0x302, 0x303, 0x304, 0x305, 0x306] ∧
    (footprint (.dconv1 true) ditherRegs).writes = [0x40, 0x40, 0x40, 0x40, 0x40, 0x41, 0x42, 0x43] ∧
    (at' copyRegs []).mem.backs (footprint (.solidfill 12 false) copyRegs).writes := by
  refine ⟨⟨_, rfl⟩, by decide, by decide, ?_⟩
  exact backs_of _ _ (by decide +kernel)

theorem witness_BusyKeepsTheCommandsRegisters :
    (∃ t, step (hosted false [.mmioWrite 32 0x00C 0x50]) = .next t ∧ t.status.busy = true) ∧
    ∃ t, step (hosted true [.mmioWrite 32 0x010 1]) = .next t ∧ t.status.busy = true :=
  ⟨⟨_, rfl, rfl⟩, ⟨_, rfl, rfl⟩⟩

theorem witness_EveryStepKeepsTheInvariant :
    racedState.inv = true ∧ (∃ t, step racedState = .next t) ∧ (at' copyRegs []).inv = true ∧
    ∃ t, step (at' copyRegs []) = .next t := ⟨by decide, ⟨_, rfl⟩, by decide, ⟨_, rfl⟩⟩

end Sys2Proof.Tests
end

section
/-! PROOFS. The bus layer: which register an offset names, what a write to each kind of register does, and what a
register reads after a write to it or to another (10_state R20 to R46). -/

namespace Sys2Proof.Machine

open Sys2Proof.Claims

/-! ### Offsets and registers -/

/-- The registers that commands read, in the order of the map (10_state R22, R37). -/
def Reg.operands : List Reg :=
  [.opa, .opb, .opc, .opd, .fgPixel, .bgPixel, .maskAnd, .maskXor] ++ (Reg.surfaces ++ Reg.upper)

/-- The printed table is the model's map, row by row. -/
theorem registerTable_eq :
    registerTable = Reg.operands.map fun r => (r.offset, fun regs v => regs.set r v) := rfl

@[simp] theorem Reg.ofOffset_offset (r : Reg) : Reg.ofOffset r.offset = some r := by
  cases r with
  | surf d f => cases d <;> cases f <;> rfl
  | _ => rfl

theorem Reg.ofOffset_eq_some_iff (off : Nat) (r : Reg) : Reg.ofOffset off = some r ↔ r.offset = off := by
  constructor
  · intro h
    simpa using List.find?_some h
  · rintro rfl
    exact r.ofOffset_offset

theorem Reg.offset_injective : Function.Injective Reg.offset := by
  intro r r' h
  have hr : Reg.ofOffset r'.offset = some r := (Reg.ofOffset_eq_some_iff _ r).2 h
  simpa using hr.symm

theorem Reg.not_reserved_offset (r : Reg) : ¬reserved r.offset := by
  unfold reserved
  cases r with
  | surf d f => cases d <;> cases f <;> decide
  | _ => decide

theorem Reg.ofOffset_of_reserved {off : Nat} (h : reserved off) : Reg.ofOffset off = none := by
  cases hr : Reg.ofOffset off with
  | none => rfl
  | some r =>
    have hoff : r.offset = off := (Reg.ofOffset_eq_some_iff off r).1 hr
    exact absurd (hoff ▸ h) r.not_reserved_offset

/-- The operands stand at the dropped word offsets, less CMD's. One direction is a check of the list, the other a check
of the block's 128 words. -/
theorem Reg.mem_operands_offset_iff (off : Nat) :
    off ∈ Reg.operands.map Reg.offset ↔ wordOffset off ∧ dropped off ∧ off ≠ 0x00C := by
  constructor
  · have listed : ∀ o ∈ Reg.operands.map Reg.offset, wordOffset o ∧ dropped o ∧ o ≠ 0x00C := by
      unfold wordOffset dropped
      decide
    exact listed off
  · have words : ∀ k < 128, dropped (4 * k) → 4 * k ≠ 0x00C → 4 * k ∈ Reg.operands.map Reg.offset := by
      unfold dropped
      decide
    rintro ⟨⟨hmod, hlt⟩, hd, hne⟩
    obtain ⟨k, rfl⟩ : ∃ k, off = 4 * k := ⟨off / 4, by omega⟩
    exact words k (by omega) hd hne

/-- A dropped word offset is CMD's or an operand's. -/
theorem Reg.of_dropped {off : Nat} (hw : wordOffset off) (hd : dropped off) :
    ∃ r : Reg, r.offset = off ∧ (r = .cmd ∨ r ∈ Reg.operands) := by
  by_cases hc : off = 0x00C
  · exact ⟨.cmd, hc.symm, .inl rfl⟩
  · obtain ⟨r, hr, hoff⟩ := List.mem_map.1 ((Reg.mem_operands_offset_iff off).2 ⟨hw, hd, hc⟩)
    exact ⟨r, hoff, .inr hr⟩

/-! ### Reads and writes by offset -/

@[simp] theorem State.readOffset_offset (s : State) (r : Reg) : s.readOffset r.offset = s.readReg r := by
  simp [State.readOffset]

theorem State.readOffset_of_reserved (s : State) {off : Nat} (h : reserved off) : s.readOffset off = 0 := by
  simp [State.readOffset, Reg.ofOffset_of_reserved h]

@[simp] theorem State.writeOffset_offset (s : State) (r : Reg) (v : Word) :
    s.writeOffset r.offset v = s.hostWriteReg r v := by
  simp [State.writeOffset]

theorem State.writeOffset_of_reserved (s : State) {off : Nat} (v : Word) (h : reserved off) :
    s.writeOffset off v = s := by
  simp [State.writeOffset, Reg.ofOffset_of_reserved h]

/-- A write at an offset is a write to the register there, or nothing. -/
theorem State.writeOffset_cases (s : State) (off : Nat) (v : Word) :
    s.writeOffset off v = s ∨ ∃ r : Reg, r.offset = off ∧ s.writeOffset off v = s.hostWriteReg r v := by
  cases hr : Reg.ofOffset off with
  | none => exact .inl (by simp [State.writeOffset, hr])
  | some r => exact .inr ⟨r, (Reg.ofOffset_eq_some_iff off r).1 hr, by simp [State.writeOffset, hr]⟩

/-! ### What a host write to a register does -/

/-- The state in which an operand has been written, and nothing else. -/
def State.setOperand (s : State) (r : Reg) (v : Word) : State := { s with regs := s.regs.set r v }

theorem State.hostWriteReg_operand (s : State) {r : Reg} (v : Word) (hr : r ∈ Reg.operands) :
    s.hostWriteReg r v = if s.status.busy then s.overrun else s.setOperand r v := by
  cases r with
  | id | ctrl | status | cmd | res0 | res1 | res2 | res3 => exact absurd hr (by decide)
  | _ => rfl

/-- A busy engine drops a write at a dropped offset (10_state R37). -/
theorem State.writeOffset_dropped (s : State) {off : Nat} (v : Word) (hb : s.status.busy = true)
    (hw : wordOffset off) (hd : dropped off) : s.writeOffset off v = s.overrun := by
  obtain ⟨r, rfl, rfl | hr⟩ := Reg.of_dropped hw hd
  · exact if_pos hb
  · rw [State.writeOffset_offset, State.hostWriteReg_operand s v hr, if_pos hb]

/-- ID and the result registers ignore writes (10_state R21, R33). -/
theorem State.writeOffset_readOnly (s : State) {off : Nat} (v : Word) (hw : wordOffset off)
    (h : off = 0x000 ∨ 0x020 ≤ off ∧ off ≤ 0x02C) : s.writeOffset off v = s := by
  have hoff : off = Reg.id.offset ∨ off = Reg.res0.offset ∨ off = Reg.res1.offset ∨ off = Reg.res2.offset ∨
      off = Reg.res3.offset := by
    obtain ⟨hmod, -⟩ := hw
    simp only [Reg.offset]
    omega
  rcases hoff with rfl | rfl | rfl | rfl | rfl <;> exact s.writeOffset_offset _ v

/-! ### What a register reads after a write -/

theorem Chan.toWord_ofWord (v : Word) : (Chan.ofWord v).toWord = v &&& 0x00000F1F := by
  unfold Chan.toWord Chan.ofWord
  ext i hi
  interval_cases i <;> simp

theorem format_roundtrip (v : Word) : (v.extractLsb' 0 3).setWidth 32 = v &&& 0x00000007 := by
  ext i hi
  interval_cases i <;> simp

/-- An operand reads back the stored bits of what was written (10_state R43, R46). -/
theorem State.readReg_setOperand_self (s : State) {r : Reg} (v : Word) (hr : r ∈ Reg.operands) :
    (s.setOperand r v).readReg r = v &&& storedBits r.offset := by
  have plain : v &&& 0xFFFFFFFF = v := BitVec.and_allOnes
  cases r with
  | id | ctrl | status | cmd | res0 | res1 | res2 | res3 => exact absurd hr (by decide)
  | surf d f =>
    cases f with
    | format => cases d <;> exact format_roundtrip v
    | chanR | chanG | chanB => cases d <;> exact Chan.toWord_ofWord v
    | _ => cases d <;> exact plain.symm
  | _ => exact plain.symm

/-- A write to one register leaves what every other register reads (10_state R22). The comparison of the two names
decides each pair of registers by computation. -/
theorem State.readReg_setOperand_ne (s : State) {r r' : Reg} (v : Word) (h : r' ≠ r) :
    (s.setOperand r v).readReg r' = s.readReg r' := by
  have pair : (s.setOperand r v).readReg r' =
      if r' = r then (s.setOperand r v).readReg r else s.readReg r' := by
    cases r with
    | surf d f =>
      cases r' with
      | surf d' f' => cases d <;> cases d' <;> cases f <;> cases f' <;> rfl
      | _ => cases d <;> rfl
    | _ =>
      cases r' with
      | surf d' f' => cases d' <;> rfl
      | _ => rfl
  rw [pair, if_neg h]

theorem State.readOffset_setOperand_ne (s : State) (r : Reg) (v : Word) {off : Nat} (h : off ≠ r.offset) :
    (s.setOperand r v).readOffset off = s.readOffset off := by
  cases hr : Reg.ofOffset off with
  | none => simp [State.readOffset, hr]
  | some r' =>
    obtain rfl := (Reg.ofOffset_eq_some_iff off r').1 hr
    rw [State.readOffset_offset, State.readOffset_offset]
    exact s.readReg_setOperand_ne v fun e => h (congrArg Reg.offset e)

end Sys2Proof.Machine
end

section
/-! PROOFS. The step layer: what a step does with each host access, which accesses are refused, what the engine's turn
leaves, and what keeps the machine's invariant (10_state R20, R26, R37, 60_exceptions R270, R283, 20_memory R78). -/

namespace Sys2Proof.Machine

open Sys2Proof.Claims

/-! ### Accesses to the block -/

theorem accessRefusal_eq_none_iff (width off : Nat) :
    accessRefusal width off = none ↔ width = 32 ∧ wordOffset off := by
  unfold accessRefusal wordOffset
  split_ifs <;> simp <;> omega

/-- A read is answered exactly at a defined access; it changes the word last read and nothing else. -/
theorem State.mmioRead_eq_next_iff (s t : State) (width off : Nat) :
    s.mmioRead width off = .next t ↔ (width = 32 ∧ wordOffset off) ∧ t = { s with rdata := s.readOffset off } := by
  rw [← accessRefusal_eq_none_iff, State.mmioRead]
  cases accessRefusal width off <;> simp [eq_comm]

/-- A write is taken exactly at a defined access. -/
theorem State.mmioWrite_eq_next_iff (s t : State) (width off : Nat) (v : Word) :
    s.mmioWrite width off v = .next t ↔ (width = 32 ∧ wordOffset off) ∧ t = s.writeOffset off v := by
  rw [← accessRefusal_eq_none_iff, State.mmioWrite]
  cases accessRefusal width off <;> simp [eq_comm]

theorem State.mmioRead_refused (s : State) {width off : Nat} (h : ¬(width = 32 ∧ wordOffset off)) :
    ∃ r, s.mmioRead width off = .refused r := by
  rw [← accessRefusal_eq_none_iff] at h
  obtain ⟨r, hr⟩ := Option.ne_none_iff_exists'.1 h
  exact ⟨r, by simp [State.mmioRead, hr]⟩

theorem State.mmioWrite_refused (s : State) {width off : Nat} (v : Word) (h : ¬(width = 32 ∧ wordOffset off)) :
    ∃ r, s.mmioWrite width off v = .refused r := by
  rw [← accessRefusal_eq_none_iff] at h
  obtain ⟨r, hr⟩ := Option.ne_none_iff_exists'.1 h
  exact ⟨r, by simp [State.mmioWrite, hr]⟩

/-! ### One step -/

theorem step_of_host_nil {s : State} (h : s.host = []) : step s = s.engineTurn := by
  simp [step, State.advance, h]

theorem step_of_host_cons {s : State} {e : HostEvent} {rest : List HostEvent} (h : s.host = e :: rest) :
    step s = (taken s rest).event e := by
  simp [step, State.advance, taken, h]

/-- With nothing pending a step is the engine's turn; else it is the next event, taken off the host's sequence. -/
theorem step_cases (s : State) :
    (s.host = [] ∧ step s = s.engineTurn) ∨
      ∃ e rest, s.host = e :: rest ∧ step s = (taken s rest).event e := by
  cases h : s.host with
  | nil => exact .inl ⟨rfl, step_of_host_nil h⟩
  | cons e rest => exact .inr ⟨e, rest, rfl, step_of_host_cons h⟩

/-- A host read of a word offset answers what the offset holds (10_state R20). -/
theorem step_mmioRead {s : State} {off : Nat} {rest : List HostEvent} (hw : wordOffset off)
    (h : s.host = .mmioRead 32 off :: rest) :
    step s = .next { s with host := rest, rdata := s.readOffset off } := by
  rw [step_of_host_cons h]
  exact ((taken s rest).mmioRead_eq_next_iff _ 32 off).2 ⟨⟨rfl, hw⟩, rfl⟩

/-- A host write of a word offset is the write of the register there (10_state R20). -/
theorem step_mmioWrite {s : State} {off : Nat} {v : Word} {rest : List HostEvent} (hw : wordOffset off)
    (h : s.host = .mmioWrite 32 off v :: rest) :
    step s = .next ((taken s rest).writeOffset off v) := by
  rw [step_of_host_cons h]
  exact ((taken s rest).mmioWrite_eq_next_iff _ 32 off v).2 ⟨⟨rfl, hw⟩, rfl⟩

/-! ### The engine's turn -/

/-- The command word in CMD comes down to one ending, which keeps the canonical form of memory. -/
theorem State.runCommand_finish (s : State) :
    ∃ e, s.runCommand = .next (s.finish e) ∧ (s.mem.wf = true → (s.finish e).mem.wf = true) := by
  unfold State.runCommand
  cases decode s.cmd with
  | error x => exact ⟨.raise x, rfl, id⟩
  | ok i =>
    obtain ⟨e, he, hmem, -⟩ := exec_finish i s
    refine ⟨e, he, fun hm => ?_⟩
    cases e with
    | complete res mem => exact hmem res mem rfl hm
    | nullop res => exact hm
    | raise x => exact hm

/-- STATUS stays legal at the end of a running command. -/
theorem State.finish_legal (s : State) (e : Ending) (hb : s.status.busy = true) (h : s.status.legal = true) :
    (s.finish e).status.legal = true := by
  cases e with
  | complete res mem => exact Status.complete_legal _ h
  | nullop res => exact Status.nullEnd_legal _ h hb
  | raise x => exact Status.raise_legal _ x h hb

/-- What the engine's turn makes of a running command: the engine is idle again, no race is on record, and memory's
canonical form and a legal STATUS are kept. -/
def TurnEnds (s t : State) : Prop :=
  t.status.busy = false ∧ t.raced = [] ∧ (s.mem.wf = true → t.mem.wf = true) ∧
    (s.status.legal = true → t.status.legal = true)

theorem State.runCommand_ends (s : State) (hb : s.status.busy = true) (hr : s.raced = []) :
    ∃ t, s.runCommand = .next t ∧ TurnEnds s t := by
  obtain ⟨e, he, hm⟩ := s.runCommand_finish
  obtain ⟨-, -, -, -, -, hraced, -⟩ := s.finish_frame e
  exact ⟨_, he, (s.finish_status e).1, hraced.trans hr, hm, s.finish_legal e hb⟩

/-- A raced command ends as it would have in the memory it saw, but for the bytes of its write set. -/
theorem State.runRaced_ends (s : State) (hb : s.status.busy = true) : ∃ t, s.runRaced = .next t ∧ TurnEnds s t := by
  obtain ⟨t, ht, hbusy, hraced, -, hlegal⟩ := State.runCommand_ends
    { s with mem := racedView s.fresh s.raced s.mem, raced := [] } hb rfl
  exact ⟨{ t with
      mem := freeBytes (s.fresh + s.raced.length) s.inProgress.writes s.mem
      fresh := s.fresh + s.raced.length + s.inProgress.writes.length },
    by rw [State.runRaced, ht], hbusy, hraced, freeBytes_wf _ _ _, hlegal⟩

theorem State.engineTurn_busy (s : State) (hb : s.status.busy = true) :
    ∃ t, s.engineTurn = .next t ∧ TurnEnds s t := by
  rcases s.engineTurn_cases with ⟨hidle, -⟩ | ⟨-, hr, he⟩ | ⟨-, -, he⟩
  · simp [hb] at hidle
  · rw [he]; exact s.runCommand_ends hb hr
  · rw [he]; exact s.runRaced_ends hb

theorem State.engineTurn_idle (s : State) (hb : s.status.busy = false) : s.engineTurn = .next s := by
  simp [State.engineTurn, hb]

theorem State.engineTurn_isNext (s : State) : IsNext s.engineTurn := by
  cases hb : s.status.busy with
  | false => exact ⟨s, s.engineTurn_idle hb⟩
  | true =>
    obtain ⟨t, ht, -⟩ := s.engineTurn_busy hb
    exact ⟨t, ht⟩

/-! ### Which events are refused -/

/-- An MMIO access for which the spec defines no effect (10_state R20, 93 I3; log entry 10). -/
def UndefinedAccess (e : HostEvent) : Prop :=
  ∃ width off : Nat, ¬(width = 32 ∧ wordOffset off) ∧
    (e = .mmioRead width off ∨ ∃ v, e = .mmioWrite width off v)

theorem State.event_undefined (s : State) {e : HostEvent} (h : UndefinedAccess e) : ∃ r, s.event e = .refused r := by
  obtain ⟨width, off, hu, rfl | ⟨v, rfl⟩⟩ := h
  · exact s.mmioRead_refused hu
  · exact s.mmioWrite_refused v hu

theorem State.event_defined (s : State) {e : HostEvent} (h : ¬UndefinedAccess e) : IsNext (s.event e) := by
  cases e with
  | engine => exact s.engineTurn_isNext
  | mmioRead width off =>
    have hd : width = 32 ∧ wordOffset off := not_not.1 fun hu => h ⟨width, off, hu, .inl rfl⟩
    exact ⟨_, (s.mmioRead_eq_next_iff _ width off).2 ⟨hd, rfl⟩⟩
  | mmioWrite width off v =>
    have hd : width = 32 ∧ wordOffset off := not_not.1 fun hu => h ⟨width, off, hu, .inr ⟨v, rfl⟩⟩
    exact ⟨_, (s.mmioWrite_eq_next_iff _ width off v).2 ⟨hd, rfl⟩⟩
  | memRead a => exact ⟨_, rfl⟩
  | memWrite a v => exact ⟨_, rfl⟩
  | hardReset => exact ⟨_, rfl⟩

/-- A step is refused at an undefined access and answers a next state everywhere else. -/
theorem step_isNext_or_refused (s : State) :
    ((∃ e rest, s.host = e :: rest ∧ UndefinedAccess e) ∧ ∃ r, step s = .refused r) ∨
      ((¬∃ e rest, s.host = e :: rest ∧ UndefinedAccess e) ∧ IsNext (step s)) := by
  rcases step_cases s with ⟨hh, he⟩ | ⟨e, rest, hh, he⟩ <;> rw [he, hh]
  · exact .inr ⟨by simp, s.engineTurn_isNext⟩
  · by_cases hu : UndefinedAccess e
    · exact .inl ⟨⟨e, rest, rfl, hu⟩, (taken s rest).event_undefined hu⟩
    · exact .inr ⟨by simpa using hu, (taken s rest).event_defined hu⟩

/-! ### The host's framebuffer accesses -/

theorem State.hostMemRead_frame (s : State) (a : Word) :
    (s.hostMemRead a).status = s.status ∧ (s.hostMemRead a).cmd = s.cmd ∧ (s.hostMemRead a).regs = s.regs ∧
      (s.hostMemRead a).res = s.res ∧ (s.hostMemRead a).mem = s.mem := by
  unfold State.hostMemRead
  split <;> exact ⟨rfl, rfl, rfl, rfl, rfl⟩

theorem State.hostMemWrite_frame (s : State) (a : Word) (v : Byte) :
    (s.hostMemWrite a v).status = s.status ∧ (s.hostMemWrite a v).cmd = s.cmd ∧ (s.hostMemWrite a v).regs = s.regs ∧
      (s.hostMemWrite a v).res = s.res ∧ (s.hostMemWrite a v).mem = s.mem.write a v := by
  unfold State.hostMemWrite
  split <;> exact ⟨rfl, rfl, rfl, rfl, rfl⟩

/-- Only a running command has bytes to race for (10_state R26). -/
theorem State.busy_of_mem_inProgress (s : State) {a : Word}
    (h : a ∈ s.inProgress.writes ∨ a ∈ s.inProgress.reads) : s.status.busy = true := by
  by_contra hb
  simp [State.inProgress, hb, Footprint.none] at h

theorem State.hostMemRead_raced (s : State) (a : Word) :
    (s.hostMemRead a).raced = s.raced ∨ s.status.busy = true := by
  unfold State.hostMemRead
  split
  · next h => exact .inr (s.busy_of_mem_inProgress (.inl h))
  · exact .inl rfl

theorem State.hostMemWrite_raced (s : State) (a : Word) (v : Byte) :
    (s.hostMemWrite a v).raced = s.raced ∨ s.status.busy = true := by
  unfold State.hostMemWrite
  split
  · next h => exact .inr (s.busy_of_mem_inProgress h)
  · exact .inl rfl

/-! ### The invariant -/

theorem State.inv_iff (s : State) :
    s.inv = true ↔ s.mem.wf = true ∧ s.status.legal = true ∧ (s.raced = [] ∨ s.status.busy = true) := by
  simp [State.inv, and_assoc]

theorem State.reset_inv : State.reset.inv = true :=
  (State.inv_iff _).2 ⟨reset_mem_wf, Status.reset_legal, .inl rfl⟩

theorem State.resetBlock_inv (s : State) (h : s.inv = true) : s.resetBlock.inv = true := by
  obtain ⟨hm, -, -⟩ := s.inv_iff.1 h
  exact (State.inv_iff _).2 ⟨freeBytes_wf _ _ _ hm, Status.reset_legal, .inl rfl⟩

theorem State.hostWriteReg_inv (s : State) (r : Reg) (v : Word) (h : s.inv = true) :
    (s.hostWriteReg r v).inv = true := by
  obtain ⟨hm, hl, hr⟩ := s.inv_iff.1 h
  rcases s.hostWriteReg_cases r v with e | e | e | e | ⟨-, e⟩ | ⟨-, -, e⟩ | ⟨-, e⟩ <;> rw [e]
  · exact h
  · exact s.resetBlock_inv h
  · exact h
  · exact (State.inv_iff _).2 ⟨hm, Status.writeOneToClear_legal _ v hl, hr⟩
  · exact (State.inv_iff _).2 ⟨hm, Status.overrun_legal _ hl, hr⟩
  · exact (State.inv_iff _).2 ⟨hm, Status.accept_legal _, .inr rfl⟩
  · exact h

theorem State.writeOffset_inv (s : State) (off : Nat) (v : Word) (h : s.inv = true) :
    (s.writeOffset off v).inv = true := by
  rcases s.writeOffset_cases off v with e | ⟨r, -, e⟩ <;> rw [e]
  · exact h
  · exact s.hostWriteReg_inv r v h

theorem State.hostMemRead_inv (s : State) (a : Word) (h : s.inv = true) : (s.hostMemRead a).inv = true := by
  obtain ⟨hm, hl, hr⟩ := s.inv_iff.1 h
  obtain ⟨hstatus, -, -, -, hmem⟩ := s.hostMemRead_frame a
  rw [State.inv_iff, hstatus, hmem]
  exact ⟨hm, hl, (s.hostMemRead_raced a).elim (fun e => e ▸ hr) .inr⟩

theorem State.hostMemWrite_inv (s : State) (a : Word) (v : Byte) (h : s.inv = true) :
    (s.hostMemWrite a v).inv = true := by
  obtain ⟨hm, hl, hr⟩ := s.inv_iff.1 h
  obtain ⟨hstatus, -, -, -, hmem⟩ := s.hostMemWrite_frame a v
  rw [State.inv_iff, hstatus, hmem]
  exact ⟨Memory.write_wf _ _ _ hm, hl, (s.hostMemWrite_raced a v).elim (fun e => e ▸ hr) .inr⟩

theorem State.engineTurn_inv (s t : State) (h : s.inv = true) (ht : s.engineTurn = .next t) : t.inv = true := by
  obtain ⟨hm, hl, -⟩ := s.inv_iff.1 h
  cases hb : s.status.busy with
  | false =>
    rw [s.engineTurn_idle hb] at ht
    cases ht
    exact h
  | true =>
    obtain ⟨t', ht', -, hraced, hmem, hlegal⟩ := s.engineTurn_busy hb
    rw [ht'] at ht
    cases ht
    exact (State.inv_iff _).2 ⟨hmem hm, hlegal hl, .inl hraced⟩

theorem State.event_inv (s t : State) (e : HostEvent) (h : s.inv = true) (ht : s.event e = .next t) :
    t.inv = true := by
  cases e with
  | engine => exact s.engineTurn_inv t h ht
  | mmioRead width off =>
    obtain ⟨-, rfl⟩ := (s.mmioRead_eq_next_iff t width off).1 ht
    exact h
  | mmioWrite width off v =>
    obtain ⟨-, rfl⟩ := (s.mmioWrite_eq_next_iff t width off v).1 ht
    exact s.writeOffset_inv off v h
  | memRead a => cases ht; exact s.hostMemRead_inv a h
  | memWrite a v => cases ht; exact s.hostMemWrite_inv a v h
  | hardReset => cases ht; exact s.resetBlock_inv h

/-! ### BUSY and the registers of the running command -/

/-- The frame around BUSY of a transition that may accept the words `accepts`: only such an acceptance starts an idle
engine, and a running command keeps the registers it reads (10_state R26, R37). -/
def BusyFrame (s t : State) (accepts : Word → Prop) : Prop :=
  (s.status.busy = false → t.status.busy = true →
    ∃ w, accepts w ∧ t.cmd = w ∧ t.regs = s.regs ∧ t.mem = s.mem) ∧
  (s.status.busy = true → t.status.busy = true → t.regs = s.regs ∧ t.cmd = s.cmd ∧ t.res = s.res)

/-- A step that leaves BUSY and the command's registers as they are. -/
theorem BusyFrame.of_same {s t : State} {accepts : Word → Prop} (hb : t.status.busy = s.status.busy)
    (hregs : t.regs = s.regs) (hcmd : t.cmd = s.cmd) (hres : t.res = s.res) : BusyFrame s t accepts :=
  ⟨fun hidle hbusy => by simp [hb, hidle] at hbusy, fun _ _ => ⟨hregs, hcmd, hres⟩⟩

/-- A step that leaves the engine idle. -/
theorem BusyFrame.of_idle {s t : State} {accepts : Word → Prop} (hb : t.status.busy = false) :
    BusyFrame s t accepts :=
  ⟨fun _ hbusy => by simp [hb] at hbusy, fun _ hbusy => by simp [hb] at hbusy⟩

theorem State.engineTurn_busyFrame (s t : State) (accepts : Word → Prop) (ht : s.engineTurn = .next t) :
    BusyFrame s t accepts := by
  cases hb : s.status.busy with
  | false =>
    rw [s.engineTurn_idle hb] at ht
    cases ht
    exact .of_same rfl rfl rfl rfl
  | true =>
    obtain ⟨t', ht', hidle, -⟩ := s.engineTurn_busy hb
    rw [ht'] at ht
    cases ht
    exact .of_idle hidle

theorem State.hostWriteReg_busyFrame (s : State) (r : Reg) (v : Word) :
    BusyFrame s (s.hostWriteReg r v) fun w => r = .cmd ∧ v = w := by
  rcases s.hostWriteReg_cases r v with e | e | e | e | ⟨-, e⟩ | ⟨hb, hr, e⟩ | ⟨hb, e⟩ <;> rw [e]
  · exact .of_same rfl rfl rfl rfl
  · exact .of_idle rfl
  · exact .of_same rfl rfl rfl rfl
  · exact .of_same rfl rfl rfl rfl
  · exact .of_same rfl rfl rfl rfl
  · exact ⟨fun _ _ => ⟨v, ⟨hr, rfl⟩, rfl, rfl, rfl⟩, fun hbusy => by simp [hb] at hbusy⟩
  · exact .of_idle hb

theorem State.event_busyFrame (s t : State) (e : HostEvent) (ht : s.event e = .next t) :
    BusyFrame s t fun w => e = .mmioWrite 32 0x00C w := by
  cases e with
  | engine => exact s.engineTurn_busyFrame t _ ht
  | mmioRead width off =>
    obtain ⟨-, rfl⟩ := (s.mmioRead_eq_next_iff t width off).1 ht
    exact .of_same rfl rfl rfl rfl
  | mmioWrite width off v =>
    obtain ⟨⟨rfl, -⟩, rfl⟩ := (s.mmioWrite_eq_next_iff t width off v).1 ht
    rcases s.writeOffset_cases off v with hw | ⟨r, rfl, hw⟩ <;> rw [hw]
    · exact .of_same rfl rfl rfl rfl
    · obtain ⟨hrise, hkeep⟩ := s.hostWriteReg_busyFrame r v
      refine ⟨fun hidle hbusy => ?_, hkeep⟩
      obtain ⟨w, ⟨rfl, rfl⟩, hframe⟩ := hrise hidle hbusy
      exact ⟨v, rfl, hframe⟩
  | memRead a =>
    cases ht
    obtain ⟨hstatus, hcmd, hregs, hres, -⟩ := s.hostMemRead_frame a
    exact .of_same (congrArg Status.busy hstatus) hregs hcmd hres
  | memWrite a v =>
    cases ht
    obtain ⟨hstatus, hcmd, hregs, hres, -⟩ := s.hostMemWrite_frame a v
    exact .of_same (congrArg Status.busy hstatus) hregs hcmd hres
  | hardReset => cases ht; exact .of_idle rfl

end Sys2Proof.Machine
end

section
/-! PROOFS. Which result registers a command may write, and the statements of the state family. -/

namespace Sys2Proof.Machine

open Sys2Proof.Claims

/-! ### The result registers -/

/-- The commands whose rules name RES2 and RES3 (42_rop R147, 43_pack R161). -/
def writesAllResults : List Opcode := [.ropcodes, .pixaddr]

/-- The commands whose rules name RES1. -/
def writesRes1 : List Opcode := [.ropcodes, .pixaddr, .ropmask, .dcmp, .dmono]

/-- The commands whose rules name no result register. -/
def writesNoResult : List Opcode :=
  [.nop, .putpixel, .dconv1, .solidfill, .solidline, .copyrect, .brushmask, .patfill, .maskfill, .stretchrow,
   .shrinkrow]

/-! Membership of an opcode is asked as a `decide`, which computes for every command, whatever its fields. -/

/-- Results `r'` differ from `r` only in the registers that the rule of `op` names (10_state R33). -/
def ResultsOf (op : Opcode) (r r' : Results) : Prop :=
  (op ∉ writesAllResults → r'.res2 = r.res2 ∧ r'.res3 = r.res3) ∧ (op ∉ writesRes1 → r'.res1 = r.res1) ∧
    (op ∈ writesNoResult → r' = r)

theorem ResultsOf.same (op : Opcode) (r : Results) : ResultsOf op r r :=
  ⟨fun _ => ⟨rfl, rfl⟩, fun _ => rfl, fun _ => rfl⟩

theorem ResultsOf.set0 {op : Opcode} (r : Results) (v : Word) (h : decide (op ∈ writesNoResult) = false) :
    ResultsOf op r (r.set0 v) :=
  ⟨fun _ => ⟨rfl, rfl⟩, fun _ => rfl, fun hn => absurd hn (of_decide_eq_false h)⟩

theorem ResultsOf.set01 {op : Opcode} (r : Results) (v w : Word) (h : decide (op ∈ writesNoResult) = false)
    (h1 : decide (op ∈ writesRes1) = true) : ResultsOf op r (r.set01 v w) :=
  ⟨fun _ => ⟨rfl, rfl⟩, fun hn => absurd (of_decide_eq_true h1) hn, fun hn => absurd hn (of_decide_eq_false h)⟩

theorem ResultsOf.all {op : Opcode} (r r' : Results) (h : decide (op ∈ writesNoResult) = false)
    (h1 : decide (op ∈ writesRes1) = true) (h2 : decide (op ∈ writesAllResults) = true) : ResultsOf op r r' :=
  ⟨fun hn => absurd (of_decide_eq_true h2) hn, fun hn => absurd (of_decide_eq_true h1) hn,
    fun hn => absurd hn (of_decide_eq_false h)⟩

/-- A command that draws leaves the results as they were, whatever its checks decide. -/
theorem ResultsOf.drawn {α : Type} (op : Opcode) (s : State) (c : Checked α) (run : α → Memory) :
    ResultsOf op s.res (s.finish (c.ending s.res s.mem run)).res := by
  cases c <;> exact .same _ _

/-- Every command changes only the result registers that its rule names. -/
theorem exec_results (i : Instr) (s t : State) (h : exec i s = .next t) : ResultsOf i.opcode s.res t.res := by
  cases i with
  | nop => cases h; exact .same _ _
  | ropcodes rop | pixaddr surf => exact .all _ _ rfl rfl rfl
  | ropmask rop | dcmp msz | dmono => cases h; exact .set01 _ _ _ rfl rfl
  | ropapply | ropapplym | ropsrc rop | unpack depth | pack depth | dthresh msz | quant5 =>
    cases h
    exact .set0 _ _ rfl
  | extract | insert =>
    cases h
    split
    · exact .same _ _
    · exact .set0 _ _ rfl
  | pix2rgb surf | rgb2pix surf =>
    cases h
    split
    · exact .set0 _ _ rfl
    · split
      · exact .same _ _
      · exact .set0 _ _ rfl
  | getpixel surf =>
    cases h
    split
    · exact .set0 _ _ rfl
    · exact .same _ _
    · exact .same _ _
    · exact .set0 _ _ rfl
  | putpixel rop msrc | dconv1 pad | solidfill rop msrc | solidline rop msrc xmajor xneg yneg
  | copyrect rop revx revy | brushmask rop | patfill | maskfill rop | stretchrow smode keep sneg dneg
  | shrinkrow smode keep sneg dneg =>
    cases h
    exact .drawn _ _ _ _

theorem Ending.good_endsProperly {e : Ending} {s : State} (h : e.good s) : EndsProperly s (s.finish e) := by
  cases e with
  | complete res mem => exact .inl ⟨res, mem, rfl⟩
  | nullop res => exact .inr (.inl ⟨res, rfl⟩)
  | raise x =>
    obtain ⟨-, hraises⟩ := h
    rcases hraises x rfl with rfl | rfl
    · exact .inr (.inr (.inl rfl))
    · exact .inr (.inr (.inr rfl))

/-- Only an error sets ERR, and an error leaves results and memory as they were (60_exceptions R275). -/
theorem State.finish_err (s : State) (e : Ending) (ht : (s.finish e).status.err = true)
    (hs : s.status.err = false) : (s.finish e).res = s.res ∧ (s.finish e).mem = s.mem := by
  cases e with
  | complete res mem => simp [hs] at ht
  | nullop res => simp [hs] at ht
  | raise x => exact ⟨rfl, rfl⟩

/-! ### STATUS and the interrupt output as they read -/

theorem bitWord_getElem (b : Bool) (k : Nat) (hk : k < 32) : (bitWord b)[k] = (decide (k = 0) && b) := by
  cases b <;> simp [bitWord]

/-- STATUS bit by bit (10_state R25). -/
theorem Status.toWord_getLsbD (t : Status) (k : Nat) (hk : k < 32) : t.toWord.getLsbD k =
    if k = 0 then t.busy else if k = 1 then t.done else if k = 2 then t.err
    else if k = 3 then t.ovr else if k = 4 then t.nullop
    else decide (8 ≤ k) && decide (k ≤ 11) && t.errcode.getLsbD (k - 8) := by
  unfold Status.toWord
  interval_cases k <;> simp [bitWord_getElem]

theorem State.irq_eq_bits (s : State) :
    s.irq = ((s.readReg .ctrl).getLsbD 0 && (s.readReg .status).getLsbD 1) := by
  have hctrl : (s.readReg .ctrl).getLsbD 0 = s.irqEn := bitWord_getElem s.irqEn 0 (by decide)
  have hdone : (s.readReg .status).getLsbD 1 = s.status.done := s.status.toWord_getLsbD 1 (by decide)
  rw [hctrl, hdone, State.irq]

/-! ### The registers after reset -/

theorem readReg_reset (r : Reg) : State.reset.readReg r = if r = .id then Config.implId else 0 := by
  cases r with
  | surf d f => cases d <;> cases f <;> rfl
  | _ => rfl

theorem readOffset_reset (off : Nat) : State.reset.readOffset off = if off = 0 then Config.implId else 0 := by
  cases hr : Reg.ofOffset off with
  | none =>
    have hne : off ≠ 0 := by
      rintro rfl
      cases hr
    simp [State.readOffset, hr, hne]
  | some r =>
    have hid : r.offset = Reg.id.offset ↔ r = .id := Reg.offset_injective.eq_iff
    obtain rfl := (Reg.ofOffset_eq_some_iff off r).1 hr
    rw [State.readOffset_offset, readReg_reset]
    exact if_congr hid.symm rfl rfl

/-! ### A write to an operand of an idle engine -/

/-- A row of the printed table is an operand's, with what a write stores. -/
theorem mem_registerTable {off : Nat} {store : Regs → Word → Regs} (h : (off, store) ∈ registerTable) :
    ∃ r ∈ Reg.operands, r.offset = off ∧ store = fun regs v => regs.set r v := by
  rw [registerTable_eq] at h
  obtain ⟨r, hr, e⟩ := List.mem_map.1 h
  obtain ⟨rfl, rfl⟩ := Prod.mk.inj e
  exact ⟨r, hr, rfl, rfl⟩

end Sys2Proof.Machine

/-! ### The statements -/

namespace Sys2Proof.Claims

open Sys2Proof.Machine

/-- Settles O60, by cases on the event that the step takes; each keeps the invariant. -/
theorem everyStepKeepsTheInvariant : Obligations.EveryStepKeepsTheInvariant := by
  intro s t hinv ht
  rcases step_cases s with ⟨-, he⟩ | ⟨e, rest, -, he⟩ <;> rw [he] at ht
  · exact s.engineTurn_inv t hinv ht
  · exact (taken s rest).event_inv t e hinv ht

/-- Settles O6: every command comes down to one good ending, and its results are those its rule names. -/
theorem everyCommandEnds : Obligations.EveryCommandEnds := by
  intro i s
  obtain ⟨e, he, hgood⟩ := exec_finish i s
  obtain ⟨hres23, hres1, hnone⟩ := exec_results i s _ he
  exact ⟨_, he, Ending.good_endsProperly hgood, hres23, hres1, hnone, s.finish_err e⟩

/-- Settles O48, by the kind of register at the offset. -/
theorem busyBlockDropsWrites : Obligations.BusyBlockDropsWrites := by
  intro s off v rest hhost hw
  rw [step_mmioWrite hw hhost]
  refine ⟨fun hb hd => ?_, fun h => ?_, ?_, ?_⟩
  · rw [State.writeOffset_dropped (taken s rest) v hb hw hd]
    rfl
  · rcases or_assoc.2 h with h | h
    · rw [State.writeOffset_readOnly _ v hw h]
    · rw [State.writeOffset_of_reserved _ v h]
  · rintro rfl hv
    have hctrl : (taken s rest).writeOffset 0x004 v = { taken s rest with irqEn := v.getLsbD 0 } :=
      if_neg (by simpa using hv)
    rw [hctrl]
    rfl
  · rintro rfl
    rfl

/-- Settles O49: no register of the map stands at a reserved offset. -/
theorem reservedOffsetsReadZero : Obligations.ReservedOffsetsReadZero := by
  intro s off rest hw hr
  constructor
  · intro hhost
    rw [step_mmioRead hw hhost, s.readOffset_of_reserved hr]
  · intro v hhost
    rw [step_mmioWrite hw hhost, State.writeOffset_of_reserved _ v hr]

/-- Settles O50: each row of the printed table is an operand's, and the rules for a written operand give the rest. -/
theorem registerReadsBackAsWritten : Obligations.RegisterReadsBackAsWritten := by
  have offsets : registerTable.map Prod.fst = Reg.operands.map Reg.offset := rfl
  refine ⟨fun off => offsets ▸ Reg.mem_operands_offset_iff off, ?_⟩
  intro s off store v rest hrow hhost hidle
  obtain ⟨r, hr, rfl, rfl⟩ := mem_registerTable hrow
  obtain ⟨hw, -, -⟩ := (Reg.mem_operands_offset_iff r.offset).1 (List.mem_map_of_mem hr)
  have hread : ((taken s rest).setOperand r v).readOffset r.offset = v &&& storedBits r.offset := by
    rw [State.readOffset_offset, State.readReg_setOperand_self _ v hr]
  refine ⟨(taken s rest).setOperand r v, ?_, rfl, hread, ?_, ?_⟩
  · rw [step_mmioWrite hw hhost, State.writeOffset_offset, State.hostWriteReg_operand _ v hr]
    exact congrArg _ (if_neg (by simpa [taken] using hidle))
  · rintro rest' rfl
    rw [step_mmioRead hw rfl, hread]
  · intro off' hne
    exact (taken s rest).readOffset_setOperand_ne r v hne

/-- Settles O51, register by register; STATUS is read bit by bit. -/
theorem hostReadsAndStatusClears : Obligations.HostReadsAndStatusClears := by
  intro s
  refine ⟨fun off rest hw hhost => step_mmioRead hw hhost, rfl, rfl, rfl, rfl, rfl, rfl,
    s.status.toWord_getLsbD, s.irq_eq_bits, fun v rest hhost => ?_⟩
  rw [step_mmioWrite ⟨rfl, by decide⟩ hhost]
  rfl

/-- Settles O54: an event is refused exactly when it is an undefined access, and the engine's turn always ends. -/
theorem onlyUndefinedAccessesAreRefused : Obligations.OnlyUndefinedAccessesAreRefused := by
  intro s
  have pending : (∃ e rest, s.host = e :: rest ∧ UndefinedAccess e) ↔
      ∃ (width off : Nat) (rest : List HostEvent), ¬(width = 32 ∧ wordOffset off) ∧
        (s.host = .mmioRead width off :: rest ∨ ∃ v, s.host = .mmioWrite width off v :: rest) := by
    constructor
    · rintro ⟨e, rest, hhost, width, off, hu, rfl | ⟨v, rfl⟩⟩
      · exact ⟨width, off, rest, hu, .inl hhost⟩
      · exact ⟨width, off, rest, hu, .inr ⟨v, hhost⟩⟩
    · rintro ⟨width, off, rest, hu, hhost | ⟨v, hhost⟩⟩
      · exact ⟨_, rest, hhost, width, off, hu, .inl rfl⟩
      · exact ⟨_, rest, hhost, width, off, hu, .inr ⟨v, rfl⟩⟩
  rw [← pending]
  rcases step_isNext_or_refused s with ⟨hp, hr⟩ | ⟨hp, t, ht⟩
  · exact ⟨.inr hr, iff_of_true hr hp⟩
  · exact ⟨.inl ⟨t, ht⟩, iff_of_false (by simp [ht]) hp⟩

/-- Settles O58: the frame of each event around BUSY. -/
theorem busyKeepsTheCommandsRegisters : Obligations.BusyKeepsTheCommandsRegisters := by
  intro s t ht
  rcases step_cases s with ⟨-, he⟩ | ⟨e, rest, hhost, he⟩ <;> rw [he] at ht
  · obtain ⟨hrise, hkeep⟩ := s.engineTurn_busyFrame t (fun _ => False) ht
    exact ⟨fun hidle hbusy => (hrise hidle hbusy).elim fun _ h => h.1.elim, hkeep⟩
  · obtain ⟨hrise, hkeep⟩ := (taken s rest).event_busyFrame t e ht
    refine ⟨fun hidle hbusy => ?_, hkeep⟩
    obtain ⟨w, rfl, hframe⟩ := hrise hidle hbusy
    exact ⟨w, rest, hhost, hframe⟩

/-- Settles O47: CMD's own rule for a host write, in each case of BUSY. -/
theorem cmdWriteStartsACommand : Obligations.CmdWriteStartsACommand := by
  refine ⟨fun s => s.readOffset_offset .cmd, rfl, fun s w rest hhost => ?_⟩
  have hstep : step s = .next ((taken s rest).hostWriteReg .cmd w) := step_mmioWrite ⟨rfl, by decide⟩ hhost
  rw [hstep]
  constructor
  · intro hb
    exact congrArg _ (if_neg (by simp [taken, hb]))
  · intro hb
    exact congrArg _ (if_pos hb)

/-- Settles O52: ID is the only register that does not read 0 after reset. -/
theorem resetValues : Obligations.ResetValues :=
  ⟨readOffset_reset, rfl, rfl, rfl⟩

/-- Settles O59, part by part of the invariant. -/
theorem invariantHoldsAtReset : Obligations.InvariantHoldsAtReset := State.reset_inv

end Sys2Proof.Claims
end

section
/-! PROOFS. Which bytes a command writes: a relation between memories that every operation keeps for the addresses it
writes, that loops keep for the addresses of their rounds, and that every command keeps for its footprint
(20_memory R70). -/

namespace Sys2Proof.Machine

/-! ### What writing only some addresses means -/

theorem Memory.backs_mono {m : Memory} {l l' : List Word} (h : l ⊆ l') (hm : m.backs l') : m.backs l :=
  fun a ha => hm a (h ha)

theorem Memory.backs_of_holes {m m' : Memory} {l : List Word} (h : m'.holes = m.holes) (hm : m.backs l) :
    m'.backs l := fun a ha => (Memory.unbacked_of_holes h a.toNat).trans (hm a ha)

/-- `m'` comes from `m` by writes to the addresses of `l`: the platform stays, and when memory stands behind all of `l`,
so does every other backed byte. -/
def WritesOnly (l : List Word) (m m' : Memory) : Prop :=
  m'.holes = m.holes ∧
    (m.backs l → ∀ a : Word, m.unbacked a.toNat = false → a ∉ l → m'.read a = m.read a)

theorem WritesOnly.refl (l : List Word) (m : Memory) : WritesOnly l m m := ⟨rfl, fun _ _ _ _ => rfl⟩

theorem WritesOnly.mono {l l' : List Word} {m m' : Memory} (h : WritesOnly l m m') (hl : l ⊆ l') :
    WritesOnly l' m m' :=
  ⟨h.1, fun hw a ha hn => h.2 (Memory.backs_mono hl hw) a ha fun hm => hn (hl hm)⟩

theorem WritesOnly.trans {l : List Word} {m m' m'' : Memory} (h : WritesOnly l m m') (h' : WritesOnly l m' m'') :
    WritesOnly l m m'' := by
  obtain ⟨hholes, hread⟩ := h
  obtain ⟨hholes', hread'⟩ := h'
  refine ⟨hholes'.trans hholes, fun hw a ha hn => ?_⟩
  have ha' : m'.unbacked a.toNat = false := (Memory.unbacked_of_holes hholes _).trans ha
  rw [hread' (Memory.backs_of_holes hholes hw) a ha' hn, hread hw a ha hn]

/-- A loop whose rounds write only the addresses of `l`. -/
theorem WritesOnly.foldl {α : Type} {l : List Word} {f : Memory → α → Memory} {xs : List α}
    (h : ∀ m, ∀ x ∈ xs, WritesOnly l m (f m x)) (m : Memory) : WritesOnly l m (xs.foldl f m) :=
  foldl_keeps (WritesOnly l m) f xs (fun m' x hx hm' => hm'.trans (h m' x hx)) m (.refl l m)

/-- A loop each of whose rounds writes addresses of its own. -/
theorem WritesOnly.foldl_flatMap {α : Type} {g : α → List Word} {f : Memory → α → Memory} {xs : List α}
    (h : ∀ m, ∀ x ∈ xs, WritesOnly (g x) m (f m x)) (m : Memory) :
    WritesOnly (xs.flatMap g) m (xs.foldl f m) :=
  .foldl (fun m' x hx => (h m' x hx).mono fun _ ha => List.mem_flatMap_of_mem hx ha) m

theorem Memory.write_writesOnly (m : Memory) (a : Word) (v : Byte) : WritesOnly [a] m (m.write a v) :=
  ⟨m.write_holes a v, fun hw b hb hn => m.read_write_ne a b v (hw a (by simp)) hb (by simpa using hn)⟩

theorem putPix_writesOnly (V : View) (m : Memory) (x y : Int) (v : Word) :
    WritesOnly (pixBytes V x y) m (putPix V m x y v) :=
  ⟨putPix_holes V m x y v, fun hw b hb hn => putPix_read_ne V m x y v b hw hb hn⟩

/-! ### The memory effect of each command -/

theorem Rect.pixBytes_subset_bytes (R : Rect) {c : Nat × Nat} (hc : c.1 < R.w ∧ c.2 < R.h) :
    pixBytes R.view (R.x c) (R.y c) ⊆ R.bytes :=
  fun _ ha => List.mem_flatMap_of_mem ((mem_rectCells R.w R.h false false c).2 hc) ha

/-- A visit of a rectangle's cells, in any order, whose rounds each write their own pixel. -/
theorem visit_writesOnly (R : Rect) (revx revy : Bool) {f : Memory → Nat × Nat → Memory}
    (h : ∀ m c, WritesOnly (pixBytes R.view (R.x c) (R.y c)) m (f m c)) (m : Memory) :
    WritesOnly R.bytes m (visit (rectCells R.w R.h revx revy) m f) :=
  .foldl (fun m' c hc => (h m' c).mono (R.pixBytes_subset_bytes ((mem_rectCells _ _ _ _ c).1 hc))) m

theorem solidfillRun_writesOnly (p : MaskPair) (R : Rect) (m : Memory) :
    WritesOnly R.bytes m (solidfillRun p R m) :=
  visit_writesOnly R false false (fun _ _ => putPix_writesOnly _ _ _ _ _) m

theorem solidlineRun_writesOnly (p : MaskPair) (W : Walk) (m : Memory) :
    WritesOnly (W.points.flatMap fun q => pixBytes W.view q.1 q.2) m (solidlineRun p W m) :=
  .foldl_flatMap (fun _ _ _ => putPix_writesOnly _ _ _ _ _) m

theorem copyrectRun_writesOnly (rop : BitVec 4) (revx revy : Bool) (P : RectPair) (m : Memory) :
    WritesOnly P.dst.bytes m (copyrectRun rop revx revy P m) :=
  visit_writesOnly P.dst revx revy (fun _ _ => putPix_writesOnly _ _ _ _ _) m

theorem patfillRun_writesOnly (r : Regs) (R : Rect) (m : Memory) : WritesOnly R.bytes m (patfillRun r R m) :=
  visit_writesOnly R false false (fun _ _ => putPix_writesOnly _ _ _ _ _) m

theorem maskfillRun_writesOnly (rop : BitVec 4) (r : Regs) (P : RectPair) (m : Memory) :
    WritesOnly P.dst.bytes m (maskfillRun rop r P m) :=
  visit_writesOnly P.dst false false (fun _ _ => putPix_writesOnly _ _ _ _ _) m

theorem brushmaskRun_writesOnly (rop : BitVec 4) (r : Regs) (B : BrushImages) (m : Memory) :
    WritesOnly B.bytes m (brushmaskRun rop r B m) := by
  refine .foldl_flatMap (fun m' c _ => ?_) m
  have hand (v : Word) := (putPix_writesOnly B.and m' c.1 c.2 v).mono
    (List.subset_append_left _ (pixBytes B.xor c.1 c.2))
  exact (hand _).trans ((putPix_writesOnly B.xor _ c.1 c.2 _).mono (List.subset_append_right _ _))

theorem padRow_writesOnly (V : View) (m : Memory) (y Xe : Int) :
    WritesOnly (padBytes V y Xe) m (padRow V m y Xe) := by
  have hwhole (m' : Memory) : WritesOnly (padBytes V y Xe) m' ((padWhole V y Xe).foldl (fun m a => m.write a 0) m') :=
    .foldl (fun m a ha => (m.write_writesOnly a 0).mono (by simp [padBytes, ha])) m'
  unfold padRow
  cases hp : padPartial V y Xe with
  | none => exact hwhole m
  | some a => exact ((m.write_writesOnly a _).mono (by simp [padBytes, hp])).trans (hwhole _)

theorem dconv1Row_writesOnly (src : Surface) (pad : Bool) (P : RectPair) (m : Memory) {r : Nat}
    (hr : r < P.dst.h) : WritesOnly (dconv1Bytes pad P) m (dconv1Row src pad P m r) := by
  have hcells (m' : Memory) (c : Nat × Nat) (hc : c ∈ (List.range P.dst.w).map fun c => (c, r)) :
      WritesOnly (dconv1Bytes pad P) m' (dconv1Pix src P m' c) := by
    obtain ⟨k, hk, rfl⟩ := List.mem_map.1 hc
    have hbytes := P.dst.pixBytes_subset_bytes (c := (k, r)) ⟨List.mem_range.1 hk, hr⟩
    exact (putPix_writesOnly _ _ _ _ _).mono (List.Subset.trans hbytes (List.subset_append_left _ _))
  have hpixels := WritesOnly.foldl hcells m
  cases pad with
  | false => exact hpixels
  | true =>
    refine hpixels.trans ((padRow_writesOnly _ _ _ _).mono fun a ha => List.mem_append_right _ ?_)
    exact List.mem_flatMap.2 ⟨(r : Int), by simpa using hr, ha⟩

theorem dconv1Run_writesOnly (src : Surface) (pad : Bool) (P : RectPair) (m : Memory) :
    WritesOnly (dconv1Bytes pad P) m (dconv1Run src pad P m) :=
  .foldl (fun m' _ hr => dconv1Row_writesOnly src pad P m' (List.mem_range.1 hr)) m

theorem stretchRun_writesOnly (mode : ScanMode) (keep : Bool) (S : Scan) (m : Memory) :
    WritesOnly S.footprint.writes m (S.steps.foldl (stretchStep mode keep S) m) := by
  refine .foldl_flatMap (fun m' t _ => ?_) m
  unfold stretchStep
  dsimp only
  split <;> exact putPix_writesOnly _ _ _ _ _

theorem shrinkRun_writesOnly (mode : ScanMode) (keep : Bool) (S : Scan) (m : Memory) :
    WritesOnly S.footprint.writes m (S.steps.foldl (shrinkStep mode keep S) m) :=
  .foldl_flatMap (fun _ _ _ => putPix_writesOnly _ _ _ _ _) m

/-! ### Every command -/

/-- A drawing command writes only its footprint when its memory effect does, whatever its checks decide. -/
theorem Checked.ending_writesOnly {α : Type} (c : Checked α) (s : State) {fp : α → Footprint} {run : α → Memory}
    (h : ∀ a, WritesOnly (fp a).writes s.mem (run a)) :
    WritesOnly (c.footprint fp).writes s.mem (s.finish (c.ending s.res s.mem run)).mem := by
  cases c with
  | null => exact .refl _ _
  | raise e => exact .refl _ _
  | empty => exact .refl _ _
  | go a => exact h a

/-- Every command writes only the bytes its footprint names. -/
theorem exec_writesOnly (i : Instr) (s t : State) (h : exec i s = .next t) :
    WritesOnly (footprint i s.regs).writes s.mem t.mem := by
  cases i with
  | nop | ropcodes rop | ropmask rop | ropapply | ropapplym | ropsrc rop | unpack depth | pack depth | dthresh msz
  | dcmp msz | dmono | quant5 => cases h; exact .refl _ _
  | extract | insert => cases h; split <;> exact .refl _ _
  | pix2rgb surf | rgb2pix surf =>
    cases h
    split
    · exact .refl _ _
    · split <;> exact .refl _ _
  | pixaddr surf | getpixel surf => cases h; split <;> exact .refl _ _
  | putpixel rop msrc => cases h; exact Checked.ending_writesOnly _ s fun _ => putPix_writesOnly _ _ _ _ _
  | dconv1 pad => cases h; exact Checked.ending_writesOnly _ s fun _ => dconv1Run_writesOnly _ _ _ _
  | solidfill rop msrc => cases h; exact Checked.ending_writesOnly _ s fun _ => solidfillRun_writesOnly _ _ _
  | solidline rop msrc xmajor xneg yneg =>
    cases h; exact Checked.ending_writesOnly _ s fun _ => solidlineRun_writesOnly _ _ _
  | copyrect rop revx revy => cases h; exact Checked.ending_writesOnly _ s fun _ => copyrectRun_writesOnly _ _ _ _ _
  | brushmask rop => cases h; exact Checked.ending_writesOnly _ s fun _ => brushmaskRun_writesOnly _ _ _ _
  | patfill => cases h; exact Checked.ending_writesOnly _ s fun _ => patfillRun_writesOnly _ _ _
  | maskfill rop => cases h; exact Checked.ending_writesOnly _ s fun _ => maskfillRun_writesOnly _ _ _ _
  | stretchrow smode keep sneg dneg =>
    cases h; exact Checked.ending_writesOnly _ s fun _ => stretchRun_writesOnly _ _ _ _
  | shrinkrow smode keep sneg dneg =>
    cases h; exact Checked.ending_writesOnly _ s fun _ => shrinkRun_writesOnly _ _ _ _

/-- Whatever its ending, a command changes only STATUS, the results and memory. -/
theorem exec_frame (i : Instr) (s t : State) (h : exec i s = .next t) :
    t.irqEn = s.irqEn ∧ t.cmd = s.cmd ∧ t.regs = s.regs ∧ t.host = s.host ∧ t.rdata = s.rdata ∧
      t.raced = s.raced ∧ t.fresh = s.fresh := by
  obtain ⟨e, he, -⟩ := exec_finish i s
  obtain rfl : s.finish e = t := Host.Outcome.next.inj (he.symm.trans h)
  exact s.finish_frame e

end Sys2Proof.Machine

namespace Sys2Proof.Claims

open Sys2Proof.Machine

/-- Settles O57: the frame of every ending, and the write set of every command. -/
theorem commandsWriteOnlyTheirFootprint : Obligations.CommandsWriteOnlyTheirFootprint := by
  intro i s t h
  obtain ⟨hirq, hcmd, hregs, hhost, hrdata, hraced, hfresh⟩ := exec_frame i s t h
  exact ⟨hirq, hcmd, hregs, hhost, hrdata, hraced, hfresh, exec_writesOnly i s t h⟩

end Sys2Proof.Claims
end

section
/-! PROOFS. The host's own accesses to memory: those of an idle block, and what a race leaves (20_memory R77 to R79,
60_exceptions R290). -/

namespace Sys2Proof.Machine

open Sys2Proof.Claims

theorem State.inProgress_idle {s : State} (h : s.status.busy = false) : s.inProgress = Footprint.none := by
  simp [State.inProgress, h]

theorem State.inProgress_busy {s : State} (h : s.status.busy = true) :
    s.inProgress = wordFootprint s.cmd s.regs := by
  simp [State.inProgress, h]

theorem State.hostMemWrite_idle {s : State} (a : Word) (v : Byte) (h : s.status.busy = false) :
    s.hostMemWrite a v = { s with mem := s.mem.write a v } := by
  simp [State.hostMemWrite, s.inProgress_idle h, Footprint.none]

theorem State.hostMemRead_idle {s : State} (a : Word) (h : s.status.busy = false) :
    s.hostMemRead a = { s with rdata := (s.mem.read a).setWidth 32 } := by
  simp [State.hostMemRead, s.inProgress_idle h, Footprint.none]

/-- A host write to an idle block changes memory only (20_memory R77). -/
theorem step_memWrite_idle {s : State} {a : Word} {v : Byte} {rest : List HostEvent} (h : s.status.busy = false)
    (hhost : s.host = .memWrite a v :: rest) : step s = .next { s with host := rest, mem := s.mem.write a v } := by
  rw [step_of_host_cons hhost]
  exact congrArg Host.Outcome.next (State.hostMemWrite_idle (s := taken s rest) a v h)

/-- A host read of an idle block answers the byte (20_memory R77). -/
theorem step_memRead_idle {s : State} {a : Word} {rest : List HostEvent} (h : s.status.busy = false)
    (hhost : s.host = .memRead a :: rest) :
    step s = .next { s with host := rest, rdata := (s.mem.read a).setWidth 32 } := by
  rw [step_of_host_cons hhost]
  exact congrArg Host.Outcome.next (State.hostMemRead_idle (s := taken s rest) a h)

/-- A raced command comes down to one ending in the memory it saw, with a free value in each byte of its write set
(20_memory R78; log entry 7). -/
theorem State.runRaced_finish (s : State) :
    ∃ (e : Ending) (seen : Memory) (drawn fresh : Nat),
      s.runRaced = .next { State.finish { s with mem := seen, raced := [] } e with
        mem := freeBytes drawn s.inProgress.writes s.mem, fresh := fresh } := by
  obtain ⟨e, he, -⟩ := State.runCommand_finish { s with mem := racedView s.fresh s.raced s.mem, raced := [] }
  exact ⟨e, _, _, _, by rw [State.runRaced, he]⟩

end Sys2Proof.Machine

namespace Sys2Proof.Claims

open Sys2Proof.Machine

/-- Settles O55: an idle block's host accesses are one write and one read of memory. -/
theorem hostMemoryReadsBack : Obligations.HostMemoryReadsBack := by
  intro s a v rest hwf hbacked hidle hhost
  refine ⟨_, step_memWrite_idle hidle hhost, ?_, fun b hb hne => s.mem.read_write_ne a b v hbacked hb hne, rfl⟩
  refine Eq.trans (step_memRead_idle hidle rfl) ?_
  simp only [s.mem.read_write_self a v hwf hbacked]

/-- Settles O56: whatever the engine saw, only the bytes of the write set take free values. -/
theorem racedCommandStillCompletes : Obligations.RacedCommandStillCompletes := by
  intro s hhost hbusy hraced hbacks
  rw [← State.inProgress_busy hbusy] at hbacks ⊢
  obtain ⟨e, seen, drawn, fresh, he⟩ := s.runRaced_finish
  have hstep : step s = s.runRaced := by
    rcases s.engineTurn_cases with ⟨hidle, -⟩ | ⟨-, hnone, -⟩ | ⟨-, -, hturn⟩
    · simp [hbusy] at hidle
    · exact absurd hnone hraced
    · rw [step_of_host_nil hhost, hturn]
  obtain ⟨hidle, hdone, -⟩ := State.finish_status { s with mem := seen, raced := [] } e
  obtain ⟨-, hcmd, hregs, -, -, hnil, -⟩ := State.finish_frame { s with mem := seen, raced := [] } e
  refine ⟨_, hstep.trans he, hidle, hdone, hregs, hcmd, hnil, fun a ha hn => ?_⟩
  exact (freeBytes_untouched a drawn s.inProgress.writes s.mem hbacks ha hn).2

end Sys2Proof.Claims
end

section
/-! PROOFS. Bytes and pixels: what `MemRead` and `GetPix` answer after `MemWrite` and `PutPix`, at the same and at
another place, and how the packer's commands agree with them (20_memory R62 to R69, 43_pack R162, R163, R166). -/

namespace Sys2Proof.Machine

open Sys2Proof.Claims

/-! ### Several bytes -/

theorem ones_getLsbD (n k : Nat) (hk : k < 32) : (ones n).getLsbD k = decide (k < n) := by
  rw [ones, BitVec.getLsbD_ofNat, Nat.testBit_two_pow_sub_one, decide_eq_true hk, Bool.true_and]

theorem mem_byteAddrs (a b : Word) (n : Nat) : b ∈ byteAddrs a n ↔ ∃ k < n, b = a + BitVec.ofNat 32 k := by
  induction n generalizing a with
  | zero => simp [byteAddrs]
  | succ n ih =>
    rw [byteAddrs, List.mem_cons, ih]
    constructor
    · rintro (rfl | ⟨k, hk, rfl⟩)
      · exact ⟨0, by omega, by simp⟩
      · exact ⟨k + 1, by omega, by rw [BitVec.ofNat_add]; ac_rfl⟩
    · rintro ⟨k, hk, rfl⟩
      cases k with
      | zero => exact .inl (by simp)
      | succ k => exact .inr ⟨k, by omega, by rw [BitVec.ofNat_add]; ac_rfl⟩

/-- The bytes of one access are apart from its first byte: the access does not wrap around the whole space. -/
theorem notMem_byteAddrs_succ (a : Word) {n : Nat} (hn : n < 4) : a ∉ byteAddrs (a + 1) n := by
  rw [mem_byteAddrs]
  rintro ⟨k, hk, h⟩
  bv_omega

/-- `MemRead` depends on nothing but the bytes it reads. -/
theorem memRead_congr {m m' : Memory} {a : Word} {n : Nat} (h : ∀ b ∈ byteAddrs a n, m'.read b = m.read b) :
    memRead m' a n = memRead m a n := by
  induction n generalizing a with
  | zero => rfl
  | succ n ih =>
    rw [memRead, memRead, h a (by simp [byteAddrs]), ih fun b hb => h b (List.mem_cons_of_mem _ hb)]

/-- The bits of `MemRead`: byte by byte, least significant first (20_memory R62). -/
theorem memRead_succ_getLsbD (m : Memory) (a : Word) (n k : Nat) (hk : k < 32) :
    (memRead m a (n + 1)).getLsbD k =
      if k < 8 then (m.read a).getLsbD k else (memRead m (a + 1) n).getLsbD (k - 8) := by
  rw [memRead, BitVec.getLsbD_or, BitVec.getLsbD_setWidth, BitVec.getLsbD_shiftLeft]
  by_cases h : k < 8
  · simp [h, hk]
  · simp [h, hk, BitVec.getLsbD_of_ge (m.read a) k (Nat.not_lt.1 h)]

/-- What `MemWrite` wrote `MemRead` reads back, cut to the bytes (20_memory R62, R63). -/
theorem memRead_memWrite (n : Nat) (hn : n ≤ 4) (m : Memory) (a v : Word) (hm : m.wf = true)
    (hb : m.backs (byteAddrs a n)) : memRead (memWrite m a n v) a n = v &&& ones (8 * n) := by
  induction n generalizing m a v with
  | zero => simp [memRead, ones]
  | succ n ih =>
    have ha : m.unbacked a.toNat = false := hb a (by simp [byteAddrs])
    have hrest : (m.write a (v.extractLsb' 0 8)).backs (byteAddrs (a + 1) n) :=
      fun b hb' => by simpa using hb b (List.mem_cons_of_mem _ hb')
    have hfirst : (memWrite m a (n + 1) v).read a = v.extractLsb' 0 8 := by
      rw [memWrite, memWrite_read_ne n _ _ _ a hrest (by simpa using ha) (notMem_byteAddrs_succ a (by omega)),
        m.read_write_self a _ hm ha]
    ext k hk
    rw [← BitVec.getLsbD_eq_getElem, ← BitVec.getLsbD_eq_getElem, memRead_succ_getLsbD _ _ _ _ hk, hfirst, memWrite,
      ih (by omega) _ _ _ (Memory.write_wf _ _ _ hm) hrest, BitVec.getLsbD_and, BitVec.getLsbD_and,
      ones_getLsbD _ _ hk, ones_getLsbD _ _ (by omega)]
    by_cases h8 : k < 8
    · simp [h8, show k < 8 * (n + 1) by omega]
    · simp [h8, show 8 + (k - 8) = k by omega, show k - 8 < 8 * n ↔ k < 8 * (n + 1) by omega]

/-! ### One pixel of a byte -/

theorem packByte_getLsbD (b mask v : Byte) (sh k : Nat) (hk : k < 8) :
    (packByte b mask sh v).getLsbD k =
      if mask.getLsbD k then decide (sh ≤ k) && v.getLsbD (k - sh) else b.getLsbD k := by
  rw [packByte, BitVec.getLsbD_or, BitVec.getLsbD_and, BitVec.getLsbD_and, BitVec.getLsbD_not,
    BitVec.getLsbD_shiftLeft]
  by_cases hsh : sh ≤ k <;> cases mask.getLsbD k <;> simp [hk, hsh]

theorem unpackByte_getLsbD (b mask : Byte) (sh k : Nat) :
    (unpackByte b mask sh).getLsbD k = (b.getLsbD (sh + k) && mask.getLsbD (sh + k)) := by
  simp [unpackByte]

/-- A pixel's place in its byte: `n` bits from `sh` up. -/
def FieldAt (mask : Byte) (sh n : Nat) : Prop :=
  sh + n ≤ 8 ∧ ∀ k < 8, mask.getLsbD k = (decide (sh ≤ k) && decide (k < sh + n))

theorem unpackByte_packByte {mask : Byte} {sh n : Nat} (h : FieldAt mask sh n) (b v : Byte) (k : Nat) :
    (unpackByte (packByte b mask sh v) mask sh).getLsbD k = (decide (k < n) && v.getLsbD k) := by
  obtain ⟨hn, hmask⟩ := h
  rw [unpackByte_getLsbD]
  by_cases hk : sh + k < 8
  · rw [packByte_getLsbD _ _ _ _ _ hk, hmask _ hk]
    by_cases hkn : k < n <;> simp [hkn]
  · simp [show ¬k < n by omega, BitVec.getLsbD_of_ge _ _ (Nat.not_lt.1 hk)]

/-- A pixel apart in the same byte is as before (20_memory R69). -/
theorem unpackByte_packByte_apart {mask mask' : Byte} (h : mask &&& mask' = 0) (b v : Byte) (sh sh' : Nat) :
    unpackByte (packByte b mask sh v) mask' sh' = unpackByte b mask' sh' := by
  have hkeep : packByte b mask sh v &&& mask' = b &&& mask' := by
    ext k hk
    have hbit : (mask &&& mask').getLsbD k = false := by simp [h]
    rw [BitVec.getLsbD_and, Bool.and_eq_false_iff] at hbit
    rw [← BitVec.getLsbD_eq_getElem, ← BitVec.getLsbD_eq_getElem, BitVec.getLsbD_and, BitVec.getLsbD_and,
      packByte_getLsbD _ _ _ _ _ hk]
    rcases hbit with hbit | hbit <;> simp [hbit]
  rw [unpackByte, unpackByte, hkeep]

/-- A byte with one pixel replaced by that pixel. -/
theorem packByte_unpackByte {mask : Byte} {sh n : Nat} (h : FieldAt mask sh n) (b : Byte) :
    packByte b mask sh (unpackByte b mask sh) = b := by
  obtain ⟨-, hmask⟩ := h
  ext k hk
  rw [← BitVec.getLsbD_eq_getElem, ← BitVec.getLsbD_eq_getElem, packByte_getLsbD _ _ _ _ _ hk, unpackByte_getLsbD]
  by_cases hbit : mask.getLsbD k = true
  · have hsh : sh ≤ k := by
      rw [hmask k hk, Bool.and_eq_true, decide_eq_true_eq] at hbit
      exact hbit.1
    simp [hbit, hsh]
  · simp [hbit]

/-- The in-byte mask and shift of a sub-byte pixel are a field of the depth's width (20_memory R66). -/
theorem pixAddr_fieldAt {V : View} (h : V.depth.subByte = true) (x y : Int) :
    FieldAt (pixAddr V x y).mask (pixAddr V x y).shift V.depth.bits := by
  have hbit : ∀ sh < 8, FieldAt (1#8 <<< sh) sh 1 := by unfold FieldAt; decide
  have hhigh : FieldAt 0xF0 4 4 := by unfold FieldAt; decide
  have hlow : FieldAt 0x0F 0 4 := by unfold FieldAt; decide
  obtain ⟨base, stride, depth, orgX, orgY, clipW, clipH⟩ := V
  cases depth with
  | bpp1 => exact hbit _ (by omega)
  | bpp4 =>
    simp only [pixAddr, Depth.bits]
    split
    · exact hhigh
    · exact hlow
  | bpp8 | bpp16 | bpp24 | bpp32 => cases h

/-! ### `GetPix` and `PutPix` -/

theorem getPix_subByte {V : View} (h : V.depth.subByte = true) (m : Memory) (x y : Int) :
    getPix V m x y =
      (unpackByte (m.read (pixAddr V x y).addr) (pixAddr V x y).mask (pixAddr V x y).shift).setWidth 32 := by
  simp [getPix, h]

theorem getPix_whole {V : View} (h : V.depth.subByte = false) (m : Memory) (x y : Int) :
    getPix V m x y = memRead m (pixAddr V x y).addr V.depth.bytes := by
  simp [getPix, h]

theorem putPix_subByte {V : View} (h : V.depth.subByte = true) (m : Memory) (x y : Int) (v : Word) :
    putPix V m x y v = m.write (pixAddr V x y).addr (packByte (m.read (pixAddr V x y).addr) (pixAddr V x y).mask
      (pixAddr V x y).shift ((v &&& ones V.depth.bits).setWidth 8)) := by
  simp [putPix, h]

theorem putPix_whole {V : View} (h : V.depth.subByte = false) (m : Memory) (x y : Int) (v : Word) :
    putPix V m x y v = memWrite m (pixAddr V x y).addr V.depth.bytes (v &&& ones V.depth.bits) := by
  simp [putPix, h]

theorem pixBytes_subByte {V : View} (h : V.depth.subByte = true) (x y : Int) :
    pixBytes V x y = [(pixAddr V x y).addr] := by
  have hd : V.depth.bytes = 1 := by revert h; cases V.depth <;> simp [Depth.subByte, Depth.bytes]
  simp [pixBytes, hd, byteAddrs]

theorem Depth.bits_whole {d : Depth} (h : d.subByte = false) : d.bits = 8 * d.bytes := by
  cases d with
  | bpp1 | bpp4 => cases h
  | bpp8 | bpp16 | bpp24 | bpp32 => rfl

theorem Depth.bytes_le (d : Depth) : d.bytes ≤ 4 := by cases d <;> decide

/-- `GetPix` depends on nothing but the bytes of its pixel (20_memory R68). -/
theorem getPix_congr {V : View} {m m' : Memory} {x y : Int} (h : ∀ a ∈ pixBytes V x y, m'.read a = m.read a) :
    getPix V m' x y = getPix V m x y := by
  cases hs : V.depth.subByte with
  | true =>
    rw [getPix_subByte hs, getPix_subByte hs, h _ (by simp [pixBytes_subByte hs])]
  | false => rw [getPix_whole hs, getPix_whole hs, memRead_congr h]

/-- A pixel reads back as written, cut to the depth (20_memory R68, R69). -/
theorem getPix_putPix_self (V : View) (m : Memory) (x y : Int) (v : Word) (hm : m.wf = true)
    (hb : m.backs (pixBytes V x y)) : getPix V (putPix V m x y v) x y = v &&& ones V.depth.bits := by
  cases hs : V.depth.subByte with
  | true =>
    have hfield := pixAddr_fieldAt hs x y
    rw [getPix_subByte hs, putPix_subByte hs, Memory.read_write_self _ _ _ hm (hb _ (by simp [pixBytes_subByte hs]))]
    ext k hk
    rw [← BitVec.getLsbD_eq_getElem, ← BitVec.getLsbD_eq_getElem, BitVec.getLsbD_setWidth,
      unpackByte_packByte hfield, BitVec.getLsbD_setWidth, BitVec.getLsbD_and, ones_getLsbD _ _ hk]
    by_cases hkn : k < V.depth.bits
    · simp [hk, hkn, show k < 8 from by obtain ⟨hle, -⟩ := hfield; omega]
    · simp [hkn]
  | false =>
    rw [getPix_whole hs, putPix_whole hs, memRead_memWrite _ V.depth.bytes_le _ _ _ hm hb, ← Depth.bits_whole hs,
      BitVec.and_assoc, BitVec.and_self]

/-- A pixel apart from a written one keeps its value (20_memory R69). -/
theorem getPix_putPix_apart (V W : View) (m : Memory) (x y x' y' : Int) (v : Word) (hm : m.wf = true)
    (hb : m.backs (pixBytes V x y)) (hb' : m.backs (pixBytes W x' y')) (h : PixelsApart V W x y x' y') :
    getPix W (putPix V m x y v) x' y' = getPix W m x' y' := by
  rcases h with hbytes | ⟨haddr, hs, hs', hmask⟩
  · exact getPix_congr fun a ha => putPix_read_ne V m x y v a hb (hb' a ha) fun hv => hbytes a hv ha
  · rw [getPix_subByte hs', getPix_subByte hs', ← haddr, putPix_subByte hs,
      Memory.read_write_self _ _ _ hm (hb _ (by simp [pixBytes_subByte hs])), unpackByte_packByte_apart hmask]

/-! ### The packer -/

/-- The pixel depth that a DEPTH field names (30_encoding R99). -/
def packerDepth : SubDepth → Depth
  | .bpp1 => .bpp1
  | .bpp4 => .bpp4

theorem packerDepth_subByte (d : SubDepth) : (packerDepth d).subByte = true := by cases d <;> rfl

theorem unpackValue_eq_unpackByte (d : SubDepth) (b : Byte) (X : Nat) :
    unpackValue d b X = unpackByte b (packerLoc d X).1 (packerLoc d X).2 := by
  cases d with
  | bpp1 =>
    have hone : (1#8 <<< (7 - X % 8)) >>> (7 - X % 8) = 1#8 := by
      have : ∀ sh < 8, (1#8 <<< sh) >>> sh = 1#8 := by decide
      exact this _ (by omega)
    simp only [unpackValue, unpackByte, packerLoc, BitVec.ushiftRight_and_distrib, hone]
    rfl
  | bpp4 =>
    unfold unpackValue unpackByte packerLoc
    dsimp only
    split
    · revert b; decide
    · simp

theorem packValue_eq_packByte (d : SubDepth) (b : Byte) (X : Nat) (v : Word) :
    packValue d b X v = packByte b (packerLoc d X).1 (packerLoc d X).2
      ((v &&& ones (packerDepth d).bits).setWidth 8) := by
  cases d <;> rfl

theorem word_toNat_emod (v : Int) {n : Int} (hn : n ∣ 2 ^ 32) : ((word v).toNat : Int) % n = v % n := by
  rw [word, BitVec.toNat_ofInt, Int.toNat_of_nonneg (Int.emod_nonneg _ (by decide))]
  exact Int.emod_emod_of_dvd v (by exact_mod_cast hn)

/-- The packer takes a column's place in its byte as `PixAddr` does: the low bits of the column decide it
(43_pack R162, R163). -/
theorem packerLoc_eq_pixAddr {V : View} {d : SubDepth} (h : V.depth = packerDepth d) (x y : Int) :
    packerLoc d (size (word (V.orgX + x))) = ((pixAddr V x y).mask, (pixAddr V x y).shift) := by
  obtain ⟨base, stride, depth, orgX, orgY, clipW, clipH⟩ := V
  obtain rfl : depth = packerDepth d := h
  cases d with
  | bpp1 =>
    have hcol : (7 - (orgX + x) % 8).toNat = 7 - size (word (orgX + x)) % 8 := by
      have := word_toNat_emod (orgX + x) (n := 8) (by decide)
      unfold size
      omega
    simp [packerLoc, pixAddr, packerDepth, hcol]
  | bpp4 =>
    have hcol : size (word (orgX + x)) % 2 = 0 ↔ (orgX + x) % 2 = 0 := by
      have := word_toNat_emod (orgX + x) (n := 2) (by decide)
      unfold size
      omega
    by_cases heven : (orgX + x) % 2 = 0 <;> simp [packerLoc, pixAddr, packerDepth, hcol, heven]

end Sys2Proof.Machine

namespace Sys2Proof.Claims

open Sys2Proof.Machine

/-- Settles O20: the packer's place in the byte is `PixAddr`'s, and a written byte reads back. -/
theorem packerAgreesWithPixelAccess : Obligations.PackerAgreesWithPixelAccess := by
  rintro s V x y d a hm hd rfl hbacked hopa hopb
  have hdepth : V.depth = packerDepth d := by rcases hd with ⟨h, rfl⟩ | ⟨h, rfl⟩ <;> exact h
  have hs : V.depth.subByte = true := hdepth ▸ packerDepth_subByte d
  have hloc := packerLoc_eq_pixAddr hdepth x y
  refine ⟨⟨_, rfl, ?_⟩, ⟨_, rfl, ?_⟩⟩
  · rw [getPix_subByte hs, ← hopa]
    simp [unpackValue_eq_unpackByte, hopb, hloc]
  · rw [putPix_subByte hs, Memory.read_write_self _ _ _ hm hbacked, ← hopa, hdepth]
    simp [packValue_eq_packByte, hopb, hloc]

/-- Settles O23: the two rules for a pixel after a pixel write. -/
theorem pixelReadsBackAsWritten : Obligations.PixelReadsBackAsWritten :=
  fun V m x y v hm hb => ⟨getPix_putPix_self V m x y v hm hb,
    fun W x' y' hb' h => getPix_putPix_apart V W m x y x' y' v hm hb hb' h⟩

end Sys2Proof.Claims
end

section
/-! PROOFS. Loops over pixels that lie apart: each pixel ends with the value its own round gives, from the source pixel
of the start; SOLIDFILL and DCONV1 are such loops (44_blit R181, 45_dither R222). -/

namespace Sys2Proof.Machine

open Sys2Proof.Claims

/-! ### A loop of pixel updates -/

/-- What each round `i` of a drawing loop does: the pixel `dstAt i` of `dst` takes the value `val i` of the pixel `srcAt i`
of `src`. -/
structure PixelUpdate (ι : Type) where
  dst : View
  src : View
  dstAt : ι → Int × Int
  srcAt : ι → Int × Int
  val : ι → Word → Word

/-- One round. -/
def PixelUpdate.round {ι : Type} (U : PixelUpdate ι) (m : Memory) (i : ι) : Memory :=
  putPix U.dst m (U.dstAt i).1 (U.dstAt i).2 (U.val i (getPix U.src m (U.srcAt i).1 (U.srcAt i).2))

/-- Memory is canonical and stands behind every pixel that the rounds of `l` write. -/
def PixelUpdate.Ready {ι : Type} (U : PixelUpdate ι) (l : List ι) (m : Memory) : Prop :=
  m.wf = true ∧ ∀ i ∈ l, m.backs (pixBytes U.dst (U.dstAt i).1 (U.dstAt i).2)

section
variable {ι : Type} {U : PixelUpdate ι} {l : List ι} {m : Memory}

theorem PixelUpdate.Ready.round {i : ι} (h : U.Ready (i :: l) m) : U.Ready l (U.round m i) := by
  obtain ⟨hm, hb⟩ := h
  exact ⟨putPix_wf _ _ _ _ _ hm, fun j hj => Memory.backs_of_holes (putPix_holes _ _ _ _ _) (hb j (by simp [hj]))⟩

/-- A pixel apart from the one a round writes is as before that round. -/
theorem PixelUpdate.getPix_round {i : ι} (h : U.Ready (i :: l) m) {W : View} {q : Int × Int}
    (hq : m.backs (pixBytes W q.1 q.2)) (ha : PixelsApart U.dst W (U.dstAt i).1 (U.dstAt i).2 q.1 q.2) :
    getPix W (U.round m i) q.1 q.2 = getPix W m q.1 q.2 := by
  obtain ⟨hm, hb⟩ := h
  exact getPix_putPix_apart _ _ _ _ _ _ _ _ hm (hb i (by simp)) hq ha

/-- A pixel apart from all that a loop writes is as before the loop. -/
theorem PixelUpdate.getPix_foldl_apart (h : U.Ready l m) {W : View} {q : Int × Int}
    (hq : m.backs (pixBytes W q.1 q.2)) (ha : ∀ i ∈ l, PixelsApart U.dst W (U.dstAt i).1 (U.dstAt i).2 q.1 q.2) :
    getPix W (l.foldl U.round m) q.1 q.2 = getPix W m q.1 q.2 := by
  induction l generalizing m with
  | nil => rfl
  | cons i t ih =>
    have hq' : (U.round m i).backs (pixBytes W q.1 q.2) := Memory.backs_of_holes (putPix_holes _ _ _ _ _) hq
    rw [List.foldl_cons, ih h.round hq' fun j hj => ha j (by simp [hj]), U.getPix_round h hq (ha i (by simp))]

/-- A loop over pixels that lie apart, from one another and from the source pixels of the other rounds, leaves in each
the value of its source pixel at the start. -/
theorem PixelUpdate.getPix_foldl (h : U.Ready l m) (hnd : l.Nodup)
    (hsrc : ∀ i ∈ l, m.backs (pixBytes U.src (U.srcAt i).1 (U.srcAt i).2))
    (hdst : ∀ i ∈ l, ∀ j ∈ l, i ≠ j →
      PixelsApart U.dst U.dst (U.dstAt i).1 (U.dstAt i).2 (U.dstAt j).1 (U.dstAt j).2)
    (hfrom : ∀ i ∈ l, ∀ j ∈ l, i ≠ j →
      PixelsApart U.dst U.src (U.dstAt i).1 (U.dstAt i).2 (U.srcAt j).1 (U.srcAt j).2)
    {i : ι} (hi : i ∈ l) :
    getPix U.dst (l.foldl U.round m) (U.dstAt i).1 (U.dstAt i).2 =
      U.val i (getPix U.src m (U.srcAt i).1 (U.srcAt i).2) &&& ones U.dst.depth.bits := by
  induction l generalizing m with
  | nil => cases hi
  | cons j t ih =>
    obtain ⟨hj, hnd'⟩ := List.nodup_cons.1 hnd
    rw [List.foldl_cons]
    rcases List.mem_cons.1 hi with rfl | hit
    · obtain ⟨hm, hb⟩ := h
      have hbi := hb i (by simp)
      rw [U.getPix_foldl_apart (PixelUpdate.Ready.round ⟨hm, hb⟩)
        (Memory.backs_of_holes (putPix_holes _ _ _ _ _) hbi)
        fun k hk => hdst k (by simp [hk]) i (by simp) (by rintro rfl; exact hj hk)]
      exact getPix_putPix_self _ _ _ _ _ hm hbi
    · have hne : j ≠ i := by rintro rfl; exact hj hit
      rw [ih h.round hnd'
        (fun k hk => Memory.backs_of_holes (putPix_holes _ _ _ _ _) (hsrc k (by simp [hk])))
        (fun k hk k' hk' => hdst k (by simp [hk]) k' (by simp [hk']))
        (fun k hk k' hk' => hfrom k (by simp [hk]) k' (by simp [hk'])) hit,
        U.getPix_round h (hsrc i hi) (hfrom j (by simp) i hi hne)]

end

/-! ### The pixels of a rectangle -/

/-- The pixel of a rectangle at a (column, row) offset. -/
def Rect.pixelAt (R : Rect) (c : Nat × Nat) : Int × Int := (R.x c, R.y c)

/-- The pixels of a rectangle, as the statements list them. -/
def Rect.points (R : Rect) : List (Int × Int) := rectPoints R.x0 R.y0 R.w R.h

theorem Rect.points_eq_map (R : Rect) : R.points = (rectCells R.w R.h false false).map R.pixelAt := rfl

theorem Rect.pixelAt_mem_points {R : Rect} {c : Nat × Nat} (h : c ∈ rectCells R.w R.h false false) :
    R.pixelAt c ∈ R.points :=
  List.mem_map_of_mem h

theorem Rect.pixelAt_injective (R : Rect) : Function.Injective R.pixelAt := by
  rintro ⟨c, r⟩ ⟨c', r'⟩ h
  obtain ⟨hx, hy⟩ := Prod.mk.inj h
  simp only [Rect.x, Rect.y] at hx hy
  ext <;> simp only <;> omega

theorem Rect.bytes_eq_pixelBytes (R : Rect) : R.bytes = pixelBytes R.view R.points := by
  rw [pixelBytes, R.points_eq_map, List.flatMap_map]
  rfl

theorem Rect.backs_at {R : Rect} {m : Memory} (h : m.backs (pixelBytes R.view R.points)) {c : Nat × Nat}
    (hc : c ∈ rectCells R.w R.h false false) : m.backs (pixBytes R.view (R.pixelAt c).1 (R.pixelAt c).2) :=
  Memory.backs_mono (fun _ ha => List.mem_flatMap_of_mem (R.pixelAt_mem_points hc) ha) h

theorem Rect.apart_at {R : Rect} (h : Apart R.view R.points) {c c' : Nat × Nat}
    (hc : c ∈ rectCells R.w R.h false false) (hc' : c' ∈ rectCells R.w R.h false false) (hne : c ≠ c') :
    PixelsApart R.view R.view (R.pixelAt c).1 (R.pixelAt c).2 (R.pixelAt c').1 (R.pixelAt c').2 :=
  h _ (R.pixelAt_mem_points hc) _ (R.pixelAt_mem_points hc') (R.pixelAt_injective.ne hne)

/-! ### SOLIDFILL -/

/-- The rounds of SOLIDFILL. -/
def Rect.fillUpdate (R : Rect) (p : MaskPair) : PixelUpdate (Nat × Nat) :=
  { dst := R.view, src := R.view, dstAt := R.pixelAt, srcAt := R.pixelAt, val := fun _ d => applyPair d p.and p.xor }

theorem solidfillRun_eq_foldl (p : MaskPair) (R : Rect) (m : Memory) :
    solidfillRun p R m = (rectCells R.w R.h false false).foldl (R.fillUpdate p).round m := rfl

theorem solidfillRun_empty (p : MaskPair) {R : Rect} (h : R.w = 0 ∨ R.h = 0) (m : Memory) :
    solidfillRun p R m = m := by
  have hnil : rectCells R.w R.h false false = [] := by
    refine List.eq_nil_iff_forall_not_mem.2 fun c hc => ?_
    have := (mem_rectCells _ _ _ _ c).1 hc
    omega
  rw [solidfillRun_eq_foldl, hnil, List.foldl_nil]

theorem Rect.inside_of_empty {R : Rect} (h : R.w = 0 ∨ R.h = 0) : R.inside = true := by
  rcases h with h | h <;> simp [Rect.inside, View.rectInside, h]

/-- The memory that SOLIDFILL leaves on a surface: its rectangle filled when it lies inside, else as it was. -/
theorem exec_solidfill_mem {c : BitVec 4} {msrc : Bool} {s t : State} {V : View} (hV : s.regs.dst.view = some V)
    (h : exec (.solidfill c msrc) s = .next t) :
    t.regs = s.regs ∧ t.mem = if (s.regs.dstRect V).inside then
      solidfillRun (s.regs.fillMasks c msrc) (s.regs.dstRect V) s.mem else s.mem := by
  have hchecks : solidfillChecks s.regs = checkRect (s.regs.dstRect V) := by simp [solidfillChecks, hV]
  have ht : s.finish ((checkRect (s.regs.dstRect V)).ending s.res s.mem fun R =>
      solidfillRun (s.regs.fillMasks c msrc) R s.mem) = t := hchecks ▸ Host.Outcome.next.inj h
  subst ht
  rcases checkRect_cases (s.regs.dstRect V) with ⟨hempty, e⟩ | ⟨-, hin, e⟩ | ⟨-, hout, e⟩ <;> rw [e]
  · rw [if_pos (Rect.inside_of_empty hempty), solidfillRun_empty _ hempty]
    exact ⟨rfl, rfl⟩
  · rw [if_pos hin]
    exact ⟨rfl, rfl⟩
  · rw [if_neg (by simp [hout])]
    exact ⟨rfl, rfl⟩

theorem fillMasks_and (r : Regs) (c : BitVec 4) (msrc : Bool) :
    (r.fillMasks c msrc).and = (solidPair r c msrc).1 := by
  cases msrc <;> rfl

theorem fillMasks_xor (r : Regs) (c : BitVec 4) (msrc : Bool) :
    (r.fillMasks c msrc).xor = (solidPair r c msrc).2 := by
  cases msrc <;> rfl

/-! ### DCONV1 -/

/-- The rounds of DCONV1. -/
def RectPair.ditherUpdate (P : RectPair) (src : Surface) : PixelUpdate (Nat × Nat) :=
  { dst := P.dst.view, src := P.src.view, dstAt := P.dst.pixelAt, srcAt := P.src.pixelAt,
    val := fun c v => bitWord (mono (src.pixToRgb v) (P.dst.x c) (P.dst.y c)) }

/-- Without padding the rows of DCONV1 are one pass over the rectangle. -/
theorem dconv1Run_eq_foldl (src : Surface) (P : RectPair) (m : Memory) :
    dconv1Run src false P m = (rectCells P.dst.w P.dst.h false false).foldl (P.ditherUpdate src).round m := by
  rw [rectCells, List.foldl_flatMap]
  rfl

theorem chanTooWide_eq_false {S : Surface} (h : ¬wideChannel S) : S.chanTooWide = false := by
  simp only [wideChannel, not_or] at h
  simp [Surface.chanTooWide, Chan.tooWide, h]

/-- DCONV1 past its checks. -/
theorem exec_dconv1_inside {pad : Bool} {s : State} {D S : View} (hD : s.regs.dst.view = some D)
    (hS : s.regs.src.view = some S) (hd : D.depth = .bpp1) (hs : S.depth.bitfield = true)
    (hwide : ¬wideChannel s.regs.src) (hne : ¬((s.regs.dstRect D).w = 0 ∨ (s.regs.dstRect D).h = 0))
    (hDin : (s.regs.dstRect D).inside = true) (hSin : (s.regs.srcRect S).inside = true) :
    exec (.dconv1 pad) s = .next (s.complete s.res (dconv1Run s.regs.src pad
      { dst := s.regs.dstRect D, src := s.regs.srcRect S } s.mem)) := by
  have hchecks : dconv1Checks s.regs = .go { dst := s.regs.dstRect D, src := s.regs.srcRect S } := by
    simp [dconv1Checks, hD, hS, hd, hs, chanTooWide_eq_false hwide, checkPair, hne, hDin, hSin]
  show Host.Outcome.next (s.finish ((dconv1Checks s.regs).ending s.res s.mem _)) = _
  rw [hchecks]
  rfl

/-- The comparator's answer as a 1 bpp pixel (45_dither R216). -/
theorem bitWord_mono_and_ones (rgb : Word) (x y : Int) :
    bitWord (mono rgb x y) &&& ones 1 = if 255 < gray rgb + thresh .t16 x y then 1 else 0 := by
  unfold mono
  by_cases h : 255 < gray rgb + thresh .t16 x y
  · rw [if_pos h, decide_eq_true h]
    rfl
  · rw [if_neg h, decide_eq_false h]
    rfl

end Sys2Proof.Machine

namespace Sys2Proof.Claims

open Sys2Proof.Machine

/-- Settles O32: SOLIDFILL is a loop over pixels that lie apart. -/
theorem solidfillUpdatesEachPixelOnce : Obligations.SolidfillUpdatesEachPixelOnce := by
  rintro c msrc s V x0 y0 w h hm hV rfl rfl rfl rfl hin hapart hbacks
  obtain ⟨e, hexec, -⟩ := exec_finish (.solidfill c msrc) s
  obtain ⟨-, hmem⟩ := exec_solidfill_mem hV hexec
  rw [if_pos (show (s.regs.dstRect V).inside = true from hin)] at hmem
  have hready : ((s.regs.dstRect V).fillUpdate (s.regs.fillMasks c msrc)).Ready
      (rectCells (s.regs.dstRect V).w (s.regs.dstRect V).h false false) s.mem :=
    ⟨hm, fun _ hc => Rect.backs_at hbacks hc⟩
  refine ⟨_, hexec, ?_, ?_, ?_⟩ <;> rw [hmem]
  · intro p hp
    obtain ⟨k, hk, rfl⟩ := List.mem_map.1 hp
    rw [← fillMasks_and, ← fillMasks_xor]
    exact PixelUpdate.getPix_foldl hready (rectCells_nodup _ _ _ _) (fun _ hc => Rect.backs_at hbacks hc)
      (fun _ hi _ hj => Rect.apart_at hapart hi hj) (fun _ hi _ hj => Rect.apart_at hapart hi hj) hk
  · intro W q hq hfar
    exact PixelUpdate.getPix_foldl_apart hready hq
      fun k hk => hfar _ (Rect.pixelAt_mem_points (R := s.regs.dstRect V) hk) q (by simp)
  · have hframe := solidfillRun_writesOnly (s.regs.fillMasks c msrc) (s.regs.dstRect V) s.mem
    rw [Rect.bytes_eq_pixelBytes] at hframe
    exact hframe.2 hbacks

/-- Settles O29: DCONV1 without padding is a loop over pixels that lie apart. -/
theorem ditheredPixels : Obligations.DitheredPixels := by
  rintro s t D S x0 y0 sx0 sy0 w h hm hD hS hd hs hwide rfl rfl rfl rfl rfl rfl hDin hSin hapart hfrom hbD hbS hexec
    c r hc hr
  have hne : ¬((s.regs.dstRect D).w = 0 ∨ (s.regs.dstRect D).h = 0) := by
    rintro (h0 | h0)
    · exact absurd (h0 ▸ hc : c < 0) (Nat.not_lt_zero c)
    · exact absurd (h0 ▸ hr : r < 0) (Nat.not_lt_zero r)
  rw [exec_dconv1_inside hD hS hd hs hwide hne hDin hSin] at hexec
  obtain rfl := Host.Outcome.next.inj hexec
  have hmem : (c, r) ∈ rectCells (s.regs.dstRect D).w (s.regs.dstRect D).h false false :=
    (mem_rectCells _ _ _ _ _).2 ⟨hc, hr⟩
  have hpixel := PixelUpdate.getPix_foldl
    (U := RectPair.ditherUpdate { dst := s.regs.dstRect D, src := s.regs.srcRect S } s.regs.src)
    ⟨hm, fun _ hi => Rect.backs_at hbD hi⟩ (rectCells_nodup _ _ _ _)
    (fun _ hi => Rect.backs_at (R := s.regs.srcRect S) hbS hi) (fun _ hi _ hj => Rect.apart_at hapart hi hj)
    (fun _ hi _ hj _ => hfrom _ (Rect.pixelAt_mem_points (R := s.regs.dstRect D) hi) _
      (Rect.pixelAt_mem_points (R := s.regs.srcRect S) hj)) hmem
  rw [State.complete_mem, dconv1Run_eq_foldl]
  refine hpixel.trans ?_
  show bitWord _ &&& ones D.depth.bits = _
  rw [hd]
  exact bitWord_mono_and_ones _ _ _

end Sys2Proof.Claims
end

section
/-! PROOFS. Overwriting: a drawing command whose values do not depend on memory sets some bits and keeps the others, so
that running it twice is running it once, whether or not its pixels share memory (42_rop R153). -/

namespace Sys2Proof.Machine

open Sys2Proof.Claims

/-! ### A byte with some bits set to fixed values -/

/-- The byte `b` with the bits under `k` taken from `v`. -/
def overlay (b k v : Byte) : Byte := (b &&& ~~~k) ||| (v &&& k)

theorem overlay_getLsbD (b k v : Byte) (i : Nat) (hi : i < 8) :
    (overlay b k v).getLsbD i = if k.getLsbD i then v.getLsbD i else b.getLsbD i := by
  rw [overlay, BitVec.getLsbD_or, BitVec.getLsbD_and, BitVec.getLsbD_and, BitVec.getLsbD_not]
  cases k.getLsbD i <;> simp [hi]

theorem overlay_zero (b v : Byte) : overlay b 0 v = b := by
  have hnot : ~~~(0 : Byte) = BitVec.allOnes 8 := rfl
  rw [overlay, hnot, BitVec.and_allOnes]
  simp

theorem overlay_allOnes (b v : Byte) : overlay b (BitVec.allOnes 8) v = v := by
  rw [overlay, BitVec.not_allOnes, BitVec.and_zero, BitVec.and_allOnes, BitVec.zero_or]

/-- Two overlays one after the other are one. -/
theorem overlay_overlay (b k v k' v' : Byte) :
    overlay (overlay b k v) k' v' = overlay b (k ||| k') (overlay v k' v') := by
  ext i hi
  simp only [← BitVec.getLsbD_eq_getElem, overlay_getLsbD _ _ _ _ hi, BitVec.getLsbD_or]
  cases k.getLsbD i <;> cases k'.getLsbD i <;> rfl

theorem overlay_idem (b k v : Byte) : overlay (overlay b k v) k v = overlay b k v := by
  ext i hi
  simp only [← BitVec.getLsbD_eq_getElem, overlay_getLsbD _ _ _ _ hi]
  cases k.getLsbD i <;> rfl

theorem packByte_eq_overlay (b mask v : Byte) (sh : Nat) : packByte b mask sh v = overlay b mask (v <<< sh) := rfl

/-! ### Memory with some bits set to fixed values -/

/-- On a platform with the unbacked ranges `holes`, `f` sets the same bits of the backed bytes to the same values,
whatever the memory. -/
def Overwrites (holes : List (Nat × Nat)) (f : Memory → Memory) : Prop :=
  ∃ mask val : Word → Byte, ∀ m : Memory, m.wf = true → m.holes = holes →
    (f m).wf = true ∧ (f m).holes = holes ∧
      ∀ a : Word, m.unbacked a.toNat = false → (f m).read a = overlay (m.read a) (mask a) (val a)

/-- Overwriting twice is overwriting once. -/
theorem Overwrites.idem {holes : List (Nat × Nat)} {f : Memory → Memory} (h : Overwrites holes f) {m : Memory}
    (hm : m.wf = true) (hh : m.holes = holes) : f (f m) = f m := by
  obtain ⟨mask, val, hf⟩ := h
  obtain ⟨hm1, hh1, hread1⟩ := hf m hm hh
  obtain ⟨hm2, hh2, hread2⟩ := hf (f m) hm1 hh1
  refine Memory.eq_of_read _ _ hm2 hm1 (hh2.trans hh1.symm) fun a ha => ?_
  have ha1 : (f m).unbacked a.toNat = false := (Memory.unbacked_of_holes (hh1.trans hh2.symm) _).trans ha
  have ha0 : m.unbacked a.toNat = false := (Memory.unbacked_of_holes (hh.trans hh1.symm) _).trans ha1
  rw [hread2 a ha1, hread1 a ha0, overlay_idem]

theorem Overwrites.id (holes : List (Nat × Nat)) : Overwrites holes fun m => m :=
  ⟨fun _ => 0, fun _ => 0, fun _ hm hh => ⟨hm, hh, fun _ _ => (overlay_zero _ _).symm⟩⟩

theorem Overwrites.comp {holes : List (Nat × Nat)} {f g : Memory → Memory} (hg : Overwrites holes g)
    (hf : Overwrites holes f) : Overwrites holes fun m => g (f m) := by
  obtain ⟨mask, val, hf⟩ := hf
  obtain ⟨mask', val', hg⟩ := hg
  refine ⟨fun a => mask a ||| mask' a, fun a => overlay (val a) (mask' a) (val' a), fun m hm hh => ?_⟩
  obtain ⟨hm1, hh1, hread1⟩ := hf m hm hh
  obtain ⟨hm2, hh2, hread2⟩ := hg (f m) hm1 hh1
  refine ⟨hm2, hh2, fun a ha => ?_⟩
  have ha1 : (f m).unbacked a.toNat = false := (Memory.unbacked_of_holes (hh1.trans hh.symm) _).trans ha
  rw [hread2 a ha1, hread1 a ha, overlay_overlay]

theorem Overwrites.foldl {ι : Type} {holes : List (Nat × Nat)} {f : Memory → ι → Memory} {l : List ι}
    (h : ∀ i ∈ l, Overwrites holes fun m => f m i) : Overwrites holes fun m => l.foldl f m := by
  induction l with
  | nil => exact .id holes
  | cons i t ih => exact (ih fun j hj => h j (by simp [hj])).comp (h i (by simp))

/-- A write that sets some bits of one backed byte. -/
theorem Overwrites.write {m₀ : Memory} {a : Word} (ha : m₀.unbacked a.toNat = false) (k v : Byte) :
    Overwrites m₀.holes fun m => m.write a (overlay (m.read a) k v) := by
  refine ⟨fun b => if b = a then k else 0, fun _ => v, fun m hm hh => ?_⟩
  have ham : m.unbacked a.toNat = false := (Memory.unbacked_of_holes hh _).trans ha
  refine ⟨Memory.write_wf _ _ _ hm, (m.write_holes a _).trans hh, fun b hb => ?_⟩
  dsimp only
  by_cases hba : b = a
  · subst hba
    rw [m.read_write_self b _ hm ham, if_pos rfl]
  · rw [m.read_write_ne a b _ ham hb hba, if_neg hba, overlay_zero]

theorem Overwrites.memWrite {m₀ : Memory} {n : Nat} {a : Word} (hb : m₀.backs (byteAddrs a n)) (v : Word) :
    Overwrites m₀.holes fun m => memWrite m a n v := by
  induction n generalizing a v with
  | zero => exact .id _
  | succ n ih =>
    have hfirst := Overwrites.write (hb a (by simp [byteAddrs])) (BitVec.allOnes 8) (v.extractLsb' 0 8)
    simp only [overlay_allOnes] at hfirst
    exact (ih (fun b hb' => hb b (List.mem_cons_of_mem _ hb')) (v >>> 8)).comp hfirst

/-- `PutPix` of a fixed value. -/
theorem Overwrites.putPix {m₀ : Memory} {V : View} {x y : Int} (hb : m₀.backs (pixBytes V x y)) (v : Word) :
    Overwrites m₀.holes fun m => putPix V m x y v := by
  cases hs : V.depth.subByte with
  | true =>
    simp only [putPix_subByte hs, packByte_eq_overlay]
    exact .write (hb _ (by simp [pixBytes_subByte hs])) _ _
  | false =>
    simp only [putPix_whole hs]
    exact .memWrite hb _

/-! ### A pixel rewritten with its own value -/

theorem Memory.write_read {m : Memory} {a : Word} (hm : m.wf = true) (ha : m.unbacked a.toNat = false) :
    m.write a (m.read a) = m := by
  refine Memory.eq_of_read _ _ (Memory.write_wf _ _ _ hm) hm (m.write_holes a _) fun b hb => ?_
  by_cases hba : b = a
  · rw [hba, m.read_write_self a _ hm ha]
  · exact m.read_write_ne a b _ ha (by simpa using hb) hba

/-- `MemRead` answers nothing above its bytes. -/
theorem memRead_getLsbD_of_ge (m : Memory) (a : Word) (n k : Nat) (h : 8 * n ≤ k) :
    (memRead m a n).getLsbD k = false := by
  by_cases hk : k < 32
  · induction n generalizing a k with
    | zero => simp [memRead]
    | succ n ih => rw [memRead_succ_getLsbD _ _ _ _ hk, if_neg (by omega), ih _ _ (by omega) (by omega)]
  · exact BitVec.getLsbD_of_ge _ _ (Nat.not_lt.1 hk)

theorem memWrite_memRead (n : Nat) (hn : n ≤ 4) (m : Memory) (a : Word) (hm : m.wf = true)
    (hb : m.backs (byteAddrs a n)) : memWrite m a n (memRead m a n) = m := by
  induction n generalizing a with
  | zero => rfl
  | succ n ih =>
    have hlow : (memRead m a (n + 1)).extractLsb' 0 8 = m.read a := by
      ext k hk
      rw [BitVec.getElem_extractLsb', ← BitVec.getLsbD_eq_getElem, Nat.zero_add,
        memRead_succ_getLsbD _ _ _ _ (by omega), if_pos hk]
    have hhigh : memRead m a (n + 1) >>> 8 = memRead m (a + 1) n := by
      ext k hk
      rw [← BitVec.getLsbD_eq_getElem, ← BitVec.getLsbD_eq_getElem, BitVec.getLsbD_ushiftRight]
      by_cases h32 : 8 + k < 32
      · rw [memRead_succ_getLsbD _ _ _ _ h32, if_neg (by omega), Nat.add_sub_cancel_left]
      · rw [BitVec.getLsbD_of_ge _ _ (Nat.not_lt.1 h32), memRead_getLsbD_of_ge _ _ _ _ (by omega)]
    rw [memWrite, hlow, hhigh, Memory.write_read hm (hb a (by simp [byteAddrs]))]
    exact ih (by omega) (a + 1) fun b hb' => hb b (List.mem_cons_of_mem _ hb')

/-- A pixel's value fits its depth (20_memory R68). -/
theorem getPix_and_ones (V : View) (m : Memory) (x y : Int) :
    getPix V m x y &&& ones V.depth.bits = getPix V m x y := by
  ext k hk
  rw [← BitVec.getLsbD_eq_getElem, ← BitVec.getLsbD_eq_getElem, BitVec.getLsbD_and, ones_getLsbD _ _ hk]
  by_cases hkn : k < V.depth.bits
  · simp [hkn]
  · cases hs : V.depth.subByte with
    | true =>
      obtain ⟨hle, hmask⟩ := pixAddr_fieldAt hs x y
      have habove : (pixAddr V x y).mask.getLsbD ((pixAddr V x y).shift + k) = false := by
        by_cases h8 : (pixAddr V x y).shift + k < 8
        · simp [hmask _ h8, hkn]
        · exact BitVec.getLsbD_of_ge _ _ (Nat.not_lt.1 h8)
      rw [getPix_subByte hs, BitVec.getLsbD_setWidth, unpackByte_getLsbD, habove]
      simp
    | false =>
      rw [getPix_whole hs, memRead_getLsbD_of_ge _ _ _ _ (by rw [← Depth.bits_whole hs]; omega)]
      simp

/-- A pixel rewritten with its own value leaves memory as it was. -/
theorem putPix_getPix {V : View} {m : Memory} {x y : Int} (hm : m.wf = true) (hb : m.backs (pixBytes V x y)) :
    putPix V m x y (getPix V m x y) = m := by
  cases hs : V.depth.subByte with
  | true =>
    have hbyte (b : Byte) : (b.setWidth 32).setWidth 8 = b := by simp
    rw [putPix_subByte hs, getPix_and_ones, getPix_subByte hs, hbyte, packByte_unpackByte (pixAddr_fieldAt hs x y),
      Memory.write_read hm (hb _ (by simp [pixBytes_subByte hs]))]
  | false =>
    rw [putPix_whole hs, getPix_and_ones, getPix_whole hs, memWrite_memRead _ V.depth.bytes_le _ _ hm hb]

/-! ### The codes S and D -/

theorem applyPair_copy (d colour : Word) : applyPair d 0 colour = colour := by simp [applyPair]

theorem applyPair_keep (d : Word) : applyPair d 0xFFFFFFFF 0 = d := by
  rw [applyPair, show (0xFFFFFFFF : Word) = BitVec.allOnes 32 from rfl, BitVec.and_allOnes]
  exact BitVec.xor_zero

theorem ropMask_copy (colour : Word) : ropMask 12 colour = { and := 0, xor := colour } := by
  have hconsts : ropConsts 12 = { a1 := 0, a2 := 0, x1 := BitVec.allOnes 32, x2 := 0 } := by decide
  rw [ropMask, hconsts]
  simp only [BitVec.and_allOnes]
  simp

theorem ropMask_keep (colour : Word) : ropMask 10 colour = { and := 0xFFFFFFFF, xor := 0 } := by
  have hconsts : ropConsts 10 = { a1 := 0, a2 := 0xFFFFFFFF, x1 := 0, x2 := 0 } := by decide
  rw [ropMask, hconsts]
  simp

theorem solidfillRun_copy_overwrites {R : Rect} {m : Memory} (hb : m.backs R.bytes) (colour : Word) :
    Overwrites m.holes (solidfillRun { and := 0, xor := colour } R) := by
  refine .foldl fun c hc => ?_
  simp only [fillPix, applyPair_copy]
  exact .putPix (Memory.backs_mono (R.pixBytes_subset_bytes ((mem_rectCells _ _ _ _ c).1 hc)) hb) colour

theorem solidfillRun_keep {R : Rect} {m : Memory} (hm : m.wf = true) (hb : m.backs R.bytes) :
    solidfillRun { and := 0xFFFFFFFF, xor := 0 } R m = m := by
  refine foldl_keeps (fun m' => m' = m) _ _ (fun m' c hc hm' => ?_) m rfl
  subst hm'
  simp only [fillPix, applyPair_keep]
  exact putPix_getPix hm (Memory.backs_mono (R.pixBytes_subset_bytes ((mem_rectCells _ _ _ _ c).1 hc)) hb)

end Sys2Proof.Machine

namespace Sys2Proof.Claims

open Sys2Proof.Machine

/-- Settles O33: a copy fill overwrites, and the code D rewrites each pixel with its own value. -/
theorem copyFillIsIdempotent : Obligations.CopyFillIsIdempotent := by
  refine ⟨fun colour d => ⟨ropMask_copy colour, applyPair_copy d colour, ropMask_keep colour⟩, ?_⟩
  intro s t V hm hV hbacks
  have hbytes : s.mem.backs (s.regs.dstRect V).bytes := by
    rw [Rect.bytes_eq_pixelBytes]
    exact hbacks
  have hcopy : s.regs.fillMasks 12 false = { and := 0, xor := s.regs.fgPixel } := ropMask_copy _
  have hkeep : s.regs.fillMasks 10 false = { and := 0xFFFFFFFF, xor := 0 } := ropMask_keep _
  constructor
  · intro ht
    obtain ⟨e, hu, -⟩ := exec_finish (.solidfill 12 false) t
    obtain ⟨hregs, htmem⟩ := exec_solidfill_mem hV ht
    obtain ⟨-, humem⟩ := exec_solidfill_mem (hregs ▸ hV) hu
    refine ⟨_, hu, ?_⟩
    rw [hregs, hcopy] at humem
    rw [hcopy] at htmem
    rw [humem]
    split
    · next hin =>
      rw [htmem, if_pos hin]
      exact (solidfillRun_copy_overwrites hbytes _).idem hm rfl
    · rfl
  · intro ht
    obtain ⟨-, htmem⟩ := exec_solidfill_mem hV ht
    rw [htmem, hkeep, solidfillRun_keep hm hbytes, ite_self]

end Sys2Proof.Claims
end

section
/-! PROOFS. Padding: which bytes of a row `PadRow` clears in part and whole, and what every other byte keeps
(45_dither R223). -/

namespace Sys2Proof.Machine

open Sys2Proof.Claims

/-- The address of byte `k` of a row. -/
def rowByte (V : View) (y : Int) (k : Nat) : Word := wrap32 (rowStart V y + k)

/-- The bytes of a row of less than 2^32 bytes are different bytes. -/
theorem rowByte_inj {V : View} (hV : V.stride.natAbs < 2 ^ 32) (y : Int) {k k' : Nat} (hk : k < V.stride.natAbs)
    (hk' : k' < V.stride.natAbs) (h : rowByte V y k = rowByte V y k') : k = k' := by
  have hmod := congrArg (fun w : Word => (w.toNat : Int)) h
  simp only [rowByte, wrap32, BitVec.toNat_ofInt] at hmod
  omega

theorem stride_lt_of_view {S : Surface} {V : View} (h : S.view = some V) : V.stride.natAbs < 2 ^ 32 := by
  unfold Surface.view at h
  split at h
  · cases h
  · obtain rfl := Option.some.inj h
    have hle := S.stride.toInt_le
    have hge := S.stride.le_toInt
    simp only [coord]
    omega

theorem mem_padWhole (V : View) (y Xe : Int) (a : Word) :
    a ∈ padWhole V y Xe ↔ ∃ k, padFirst Xe ≤ k ∧ k < V.stride.natAbs ∧ a = rowByte V y k := by
  simp only [padWhole, List.mem_map, List.mem_range]
  constructor
  · rintro ⟨j, hj, rfl⟩
    exact ⟨padFirst Xe + j, by omega, by omega, rfl⟩
  · rintro ⟨k, hk, hlt, rfl⟩
    exact ⟨k - padFirst Xe, by omega, by rw [Nat.add_sub_cancel' hk]; rfl⟩

/-- The byte cleared in part is the one before the first that is cleared whole. -/
theorem padPartial_eq_some_iff (V : View) (y Xe : Int) (a : Word) :
    padPartial V y Xe = some a ↔
      ∃ k < V.stride.natAbs, Xe % 8 ≠ 0 ∧ (k : Int) = Xe / 8 ∧ a = rowByte V y k := by
  unfold padPartial
  constructor
  · intro h
    split at h
    · next hc =>
      obtain ⟨hmod, hge, hlt⟩ := hc
      refine ⟨(Xe / 8).toNat, by omega, hmod, by omega, ?_⟩
      rw [rowByte, Int.toNat_of_nonneg hge]
      exact (Option.some.inj h).symm
    · cases h
  · rintro ⟨k, hk, hmod, he, rfl⟩
    rw [if_pos ⟨hmod, by omega, by omega⟩, ← he]
    rfl

theorem mem_padBytes {V : View} {y Xe : Int} {a : Word} (h : a ∈ padBytes V y Xe) :
    ∃ k < V.stride.natAbs, a = rowByte V y k := by
  rcases List.mem_append.1 h with h | h
  · obtain ⟨k, hk, -, -, ha⟩ := (padPartial_eq_some_iff V y Xe a).1 (Option.mem_toList.1 h)
    exact ⟨k, hk, ha⟩
  · obtain ⟨k, -, hk, ha⟩ := (mem_padWhole V y Xe a).1 h
    exact ⟨k, hk, ha⟩

/-- Zeros written to a list of bytes. -/
theorem read_foldl_write_zero (l : List Word) (m : Memory) (hm : m.wf = true) (hb : m.backs l) (a : Word)
    (ha : m.unbacked a.toNat = false) :
    (l.foldl (fun m' b => m'.write b 0) m).read a = if a ∈ l then 0 else m.read a := by
  induction l generalizing m with
  | nil => rfl
  | cons b t ih =>
    have hbb : m.unbacked b.toNat = false := hb b (by simp)
    rw [List.foldl_cons, ih _ (Memory.write_wf _ _ _ hm) (fun c hc => by simpa using hb c (by simp [hc]))
      (by simpa using ha)]
    by_cases hat : a ∈ t
    · simp [hat]
    · by_cases hab : a = b
      · rw [if_neg hat, if_pos (by simp [hab]), hab, m.read_write_self b 0 hm hbb]
      · rw [if_neg hat, if_neg (by simp [hab, hat]), m.read_write_ne b a 0 hbb ha hab]

/-- A byte after `PadRow`: 0, or the columns before `Xe` of the byte cleared in part, or as before. -/
theorem read_padRow {V : View} {m : Memory} {y Xe : Int} (hm : m.wf = true) (hb : m.backs (padBytes V y Xe)) (a : Word)
    (ha : m.unbacked a.toNat = false) :
    (padRow V m y Xe).read a =
      if a ∈ padWhole V y Xe then 0
      else if padPartial V y Xe = some a then m.read a &&& padMask Xe else m.read a := by
  have hwhole : m.backs (padWhole V y Xe) := Memory.backs_mono (List.subset_append_right _ _) hb
  unfold padRow
  cases hp : padPartial V y Xe with
  | none => simpa using read_foldl_write_zero _ m hm hwhole a ha
  | some b =>
    have hbb : m.unbacked b.toNat = false := hb b (by simp [padBytes, hp])
    have hzero := read_foldl_write_zero (padWhole V y Xe) (m.write b (m.read b &&& padMask Xe))
      (Memory.write_wf _ _ _ hm) (Memory.backs_of_holes (m.write_holes _ _) hwhole) a (by simpa using ha)
    refine hzero.trans (if_congr Iff.rfl rfl ?_)
    by_cases hab : b = a
    · rw [hab, if_pos rfl, m.read_write_self a _ hm (hab ▸ hbb)]
    · rw [if_neg (by simpa using hab), m.read_write_ne b a _ hbb ha (Ne.symm hab)]

/-- The columns before `Xe` of the byte cleared in part, most significant bit first. -/
theorem padMask_getLsbD (Xe : Int) (j : Nat) (hj : j < 8) :
    (padMask Xe).getLsbD (7 - j) = decide ((j : Int) < Xe % 8) := by
  have hbits : ∀ s ≤ 8, ∀ i < 8, (0xFF#8 <<< s).getLsbD i = decide (s ≤ i) := by decide
  rw [padMask, hbits _ (by omega) _ (by omega), decide_eq_decide]
  omega

theorem padFirst_le_iff (Xe : Int) (k : Nat) : padFirst Xe ≤ k ↔ Xe ≤ 8 * (k : Int) := by
  unfold padFirst
  split <;> omega

theorem rowByte_mem_padWhole_iff {V : View} (hV : V.stride.natAbs < 2 ^ 32) (y Xe : Int) {k : Nat}
    (hk : k < V.stride.natAbs) : rowByte V y k ∈ padWhole V y Xe ↔ Xe ≤ 8 * (k : Int) := by
  rw [mem_padWhole, ← padFirst_le_iff]
  constructor
  · rintro ⟨k', hfirst, hk', h⟩
    rwa [rowByte_inj hV y hk hk' h]
  · exact fun h => ⟨k, h, hk, rfl⟩

theorem padPartial_eq_rowByte_iff {V : View} (hV : V.stride.natAbs < 2 ^ 32) (y Xe : Int) {k : Nat}
    (hk : k < V.stride.natAbs) :
    padPartial V y Xe = some (rowByte V y k) ↔ Xe % 8 ≠ 0 ∧ (k : Int) = Xe / 8 := by
  rw [padPartial_eq_some_iff]
  constructor
  · rintro ⟨k', hk', hmod, he, h⟩
    rw [rowByte_inj hV y hk hk' h]
    exact ⟨hmod, he⟩
  · exact fun ⟨hmod, he⟩ => ⟨k, hk, hmod, he, rfl⟩

/-- A column of a padded row, by the place of its byte: after, at, or before the column `Xe`. -/
theorem read_padRow_column {V : View} {m : Memory} {y Xe : Int} (hV : V.stride.natAbs < 2 ^ 32) (hm : m.wf = true)
    (hb : m.backs (padBytes V y Xe)) {k j : Nat} (hk : k < V.stride.natAbs) (hj : j < 8)
    (ha : m.unbacked (rowByte V y k).toNat = false) :
    ((padRow V m y Xe).read (rowByte V y k)).getLsbD (7 - j) =
      (decide (((8 * k + j : Nat) : Int) < Xe) && (m.read (rowByte V y k)).getLsbD (7 - j)) := by
  rw [read_padRow hm hb _ ha]
  by_cases hafter : Xe ≤ 8 * (k : Int)
  · rw [if_pos ((rowByte_mem_padWhole_iff hV y Xe hk).2 hafter), decide_eq_false (by omega)]
    simp
  · rw [if_neg (mt (rowByte_mem_padWhole_iff hV y Xe hk).1 hafter)]
    by_cases hat : Xe % 8 ≠ 0 ∧ (k : Int) = Xe / 8
    · rw [if_pos ((padPartial_eq_rowByte_iff hV y Xe hk).2 hat), BitVec.getLsbD_and, padMask_getLsbD Xe j hj,
        Bool.and_comm]
      exact congrArg (· && _) (decide_eq_decide.2 (by omega))
    · rw [if_neg (mt (padPartial_eq_rowByte_iff hV y Xe hk).1 hat), decide_eq_true (by omega), Bool.true_and]

end Sys2Proof.Machine

namespace Sys2Proof.Claims

open Sys2Proof.Machine

/-- Settles O30: the columns of the row one by one, and the bytes that padding writes. -/
theorem paddingClearsTheRestOfTheRow : Obligations.PaddingClearsTheRestOfTheRow := by
  rintro S V m y Xe row hV hm rfl hbacked
  have hbytes : m.backs (padBytes V y Xe) := by
    intro a ha
    obtain ⟨k, hk, rfl⟩ := mem_padBytes ha
    exact hbacked k hk
  constructor
  · intro k hk j hj
    exact read_padRow_column (stride_lt_of_view hV) hm hbytes hk hj (hbacked k hk)
  · intro a ha hrow
    refine (padRow_writesOnly V m y Xe).2 hbytes a ha fun hmem => ?_
    obtain ⟨k, hk, h⟩ := mem_padBytes hmem
    exact hrow k hk h

end Sys2Proof.Claims
end

section
/-! PROOFS. The command word: the fields that a word places and reads, what each opcode's table row gives, and decoding
as the inverse of encoding (30_encoding R91 to R113). -/

namespace Sys2Proof

open Sys2Proof.Claims (maskTable reservedBits reservedField)

/-! ### Fields of a word -/

theorem getLsbD_placed {n : Nat} (v : BitVec n) (lo k : Nat) :
    (placed v lo).getLsbD k = (decide (lo ≤ k) && decide (k < 32) && v.getLsbD (k - lo)) := by
  by_cases hlo : lo ≤ k <;> by_cases hk : k < 32 <;> simp [placed, hlo, hk]

theorem getLsbD_placed_apart {m : Nat} (v : BitVec m) (pos k : Nat) (h : k < pos ∨ pos + m ≤ k) :
    (placed v pos).getLsbD k = false := by
  rw [getLsbD_placed]
  rcases h with h | h
  · simp [Nat.not_le.2 h]
  · simp [BitVec.getLsbD_of_ge v (k - pos) (by omega)]

theorem getLsbD_placedBit (b : Bool) (k : Nat) (h : k < 32) : (placedBit b k).getLsbD k = b := by
  rw [placedBit, getLsbD_placed]
  simp [h]

theorem getLsbD_placedBit_apart (b : Bool) (pos k : Nat) (h : k < pos ∨ pos + 1 ≤ k) :
    (placedBit b pos).getLsbD k = false :=
  getLsbD_placed_apart _ pos k h

theorem extractLsb'_placed {n : Nat} (v : BitVec n) (lo : Nat) (h : lo + n ≤ 32) :
    (placed v lo).extractLsb' lo n = v := by
  refine BitVec.eq_of_getLsbD_eq fun k hk => ?_
  rw [BitVec.getLsbD_extractLsb', getLsbD_placed]
  simp [hk, show lo + k < 32 by omega]

theorem extractLsb'_placed_apart {m : Nat} (v : BitVec m) (pos lo n : Nat) (h : lo + n ≤ pos ∨ pos + m ≤ lo) :
    (placed v pos).extractLsb' lo n = 0#n := by
  refine BitVec.eq_of_getLsbD_eq fun k hk => ?_
  rw [BitVec.getLsbD_extractLsb', getLsbD_placed_apart v pos (lo + k) (by omega), BitVec.getLsbD_zero,
    Bool.and_false]

theorem extractLsb'_placedBit_apart (b : Bool) (pos lo n : Nat) (h : lo + n ≤ pos ∨ pos + 1 ≤ lo) :
    (placedBit b pos).extractLsb' lo n = 0#n :=
  extractLsb'_placed_apart _ pos lo n h

/-- Reading a field and placing it back keeps the field's bits and drops the others. -/
theorem placed_extractLsb' (w : Word) (lo n : Nat) :
    placed (w.extractLsb' lo n) lo = w &&& placed (BitVec.allOnes n) lo := by
  refine BitVec.eq_of_getLsbD_eq fun k hk => ?_
  rw [BitVec.getLsbD_and, getLsbD_placed, getLsbD_placed, BitVec.getLsbD_extractLsb', BitVec.getLsbD_allOnes]
  by_cases hlo : lo ≤ k
  · simp [hlo, hk, Nat.add_sub_cancel' hlo, Bool.and_comm]
  · simp [hlo]

theorem placedBit_getLsbD_self (w : Word) (k : Nat) :
    placedBit (w.getLsbD k) k = w &&& placed (BitVec.allOnes 1) k := by
  rw [← placed_extractLsb' w k 1, placedBit]
  congr 1
  refine BitVec.eq_of_getLsbD_eq fun j hj => ?_
  obtain rfl : j = 0 := by omega
  simp

/-! ### Fields with codes -/

theorem surfField_bit (w : Word) : (surfField w).bit = w.getLsbD 16 := by
  unfold surfField
  cases w.getLsbD 16 <;> rfl

theorem depthField_eq_some_iff (w : Word) (d : SubDepth) : depthField w = some d ↔ w.extractLsb' 17 3 = d.bits := by
  unfold depthField
  generalize w.extractLsb' 17 3 = v
  cases d <;> revert v <;> decide

theorem mszField_eq_some_iff (w : Word) (m : MatrixSize) : mszField w = some m ↔ w.extractLsb' 20 2 = m.bits := by
  unfold mszField
  generalize w.extractLsb' 20 2 = v
  cases m <;> revert v <;> decide

theorem smodeField_eq_some_iff (w : Word) (m : ScanMode) : smodeField w = some m ↔ w.extractLsb' 22 2 = m.bits := by
  unfold smodeField
  generalize w.extractLsb' 22 2 = v
  cases m <;> revert v <;> decide

theorem depthField_eq_none_iff (w : Word) :
    depthField w = none ↔ w.extractLsb' 17 3 ≠ 1 ∧ w.extractLsb' 17 3 ≠ 2 := by
  unfold depthField
  generalize w.extractLsb' 17 3 = v
  revert v
  decide

theorem mszField_eq_none_iff (w : Word) : mszField w = none ↔ w.extractLsb' 20 2 = 3 := by
  unfold mszField
  generalize w.extractLsb' 20 2 = v
  revert v
  decide

theorem smodeField_eq_none_iff (w : Word) : smodeField w = none ↔ w.extractLsb' 22 2 = 3 := by
  unfold smodeField
  generalize w.extractLsb' 22 2 = v
  revert v
  decide

section
variable {α : Type} {field : Option α} {build : α → Instr}

theorem orParam_eq_ok_iff (i : Instr) : orParam field build = .ok i ↔ ∃ a, field = some a ∧ build a = i := by
  cases field <;> simp [orParam]

theorem orParam_eq_param_iff : orParam field build = .error .param ↔ field = none := by
  cases field <;> simp [orParam]

theorem orParam_ok_or_param : (∃ i, orParam field build = .ok i) ∨ orParam field build = .error .param := by
  cases field <;> simp [orParam]

end

/-! ### The opcode table -/

theorem Opcode.mem_all (op : Opcode) : op ∈ Opcode.all := by cases op <;> decide

/-- The printed table (30_encoding R113) is the model's opcodes with their codes and masks. -/
theorem maskTable_eq : maskTable = Opcode.all.map fun op => (op.code, op.usedMask) := rfl

theorem mem_maskTable_iff (b : BitVec 8) (m : Word) :
    (b, m) ∈ maskTable ↔ ∃ op : Opcode, op.code = b ∧ op.usedMask = m := by
  simp [maskTable_eq, Opcode.mem_all]

theorem Opcode.ofCode_code (op : Opcode) : Opcode.ofCode op.code = some op := by cases op <;> rfl

theorem Opcode.ofCode_eq_some_iff (b : BitVec 8) (op : Opcode) : Opcode.ofCode b = some op ↔ op.code = b := by
  constructor
  · intro h
    exact eq_of_beq (List.find?_some (p := fun op : Opcode => op.code == b) h)
  · rintro rfl
    exact op.ofCode_code

theorem Opcode.hasMsrc_iff (op : Opcode) : op.hasMsrc = true ↔ op.code ∈ [0x34, 0x50, 0x51] := by
  cases op <;> decide

/-! ### The decoder -/

theorem decode_of_unassigned {w : Word} (h : ∀ op : Opcode, op.code ≠ w.extractLsb' 0 8) :
    decode w = .error .badop := by
  have hnone : Opcode.ofCode (w.extractLsb' 0 8) = none :=
    Option.eq_none_iff_forall_ne_some.2 fun op hop => h op ((Opcode.ofCode_eq_some_iff _ op).1 hop)
  rw [decode, hnone]

section
variable {op : Opcode} {w : Word} (hop : op.code = w.extractLsb' 0 8)
include hop

/-- The reserved bits of a row of the printed table are what the decoder checks before it builds a command. -/
theorem reservedBits_iff : reservedBits w op.usedMask ↔
    w &&& ~~~op.usedMask ≠ 0 ∨ (op.hasMsrc && w.getLsbD 12 && ropField w != 0) = true := by
  rw [reservedBits, ← hop, ← op.hasMsrc_iff, Bool.and_eq_true, Bool.and_eq_true, bne_iff_ne, and_assoc, ropField]

theorem decode_of_reservedBits (h : reservedBits w op.usedMask) : decode w = .error .rsvd := by
  rw [decode, (Opcode.ofCode_eq_some_iff _ op).2 hop]
  rcases (reservedBits_iff hop).1 h with hmask | hfill
  · exact if_pos hmask
  · simp only [hfill, if_true, ite_self]

theorem decode_of_not_reservedBits (h : ¬reservedBits w op.usedMask) : decode w = op.build w := by
  rw [decode, (Opcode.ofCode_eq_some_iff _ op).2 hop]
  obtain ⟨hmask, hfill⟩ := not_or.1 (mt (reservedBits_iff hop).2 h)
  exact (if_neg hmask).trans (if_neg hfill)

end

theorem decode_eq_ok_iff (w : Word) (i : Instr) : decode w = .ok i ↔
    ∃ op : Opcode, op.code = w.extractLsb' 0 8 ∧ ¬reservedBits w op.usedMask ∧ op.build w = .ok i := by
  constructor
  · intro h
    by_cases hex : ∃ op : Opcode, op.code = w.extractLsb' 0 8
    · obtain ⟨op, hop⟩ := hex
      by_cases hr : reservedBits w op.usedMask
      · simp [decode_of_reservedBits hop hr] at h
      · exact ⟨op, hop, hr, decode_of_not_reservedBits hop hr ▸ h⟩
    · simp [decode_of_unassigned (not_exists.1 hex)] at h
  · rintro ⟨op, hop, hr, hb⟩
    rw [decode_of_not_reservedBits hop hr, hb]

/-! ### What an opcode builds -/

section
variable {op : Opcode} {w : Word} {i : Instr} (h : op.build w = .ok i)
include h

theorem opcode_of_build : i.opcode = op := by
  cases op with
  | unpack | pack | dthresh | dcmp | stretchrow | shrinkrow =>
    obtain ⟨_, -, rfl⟩ := (orParam_eq_ok_iff i).1 h
    rfl
  | _ =>
    cases h
    rfl

theorem wellFormed_of_build : i.wellFormed = !(op.hasMsrc && w.getLsbD 12 && ropField w != 0) := by
  cases op with
  | unpack | pack | dthresh | dcmp | stretchrow | shrinkrow =>
    obtain ⟨_, -, rfl⟩ := (orParam_eq_ok_iff i).1 h
    rfl
  | putpixel | solidfill | solidline =>
    cases h
    simp [Instr.wellFormed, fillFieldsLegal, Opcode.hasMsrc, bne]
  | _ =>
    cases h
    rfl

/-- The fields of the built command are the bits of the word that the opcode uses above OPC. -/
theorem fieldBits_of_build : i.fieldBits = w &&& (op.usedMask &&& ~~~0xFF) := by
  cases op with
  | nop | extract | insert | ropapply | ropapplym | dmono | quant5 | patfill =>
    cases h
    exact BitVec.and_zero.symm
  | pix2rgb | rgb2pix | pixaddr | getpixel =>
    cases h
    simp only [Instr.fieldBits, surfField_bit, placedBit_getLsbD_self]
    rfl
  | ropcodes | ropmask | ropsrc | brushmask | maskfill =>
    cases h
    exact placed_extractLsb' w 8 4
  | dconv1 =>
    cases h
    exact placedBit_getLsbD_self w 15
  | putpixel | solidfill | solidline | copyrect =>
    cases h
    simp only [Instr.fieldBits, ropField, placed_extractLsb', placedBit_getLsbD_self, ← BitVec.and_or_distrib_left]
    rfl
  | unpack | pack =>
    obtain ⟨d, hd, rfl⟩ := (orParam_eq_ok_iff i).1 h
    rw [depthField_eq_some_iff] at hd
    simp only [Instr.fieldBits, ← hd, placed_extractLsb']
    rfl
  | dthresh | dcmp =>
    obtain ⟨m, hm, rfl⟩ := (orParam_eq_ok_iff i).1 h
    rw [mszField_eq_some_iff] at hm
    simp only [Instr.fieldBits, ← hm, placed_extractLsb']
    rfl
  | stretchrow | shrinkrow =>
    obtain ⟨m, hm, rfl⟩ := (orParam_eq_ok_iff i).1 h
    rw [smodeField_eq_some_iff] at hm
    simp only [Instr.fieldBits, ← hm, placed_extractLsb', placedBit_getLsbD_self, ← BitVec.and_or_distrib_left]
    rfl

end

/-! ### What the encoder writes -/

/-- The law of the encoder, for every command: OPC in [7:0], and no bit outside `USED_MASK`. -/
theorem encode_opcode (i : Instr) : Laws.EncodeOpcode.Statement i := by
  cases i with
  | nop => exact Laws.EncodeOpcode.nop
  | extract => exact Laws.EncodeOpcode.extract
  | insert => exact Laws.EncodeOpcode.insert
  | pix2rgb surf => exact Laws.EncodeOpcode.pix2rgb surf
  | rgb2pix surf => exact Laws.EncodeOpcode.rgb2pix surf
  | ropcodes rop => exact Laws.EncodeOpcode.ropcodes rop
  | ropmask rop => exact Laws.EncodeOpcode.ropmask rop
  | ropapply => exact Laws.EncodeOpcode.ropapply
  | ropapplym => exact Laws.EncodeOpcode.ropapplym
  | ropsrc rop => exact Laws.EncodeOpcode.ropsrc rop
  | pixaddr surf => exact Laws.EncodeOpcode.pixaddr surf
  | unpack depth => exact Laws.EncodeOpcode.unpack depth
  | pack depth => exact Laws.EncodeOpcode.pack depth
  | getpixel surf => exact Laws.EncodeOpcode.getpixel surf
  | putpixel rop msrc => exact Laws.EncodeOpcode.putpixel rop msrc
  | dthresh msz => exact Laws.EncodeOpcode.dthresh msz
  | dcmp msz => exact Laws.EncodeOpcode.dcmp msz
  | dmono => exact Laws.EncodeOpcode.dmono
  | quant5 => exact Laws.EncodeOpcode.quant5
  | dconv1 pad => exact Laws.EncodeOpcode.dconv1 pad
  | solidfill rop msrc => exact Laws.EncodeOpcode.solidfill rop msrc
  | solidline rop msrc xmajor xneg yneg => exact Laws.EncodeOpcode.solidline rop msrc xmajor xneg yneg
  | copyrect rop revx revy => exact Laws.EncodeOpcode.copyrect rop revx revy
  | brushmask rop => exact Laws.EncodeOpcode.brushmask rop
  | patfill => exact Laws.EncodeOpcode.patfill
  | maskfill rop => exact Laws.EncodeOpcode.maskfill rop
  | stretchrow smode keep sneg dneg => exact Laws.EncodeOpcode.stretchrow smode keep sneg dneg
  | shrinkrow smode keep sneg dneg => exact Laws.EncodeOpcode.shrinkrow smode keep sneg dneg

theorem encode_getLsbD (i : Instr) (k : Nat) (h : 8 ≤ k) : (encode i).getLsbD k = i.fieldBits.getLsbD k := by
  rw [encode, BitVec.getLsbD_or, getLsbD_placed_apart _ 0 k (.inr h), Bool.false_or]

theorem encode_extractLsb' (i : Instr) (lo n : Nat) (h : 8 ≤ lo) :
    (encode i).extractLsb' lo n = i.fieldBits.extractLsb' lo n := by
  rw [encode, BitVec.extractLsb'_or, extractLsb'_placed_apart _ 0 lo n (.inr h)]
  exact BitVec.zero_or

theorem build_encode (i : Instr) : i.opcode.build (encode i) = .ok i := by
  cases i with
  | nop | extract | insert | ropapply | ropapplym | dmono | quant5 | patfill => rfl
  | pix2rgb s | rgb2pix s | pixaddr s | getpixel s => cases s <;> rfl
  | ropcodes c | ropmask c | ropsrc c | brushmask c | maskfill c =>
    simp (disch := decide) only [Instr.opcode, Opcode.build, ropField, encode_extractLsb', Instr.fieldBits,
      extractLsb'_placed]
  | unpack d | pack d =>
    refine (orParam_eq_ok_iff _).2 ⟨d, (depthField_eq_some_iff _ d).2 ?_, rfl⟩
    simp (disch := decide) only [encode_extractLsb', Instr.fieldBits, extractLsb'_placed]
  | dthresh m | dcmp m =>
    refine (orParam_eq_ok_iff _).2 ⟨m, (mszField_eq_some_iff _ m).2 ?_, rfl⟩
    simp (disch := decide) only [encode_extractLsb', Instr.fieldBits, extractLsb'_placed]
  | dconv1 p =>
    simp (disch := decide) only [Instr.opcode, Opcode.build, encode_getLsbD, Instr.fieldBits, getLsbD_placedBit]
  | putpixel c m | solidfill c m | solidline c m x xn yn | copyrect c rx ry =>
    simp (disch := decide) only [Instr.opcode, Opcode.build, ropField, encode_getLsbD, encode_extractLsb',
      Instr.fieldBits, BitVec.getLsbD_or, getLsbD_placedBit, getLsbD_placedBit_apart, getLsbD_placed_apart,
      BitVec.extractLsb'_or, extractLsb'_placed, extractLsb'_placedBit_apart, Bool.or_false, Bool.false_or,
      BitVec.or_zero]
  | stretchrow m k sn dn | shrinkrow m k sn dn =>
    refine (orParam_eq_ok_iff _).2 ⟨m, (smodeField_eq_some_iff _ m).2 ?_, ?_⟩
    · simp (disch := decide) only [encode_extractLsb', Instr.fieldBits, BitVec.extractLsb'_or, extractLsb'_placed,
        extractLsb'_placedBit_apart, BitVec.or_zero]
    · simp (disch := decide) only [encode_getLsbD, Instr.fieldBits, BitVec.getLsbD_or, getLsbD_placedBit,
        getLsbD_placedBit_apart, getLsbD_placed_apart, Bool.or_false, Bool.false_or]

/-! ### Decoding and encoding are inverse -/

theorem encode_of_build {op : Opcode} {w : Word} {i : Instr} (hop : op.code = w.extractLsb' 0 8)
    (h : op.build w = .ok i) : encode i = w &&& op.usedMask := by
  have hmask : placed (BitVec.allOnes 8) 0 ||| op.usedMask &&& ~~~0xFF = op.usedMask := by cases op <;> decide
  rw [encode, opcode_of_build h, fieldBits_of_build h, hop, placed_extractLsb', ← BitVec.and_or_distrib_left, hmask]

theorem and_eq_self_of_and_not_eq_zero {w m : Word} (h : w &&& ~~~m = 0#32) : w &&& m = w := by
  calc w &&& m = w &&& m ||| w &&& ~~~m := by rw [h, BitVec.or_zero]
    _ = w := by rw [← BitVec.and_or_distrib_left, BitVec.or_not_self, BitVec.and_allOnes]

theorem encode_of_decode {w : Word} {i : Instr} (h : decode w = .ok i) : encode i = w := by
  obtain ⟨op, hop, hr, hb⟩ := (decode_eq_ok_iff w i).1 h
  have hmask : w &&& ~~~op.usedMask = 0 := not_not.1 fun hne => hr (.inl hne)
  rw [encode_of_build hop hb, and_eq_self_of_and_not_eq_zero hmask]

theorem not_reservedBits_iff {op : Opcode} {w : Word} {i : Instr} (hop : op.code = w.extractLsb' 0 8)
    (h : op.build w = .ok i) : ¬reservedBits w op.usedMask ↔ w &&& ~~~op.usedMask = 0 ∧ WellFormed i := by
  rw [reservedBits_iff hop, not_or, not_not, WellFormed, wellFormed_of_build h, Bool.not_eq_true']
  simp

theorem decode_encode {i : Instr} (h : WellFormed i) : decode (encode i) = .ok i := by
  obtain ⟨hcode, hmask⟩ := encode_opcode i
  have hb := build_encode i
  exact (decode_eq_ok_iff _ i).2 ⟨i.opcode, hcode.symm, (not_reservedBits_iff hcode.symm hb).2 ⟨hmask, h⟩, hb⟩

theorem wellFormed_of_decode {w : Word} {i : Instr} (h : decode w = .ok i) : WellFormed i := by
  obtain ⟨op, hop, hr, hb⟩ := (decode_eq_ok_iff w i).1 h
  exact ((not_reservedBits_iff hop hb).1 hr).2

/-! ### Reserved field values -/

theorem build_ok_or_param (op : Opcode) (w : Word) : (∃ i, op.build w = .ok i) ∨ op.build w = .error .param := by
  cases op with
  | unpack | pack | dthresh | dcmp | stretchrow | shrinkrow => exact orParam_ok_or_param
  | _ => exact .inl ⟨_, rfl⟩

/-- Only the commands with a checked field can fail to be built, by the field's reserved values (30_encoding R106). -/
theorem build_eq_param_iff {op : Opcode} {w : Word} (hop : op.code = w.extractLsb' 0 8) :
    op.build w = .error .param ↔ reservedField w := by
  rw [reservedField, ← hop]
  cases op with
  | unpack | pack => simp [Opcode.build, orParam_eq_param_iff, depthField_eq_none_iff, Opcode.code]
  | dthresh | dcmp => simp [Opcode.build, orParam_eq_param_iff, mszField_eq_none_iff, Opcode.code]
  | stretchrow | shrinkrow => simp [Opcode.build, orParam_eq_param_iff, smodeField_eq_none_iff, Opcode.code]
  | _ => simp [Opcode.build, Opcode.code]

end Sys2Proof

namespace Sys2Proof.Claims

open Sys2Proof.Machine

/-- Settles O1: a decoded word is its command's encoding, and a well-formed command's encoding decodes to it. -/
theorem decodeAndEncodeAgree : Obligations.DecodeAndEncodeAgree := by
  intro w i
  constructor
  · exact fun h => ⟨wellFormed_of_decode h, encode_of_decode h⟩
  · rintro ⟨hwf, rfl⟩
    exact decode_encode hwf

/-- Settles O2: the decoder's checks in turn, for the opcode whose row of the printed table the word names. -/
theorem decodeChecksInOrder : Obligations.DecodeChecksInOrder := by
  intro w
  constructor
  · intro h
    exact decode_of_unassigned fun op hop => h op.usedMask ((mem_maskTable_iff _ _).2 ⟨op, hop, rfl⟩)
  · intro m hm
    obtain ⟨op, hop, rfl⟩ := (mem_maskTable_iff _ _).1 hm
    refine ⟨decode_of_reservedBits hop, fun hbits hfield => ?_, fun hbits hfield => ?_⟩
    · rw [decode_of_not_reservedBits hop hbits, build_eq_param_iff hop]
      exact hfield
    · obtain ⟨i, hi⟩ := (build_ok_or_param op w).resolve_right (mt (build_eq_param_iff hop).1 hfield)
      have hdecode : decode w = .ok i := decode_of_not_reservedBits hop hbits ▸ hi
      exact ⟨i, hdecode, encode_of_decode hdecode⟩

/-- Settles O3: each command is well formed and each word is its encoding. -/
theorem sampleWordsDecode : Obligations.SampleWordsDecode := by
  have spelled {w : Word} {i : Instr} (hwf : WellFormed i) (hw : encode i = w) : decode w = .ok i :=
    (decodeAndEncodeAgree w i).2 ⟨hwf, hw⟩
  exact ⟨spelled rfl rfl, spelled rfl rfl, spelled rfl rfl, spelled rfl rfl, spelled rfl rfl, spelled rfl rfl,
    spelled rfl rfl, spelled rfl rfl, spelled rfl rfl, spelled rfl rfl⟩

/-- Settles O5, ending by ending; the error codes are the printed ones. -/
theorem endingsWriteTheirFields : Obligations.EndingsWriteTheirFields := by
  intro s
  refine ⟨fun e => ?_, fun res mem => rfl, fun res => rfl, rfl⟩
  cases e <;> rfl

end Sys2Proof.Claims
end

section
/-! PROOFS. The codec: `Extract` and `Insert` bit by bit, as inverses on a channel's field, and the four commands that
convert between pixels and RGB24 words (41_codec R121 to R129). -/

namespace Sys2Proof.Machine

open Sys2Proof.Claims

/-! ### Bits of `Extract` and `Insert` -/

theorem getLsbD_foldl_or {ι : Type} {n : Nat} (l : List ι) (g : ι → BitVec n) (a : BitVec n) (j : Nat) :
    (l.foldl (fun out k => out ||| g k) a).getLsbD j = (a.getLsbD j || l.any fun k => (g k).getLsbD j) := by
  induction l generalizing a with
  | nil => simp
  | cons k l ih => rw [List.foldl_cons, ih, BitVec.getLsbD_or, List.any_cons, Bool.or_assoc]

/-- The term of `Rep` for bit `7 - i` sets no other bit. -/
theorem ofBool_placed_getLsbD (b : Bool) {i k : Nat} (hi : i < 8) (hk : k < 8) :
    ((BitVec.ofBool b).setWidth 8 <<< (7 - i)).getLsbD (7 - k) = (decide (i = k) && b) := by
  rw [BitVec.getLsbD_shiftLeft, BitVec.getLsbD_setWidth, BitVec.getLsbD_ofBool]
  by_cases h : i = k
  · simp [h, show 7 - k < 8 by omega]
  · by_cases hlt : 7 - k < 7 - i
    · simp [h, hlt]
    · simp [h, show 7 - k - (7 - i) ≠ 0 by omega]

theorem replicate_getLsbD (f : Word) (w : Nat) {k : Nat} (hk : k < 8) :
    (replicate f w).getLsbD (7 - k) = f.getLsbD (w - 1 - k % w) := by
  have hzero : (0 : Byte).getLsbD (7 - k) = false := BitVec.getLsbD_zero
  rw [replicate, getLsbD_foldl_or, hzero, Bool.false_or, Bool.eq_iff_iff, List.any_eq_true]
  constructor
  · rintro ⟨i, hi, hbit⟩
    rw [ofBool_placed_getLsbD _ (List.mem_range.1 hi) hk, Bool.and_eq_true, decide_eq_true_eq] at hbit
    obtain ⟨rfl, hbit⟩ := hbit
    exact hbit
  · intro hbit
    refine ⟨k, List.mem_range.2 hk, ?_⟩
    rw [ofBool_placed_getLsbD _ hk hk, hbit, decide_eq_true rfl, Bool.and_true]

theorem field_getLsbD (p : Word) (s w j : Nat) :
    ((p >>> s) &&& ones w).getLsbD j = (decide (j < w) && p.getLsbD (s + j)) := by
  rw [BitVec.getLsbD_and, BitVec.getLsbD_ushiftRight]
  by_cases hj : j < 32
  · rw [ones_getLsbD _ _ hj, Bool.and_comm]
  · simp [BitVec.getLsbD_of_ge _ _ (Nat.not_lt.1 hj), BitVec.getLsbD_of_ge p (s + j) (by omega)]

theorem extractChan_eq_zero (p : Word) (s : Nat) {w : Nat} (hw : w = 0) : extractChan p s w = 0 := if_pos hw

theorem extractChan_getLsbD (p : Word) (s : Nat) {w k : Nat} (hw : 0 < w) (hk : k < 8) :
    (extractChan p s w).getLsbD (7 - k) = p.getLsbD (s + (w - 1 - k % w)) := by
  rw [extractChan, if_neg (by omega), replicate_getLsbD _ _ hk, field_getLsbD, decide_eq_true (by omega),
    Bool.true_and]

/-- The top `w` bits of `Extract` are the field (41_codec R122). -/
theorem extractChan_getLsbD_top (p : Word) (s : Nat) {w j : Nat} (hw : w ≤ 8) (hj : j < w) :
    (extractChan p s w).getLsbD (8 - w + j) = p.getLsbD (s + j) := by
  have hk : w - 1 - j < 8 := by omega
  have hbit := extractChan_getLsbD p s (Nat.zero_lt_of_lt hj) hk
  rw [Nat.mod_eq_of_lt (by omega)] at hbit
  rwa [show 7 - (w - 1 - j) = 8 - w + j by omega, show w - 1 - (w - 1 - j) = j by omega] at hbit

/-- `Extract` depends on nothing but the field. -/
theorem extractChan_congr {p q : Word} {s w : Nat} (h : ∀ j < w, p.getLsbD (s + j) = q.getLsbD (s + j)) :
    extractChan p s w = extractChan q s w := by
  have hfield : (p >>> s) &&& ones w = (q >>> s) &&& ones w := by
    refine BitVec.eq_of_getLsbD_eq fun j _ => ?_
    rw [field_getLsbD, field_getLsbD]
    by_cases hj : j < w
    · rw [h j hj]
    · rw [decide_eq_false hj, Bool.false_and, Bool.false_and]
  rw [extractChan, extractChan, hfield]

theorem insertChan_getLsbD (v : Byte) (s : Nat) {w k : Nat} (hw : w ≤ 8) (hk : k < 32) :
    (insertChan v s w).getLsbD k = (decide (s ≤ k) && decide (k < s + w) && v.getLsbD (8 - w + (k - s))) := by
  unfold insertChan
  split
  · by_cases hs : s ≤ k
    · simp [show ¬k < s + w by omega]
    · simp [hs]
  · rw [BitVec.getLsbD_shiftLeft, BitVec.getLsbD_setWidth, BitVec.getLsbD_ushiftRight]
    by_cases hs : s ≤ k
    · by_cases hsw : k < s + w
      · simp [hk, hs, hsw, show k - s < 32 by omega]
      · simp [hsw, BitVec.getLsbD_of_ge v (8 - w + (k - s)) (by omega)]
    · simp [hs, Nat.lt_of_not_le hs]

/-- `Insert` of a word's low byte reads no bit above the byte. -/
theorem insertChan_lowByte_getLsbD (p : Word) (s : Nat) {w k : Nat} (hw : w ≤ 8) (hk : k < 32) :
    (insertChan (p.extractLsb' 0 8) s w).getLsbD k =
      (decide (s ≤ k) && decide (k < s + w) && p.getLsbD (8 - w + (k - s))) := by
  rw [insertChan_getLsbD _ _ hw hk, BitVec.getLsbD_extractLsb', Nat.zero_add]
  by_cases hin : s ≤ k ∧ k < s + w
  · rw [decide_eq_true (show 8 - w + (k - s) < 8 by omega), Bool.true_and]
  · rw [← Bool.decide_and, decide_eq_false hin, Bool.false_and, Bool.false_and]

/-- `Insert` depends on nothing but the top `w` bits. -/
theorem insertChan_congr {u v : Byte} {s w : Nat} (hw : w ≤ 8)
    (h : ∀ j < w, u.getLsbD (8 - w + j) = v.getLsbD (8 - w + j)) : insertChan u s w = insertChan v s w := by
  refine BitVec.eq_of_getLsbD_eq fun k hk => ?_
  rw [insertChan_getLsbD _ _ hw hk, insertChan_getLsbD _ _ hw hk]
  by_cases hin : s ≤ k ∧ k < s + w
  · rw [h (k - s) (by omega)]
  · rw [← Bool.decide_and, decide_eq_false hin, Bool.false_and, Bool.false_and]

theorem ones_shiftLeft_getLsbD (w s : Nat) {k : Nat} (hk : k < 32) :
    (ones w <<< s).getLsbD k = (decide (s ≤ k) && decide (k < s + w)) := by
  rw [BitVec.getLsbD_shiftLeft]
  by_cases hs : s ≤ k
  · simp [hs, hk, ones_getLsbD w (k - s) (by omega), Nat.sub_lt_iff_lt_add' hs]
  · simp [hs, Nat.lt_of_not_le hs]

/-- Inserting what was extracted gives the field in place (41_codec R124). -/
theorem insertChan_extractChan (p : Word) (s : Nat) {w : Nat} (hw : w ≤ 8) :
    insertChan (extractChan p s w) s w = p &&& (ones w <<< s) := by
  refine BitVec.eq_of_getLsbD_eq fun k hk => ?_
  rw [insertChan_getLsbD _ _ hw hk, BitVec.getLsbD_and, ones_shiftLeft_getLsbD _ _ hk]
  by_cases hin : s ≤ k ∧ k < s + w
  · rw [extractChan_getLsbD_top p s hw (by omega), Nat.add_sub_cancel' hin.1, Bool.and_comm]
  · rw [← Bool.decide_and, decide_eq_false hin, Bool.false_and, Bool.and_false]

theorem extractChan_width_eight (p : Word) (s : Nat) : extractChan p s 8 = p.extractLsb' s 8 := by
  refine BitVec.eq_of_getLsbD_eq fun j hj => ?_
  have htop := extractChan_getLsbD_top p s (Nat.le_refl 8) hj
  rw [Nat.sub_self, Nat.zero_add] at htop
  rw [htop, BitVec.getLsbD_extractLsb', decide_eq_true hj, Bool.true_and]

theorem extractChan_ushiftRight_toNat (p : Word) (s : Nat) {w : Nat} (hw : w ≤ 8) :
    (extractChan p s w >>> (8 - w)).toNat = p.toNat / 2 ^ s % 2 ^ w := by
  refine Nat.eq_of_testBit_eq fun j => ?_
  rw [BitVec.testBit_toNat, BitVec.getLsbD_ushiftRight, Nat.testBit_mod_two_pow, Nat.testBit_div_two_pow,
    BitVec.testBit_toNat, Nat.add_comm j s]
  by_cases hj : j < w
  · rw [extractChan_getLsbD_top p s hw hj, decide_eq_true hj, Bool.true_and]
  · rw [BitVec.getLsbD_of_ge _ _ (by omega), decide_eq_false hj, Bool.false_and]

/-! ### A channel and its field of a pixel -/

theorem Chan.insert_extract {c : Chan} (hc : c.width.toNat ≤ 8) (p : Word) :
    c.insert (c.extract p) = p &&& chanMask c :=
  insertChan_extractChan p _ hc

theorem Chan.insert_and_mask {c : Chan} (hc : c.width.toNat ≤ 8) (v : Byte) :
    c.insert v &&& chanMask c = c.insert v := by
  refine BitVec.eq_of_getLsbD_eq fun k hk => ?_
  rw [BitVec.getLsbD_and, chanMask, Chan.insert, insertChan_getLsbD _ _ hc hk, ones_shiftLeft_getLsbD _ _ hk]
  cases decide (c.shift.toNat ≤ k) && decide (k < c.shift.toNat + c.width.toNat) <;> simp

/-- A channel's value has no bit in a channel that does not overlap it. -/
theorem Chan.insert_and_mask_apart {c c' : Chan} (hc : c.width.toNat ≤ 8) (h : chanMask c &&& chanMask c' = 0)
    (v : Byte) : c.insert v &&& chanMask c' = 0 := by
  rw [← Chan.insert_and_mask hc, BitVec.and_assoc, h]
  exact BitVec.and_zero

theorem Chan.extract_congr {c : Chan} {p q : Word} (h : p &&& chanMask c = q &&& chanMask c) :
    c.extract p = c.extract q := by
  refine extractChan_congr fun j hj => ?_
  by_cases hk : c.shift.toNat + j < 32
  · have hbit : (chanMask c).getLsbD (c.shift.toNat + j) = true := by
      rw [chanMask, ones_shiftLeft_getLsbD _ _ hk, decide_eq_true (by omega), decide_eq_true (by omega)]
      rfl
    have hand := congrArg (·.getLsbD (c.shift.toNat + j)) h
    simpa only [BitVec.getLsbD_and, hbit, Bool.and_true] using hand
  · rw [BitVec.getLsbD_of_ge p _ (Nat.not_lt.1 hk), BitVec.getLsbD_of_ge q _ (Nat.not_lt.1 hk)]

theorem chanMask_and_ones {c : Chan} {n : Nat} (h : c.shift.toNat + c.width.toNat ≤ n) :
    chanMask c &&& ones n = chanMask c := by
  refine BitVec.eq_of_getLsbD_eq fun k hk => ?_
  rw [BitVec.getLsbD_and, chanMask, ones_shiftLeft_getLsbD _ _ hk, ones_getLsbD _ _ hk]
  by_cases hk' : k < c.shift.toNat + c.width.toNat
  · rw [decide_eq_true (show k < n by omega), Bool.and_true]
  · rw [decide_eq_false hk', Bool.and_false, Bool.false_and]

/-- Cutting a pixel to a depth that holds the channel leaves the channel alone. -/
theorem Chan.extract_and_ones {c : Chan} {n : Nat} (h : c.shift.toNat + c.width.toNat ≤ n) (p : Word) :
    c.extract (p &&& ones n) = c.extract p := by
  refine Chan.extract_congr ?_
  rw [BitVec.and_assoc, BitVec.and_comm (ones n), chanMask_and_ones h]

/-- A field carried through a channel no narrower than its own comes back. -/
theorem Chan.insert_through {c c' : Chan} (hle : c.width.toNat ≤ c'.width.toNat) (hc' : c'.width.toNat ≤ 8)
    (hfit : c'.shift.toNat + c'.width.toNat ≤ 32) (v : Byte) :
    c.insert (c'.extract (c'.insert v)) = c.insert v := by
  refine insertChan_congr (by omega) fun j hj => ?_
  have hpos : 8 - c.width.toNat + j = 8 - c'.width.toNat + (c'.width.toNat - c.width.toNat + j) := by omega
  rw [hpos, Chan.extract, extractChan_getLsbD_top _ _ hc' (by omega), Chan.insert,
    insertChan_getLsbD _ _ hc' (by omega), decide_eq_true (by omega), decide_eq_true (by omega), Bool.true_and,
    Bool.true_and, Nat.add_sub_cancel_left]

/-! ### RGB24 words -/

@[simp] theorem rgbR_rgb24 (r g b : Byte) : rgbR (rgb24 r g b) = r := by
  refine BitVec.eq_of_getLsbD_eq fun k hk => ?_
  simp [rgbR, rgb24, hk, show 16 + k < 32 by omega, show ¬16 + k < 8 by omega,
    BitVec.getLsbD_of_ge g (16 + k - 8) (by omega), BitVec.getLsbD_of_ge b (16 + k) (by omega)]

@[simp] theorem rgbG_rgb24 (r g b : Byte) : rgbG (rgb24 r g b) = g := by
  refine BitVec.eq_of_getLsbD_eq fun k hk => ?_
  simp [rgbG, rgb24, hk, show 8 + k < 32 by omega, show 8 + k < 16 by omega]

@[simp] theorem rgbB_rgb24 (r g b : Byte) : rgbB (rgb24 r g b) = b := by
  refine BitVec.eq_of_getLsbD_eq fun k hk => ?_
  simp [rgbB, rgb24, hk, show k < 32 by omega, show k < 16 by omega]

theorem rgb24_top (r g b : Byte) : (rgb24 r g b).extractLsb' 24 8 = 0 := by
  refine BitVec.eq_of_getLsbD_eq fun k hk => ?_
  simp [rgb24, BitVec.getLsbD_of_ge r (24 + k - 16) (by omega), BitVec.getLsbD_of_ge g (24 + k - 8) (by omega),
    BitVec.getLsbD_of_ge b (24 + k) (by omega)]

/-! ### Pixels whose channels fit the depth -/

theorem Depth.bits_le (d : Depth) : d.bits ≤ 32 := by cases d <;> decide

theorem channelBits_and_ones {S : Surface} {d : Depth} (h : ChannelsFit S d) :
    channelBits S &&& ones d.bits = channelBits S := by
  obtain ⟨-, hR, hG, hB, -, -, -⟩ := h
  rw [channelBits, BitVec.and_or_distrib_right, BitVec.and_or_distrib_right, chanMask_and_ones hR,
    chanMask_and_ones hG, chanMask_and_ones hB]

theorem Surface.pixToRgb_and_ones {S : Surface} {d : Depth} (h : ChannelsFit S d) (p : Word) :
    S.pixToRgb (p &&& ones d.bits) = S.pixToRgb p := by
  obtain ⟨-, hR, hG, hB, -, -, -⟩ := h
  rw [Surface.pixToRgb, Surface.pixToRgb, Chan.extract_and_ones hR, Chan.extract_and_ones hG,
    Chan.extract_and_ones hB]

/-- In a pixel built from channels that do not overlap, each channel holds its own value. -/
theorem Surface.pixToRgb_rgbToPix {S : Surface} {d : Depth} (h : ChannelsFit S d) (rgb : Word) :
    S.pixToRgb (S.rgbToPix rgb) = rgb24 (S.chanR.extract (S.chanR.insert (rgbR rgb)))
      (S.chanG.extract (S.chanG.insert (rgbG rgb))) (S.chanB.extract (S.chanB.insert (rgbB rgb))) := by
  obtain ⟨hwide, -, -, -, hRG, hRB, hGB⟩ := h
  simp only [wideChannel, not_or, Nat.not_lt] at hwide
  obtain ⟨hR, hG, hB⟩ := hwide
  have hGR := BitVec.and_comm .. ▸ hRG
  have hBR := BitVec.and_comm .. ▸ hRB
  have hBG := BitVec.and_comm .. ▸ hGB
  rw [Surface.pixToRgb, Surface.rgbToPix]
  congr 1
  all_goals
    refine Chan.extract_congr ?_
    simp [BitVec.and_or_distrib_right, Chan.insert_and_mask_apart, hR, hG, hB, hRG, hRB, hGB, hGR, hBR, hBG]

/-- A surface's pixel rebuilt from its channels is its channel bits. -/
theorem Surface.rgbToPix_pixToRgb {S : Surface} (h : ¬wideChannel S) (p : Word) :
    S.rgbToPix (S.pixToRgb p) = p &&& channelBits S := by
  simp only [wideChannel, not_or, Nat.not_lt] at h
  obtain ⟨hR, hG, hB⟩ := h
  rw [Surface.rgbToPix, Surface.pixToRgb, rgbR_rgb24, rgbG_rgb24, rgbB_rgb24, Chan.insert_extract hR,
    Chan.insert_extract hG, Chan.insert_extract hB, ← BitVec.and_or_distrib_left, ← BitVec.and_or_distrib_left,
    channelBits]

/-- An RGB24 word carried through a pixel with channels no narrower than those of `X` gives the same pixel of `X`
(41_codec R129). -/
theorem Surface.rgbToPix_through {X Y : Surface} {d : Depth} (hY : ChannelsFit Y d)
    (hR : X.chanR.width ≤ Y.chanR.width) (hG : X.chanG.width ≤ Y.chanG.width)
    (hB : X.chanB.width ≤ Y.chanB.width) (rgb : Word) :
    X.rgbToPix (Y.pixToRgb (Y.rgbToPix rgb)) = X.rgbToPix rgb := by
  have hbits := d.bits_le
  rw [Surface.pixToRgb_rgbToPix hY]
  obtain ⟨hwide, hfitR, hfitG, hfitB, -, -, -⟩ := hY
  simp only [wideChannel, not_or, Nat.not_lt] at hwide
  obtain ⟨hwR, hwG, hwB⟩ := hwide
  rw [Surface.rgbToPix, Surface.rgbToPix, rgbR_rgb24, rgbG_rgb24, rgbB_rgb24,
    Chan.insert_through hR hwR (by omega), Chan.insert_through hG hwG (by omega),
    Chan.insert_through hB hwB (by omega)]

/-! ### The commands -/

theorem decode_of_encode {i : Instr} {w : Word} (hwf : WellFormed i) (hw : encode i = w) : decode w = .ok i :=
  hw ▸ decode_encode hwf

theorem exec_extract_wide {s : State} (h : 8 < (Chan.ofWord s.regs.opb).width.toNat) :
    exec .extract s = .next (s.raise .param) :=
  congrArg (Host.Outcome.next <| s.finish ·) (if_pos (decide_eq_true h))

theorem exec_extract_fits {s : State} (h : (Chan.ofWord s.regs.opb).width.toNat ≤ 8) :
    exec .extract s = .next (s.complete
      (s.res.set0 (((Chan.ofWord s.regs.opb).extract s.regs.opa).setWidth 32)) s.mem) :=
  congrArg (Host.Outcome.next <| s.finish ·) (if_neg (by simpa [Chan.tooWide] using h))

theorem exec_insert_wide {s : State} (h : 8 < (Chan.ofWord s.regs.opb).width.toNat) :
    exec .insert s = .next (s.raise .param) :=
  congrArg (Host.Outcome.next <| s.finish ·) (if_pos (decide_eq_true h))

theorem exec_insert_fits {s : State} (h : (Chan.ofWord s.regs.opb).width.toNat ≤ 8) :
    exec .insert s = .next (s.complete
      (s.res.set0 ((Chan.ofWord s.regs.opb).insert (s.regs.opa.extractLsb' 0 8))) s.mem) :=
  congrArg (Host.Outcome.next <| s.finish ·) (if_neg (by simpa [Chan.tooWide] using h))

/-- How PIX2RGB and RGB2PIX end on surface `S`, for the RES0 that the command gives at a depth. -/
def Surface.conversionEnding (S : Surface) (s : State) (val : Depth → Word) : Ending :=
  match S.bitfieldDepth with
  | none => .nullop (s.res.set0 0)
  | some d => if S.chanTooWide then .raise .param else .complete (s.res.set0 (val d)) s.mem

theorem exec_pix2rgb (surf : Surf) (s : State) :
    exec (.pix2rgb surf) s = .next (s.finish ((s.regs.surface surf).conversionEnding s
      fun d => (s.regs.surface surf).pixToRgb (s.regs.opa &&& ones d.bits))) := rfl

theorem exec_rgb2pix (surf : Surf) (s : State) :
    exec (.rgb2pix surf) s = .next (s.finish ((s.regs.surface surf).conversionEnding s
      fun d => (s.regs.surface surf).rgbToPix s.regs.opa &&& ones d.bits)) := rfl

theorem Surface.conversionEnding_null {S : Surface} (h : S.bitfieldDepth = none) (s : State) (val : Depth → Word) :
    S.conversionEnding s val = .nullop (s.res.set0 0) := by
  rw [conversionEnding, h]

theorem Surface.conversionEnding_wide {S : Surface} {d : Depth} (h : S.bitfieldDepth = some d) (hw : wideChannel S)
    (s : State) (val : Depth → Word) : S.conversionEnding s val = .raise .param := by
  have hwide : S.chanTooWide = true := by
    simpa [Surface.chanTooWide, Chan.tooWide, wideChannel, or_assoc] using hw
  simp only [conversionEnding, h, hwide, if_true]

theorem Surface.conversionEnding_fits {S : Surface} {d : Depth} (h : S.bitfieldDepth = some d)
    (hw : ¬wideChannel S) (s : State) (val : Depth → Word) :
    S.conversionEnding s val = .complete (s.res.set0 (val d)) s.mem := by
  simp [conversionEnding, h, chanTooWide_eq_false hw]

/-! ### Which surfaces are bitfield -/

theorem Surface.bitfieldDepth_eq_none {S : Surface} (h : ¬formatBitfield S.format) : S.bitfieldDepth = none := by
  unfold formatBitfield at h
  unfold Surface.bitfieldDepth
  generalize S.format = f at h ⊢
  revert f
  decide

theorem Surface.bitfieldDepth_of_bits {S : Surface} {bits : Nat}
    (h : S.format = 4 ∧ bits = 16 ∨ S.format = 5 ∧ bits = 24 ∨ S.format = 6 ∧ bits = 32) :
    ∃ d, S.bitfieldDepth = some d ∧ d.bits = bits := by
  rcases h with ⟨hf, rfl⟩ | ⟨hf, rfl⟩ | ⟨hf, rfl⟩
  · exact ⟨.bpp16, by rw [Surface.bitfieldDepth, hf]; rfl, rfl⟩
  · exact ⟨.bpp24, by rw [Surface.bitfieldDepth, hf]; rfl, rfl⟩
  · exact ⟨.bpp32, by rw [Surface.bitfieldDepth, hf]; rfl, rfl⟩

theorem Surface.bitfieldDepth_of_formatBitfield {S : Surface} (h : formatBitfield S.format) :
    ∃ d, S.bitfieldDepth = some d := by
  obtain ⟨bits, hbits⟩ : ∃ bits : Nat,
      S.format = 4 ∧ bits = 16 ∨ S.format = 5 ∧ bits = 24 ∨ S.format = 6 ∧ bits = 32 := by
    rcases h with h | h | h <;> simp [h]
  obtain ⟨d, hd, -⟩ := Surface.bitfieldDepth_of_bits hbits
  exact ⟨d, hd⟩

theorem Surface.bitfieldDepth_of_depthOf {S : Surface} {d : Depth} (h : depthOf S.format = some d)
    (hd : d.bitfield = true) : S.bitfieldDepth = some d := by
  simp only [Surface.bitfieldDepth, h, hd, if_true]

/-- PIX2RGB on a bitfield surface whose channels are not too wide. -/
theorem exec_pix2rgb_fits {surf : Surf} {s : State} {d : Depth} (hd : (s.regs.surface surf).bitfieldDepth = some d)
    (hw : ¬wideChannel (s.regs.surface surf)) :
    exec (.pix2rgb surf) s = .next (s.complete
      (s.res.set0 ((s.regs.surface surf).pixToRgb (s.regs.opa &&& ones d.bits))) s.mem) := by
  rw [exec_pix2rgb, Surface.conversionEnding_fits hd hw, State.finish_complete]

/-- RGB2PIX on a bitfield surface whose channels are not too wide. -/
theorem exec_rgb2pix_fits {surf : Surf} {s : State} {d : Depth} (hd : (s.regs.surface surf).bitfieldDepth = some d)
    (hw : ¬wideChannel (s.regs.surface surf)) :
    exec (.rgb2pix surf) s = .next (s.complete
      (s.res.set0 ((s.regs.surface surf).rgbToPix s.regs.opa &&& ones d.bits)) s.mem) := by
  rw [exec_rgb2pix, Surface.conversionEnding_fits hd hw, State.finish_complete]

/-! ### A result fed back as the next operand -/

@[simp] theorem feed_opa (t : State) : (feed t).regs.opa = t.res.res0 := rfl

@[simp] theorem feed_surface (t : State) (surf : Surf) : (feed t).regs.surface surf = t.regs.surface surf := by
  cases surf <;> rfl

theorem exec_pix2rgb_feed {surf : Surf} {s : State} {S : Surface} {d : Depth} (hS : S = s.regs.surface surf)
    (hd : S.bitfieldDepth = some d) (hw : ¬wideChannel S) :
    ∃ t, exec (.pix2rgb surf) s = .next t ∧ t.res.res0 = S.pixToRgb (s.regs.opa &&& ones d.bits) ∧
      ∀ surf', (feed t).regs.surface surf' = s.regs.surface surf' := by
  subst hS
  exact ⟨_, exec_pix2rgb_fits hd hw, rfl, feed_surface _⟩

theorem exec_rgb2pix_feed {surf : Surf} {s : State} {S : Surface} {d : Depth} (hS : S = s.regs.surface surf)
    (hd : S.bitfieldDepth = some d) (hw : ¬wideChannel S) :
    ∃ t, exec (.rgb2pix surf) s = .next t ∧ t.res.res0 = S.rgbToPix s.regs.opa &&& ones d.bits ∧
      ∀ surf', (feed t).regs.surface surf' = s.regs.surface surf' := by
  subst hS
  exact ⟨_, exec_rgb2pix_fits hd hw, rfl, feed_surface _⟩

end Sys2Proof.Machine

namespace Sys2Proof.Claims

open Sys2Proof.Machine

/-- Settles O9: the bits of RES0 are those of `Extract`. -/
theorem extractReplicatesTheField : Obligations.ExtractReplicatesTheField := by
  refine ⟨decode_of_encode rfl rfl, ?_⟩
  rintro s sh w rfl rfl
  exact ⟨exec_extract_wide, fun hfits =>
    ⟨_, exec_extract_fits hfits, extractChan_eq_zero _ _, fun hpos k hk => extractChan_getLsbD _ _ hpos hk⟩⟩

/-- Settles O10: the bits of RES0 are those of `Insert`, all of them taken from OPA[7:0]. -/
theorem insertPlacesTheTopBits : Obligations.InsertPlacesTheTopBits := by
  refine ⟨decode_of_encode rfl rfl, ?_⟩
  rintro s sh w rfl rfl
  exact ⟨exec_insert_wide, fun hfits =>
    ⟨_, exec_insert_fits hfits, fun k hk => insertChan_lowByte_getLsbD _ _ hfits hk⟩⟩

/-- Settles O11, bit by bit: the top `w` bits of `Extract` are the field. -/
theorem insertOfExtractIsTheField : Obligations.InsertOfExtractIsTheField :=
  fun p s _ _ hw => insertChan_extractChan p s hw

/-- Settles O12: the corner cases all read the field in the top bits. -/
theorem extractCornerCases : Obligations.ExtractCornerCases := by
  intro p s _
  refine ⟨extractChan_eq_zero p s rfl, extractChan_width_eight p s, by decide,
    fun w _ hw => ⟨extractChan_ushiftRight_toNat p s hw, fun k hpast hk => ?_⟩⟩
  rw [extractChan_getLsbD_top p s hw hk, BitVec.getLsbD_of_ge p _ hpast]

/-- Settles O13: each clause is one ending of a conversion. -/
theorem pixelAndRgbConversions : Obligations.PixelAndRgbConversions := by
  refine ⟨decode_of_encode rfl rfl, decode_of_encode rfl rfl, decode_of_encode rfl rfl, decode_of_encode rfl rfl,
    ?_⟩
  rintro surf s S rfl
  refine ⟨fun hformat => ?_, fun hformat hwide => ?_, fun bits hbits hwide => ?_⟩
  · have hnull := Surface.bitfieldDepth_eq_none hformat
    rw [exec_pix2rgb, exec_rgb2pix, Surface.conversionEnding_null hnull, Surface.conversionEnding_null hnull]
    exact ⟨rfl, rfl⟩
  · obtain ⟨d, hd⟩ := Surface.bitfieldDepth_of_formatBitfield hformat
    rw [exec_pix2rgb, exec_rgb2pix, Surface.conversionEnding_wide hd hwide, Surface.conversionEnding_wide hd hwide]
    exact ⟨rfl, rfl⟩
  · obtain ⟨d, hd, rfl⟩ := Surface.bitfieldDepth_of_bits hbits
    exact ⟨⟨_, exec_pix2rgb_fits hd hwide, rgbR_rgb24 _ _ _, rgbG_rgb24 _ _ _, rgbB_rgb24 _ _ _, rgb24_top _ _ _⟩,
      exec_rgb2pix_fits hd hwide⟩

/-- Settles O14: cutting to a depth drops no channel bit, and `Y` carries every field of `X`. -/
theorem conversionToWiderChannelsIsLossless : Obligations.ConversionToWiderChannelsIsLossless := by
  intro s a b X Y dX dY hXs hYs hdX hbX hdY hbY hfitX hfitY hR hG hB
  have hX := Surface.bitfieldDepth_of_depthOf hdX hbX
  have hY := Surface.bitfieldDepth_of_depthOf hdY hbY
  have hwX : ¬wideChannel X := hfitX.1
  have hwY : ¬wideChannel Y := hfitY.1
  obtain ⟨t1, hexec1, hres1, hkeep1⟩ := exec_pix2rgb_feed hXs hX hwX
  have hYs1 := hYs.trans (hkeep1 b).symm
  obtain ⟨t2, hexec2, hres2, hkeep2⟩ := exec_rgb2pix_feed hYs1 hY hwY
  obtain ⟨t3, hexec3, hres3, hkeep3⟩ := exec_pix2rgb_feed (hYs1.trans (hkeep2 b).symm) hY hwY
  have hXs3 : X = (feed t3).regs.surface a := by rw [hkeep3, hkeep2, hkeep1, hXs]
  obtain ⟨t4, hexec4, hres4, -⟩ := exec_rgb2pix_feed hXs3 hX hwX
  refine ⟨t1, t2, t3, t4, hexec1, hexec2, hexec3, hexec4, ?_⟩
  rw [hres4, feed_opa, hres3, feed_opa, hres2, feed_opa, hres1]
  calc X.rgbToPix (Y.pixToRgb ((Y.rgbToPix (X.pixToRgb (s.regs.opa &&& ones dX.bits)) &&& ones dY.bits)
          &&& ones dY.bits)) &&& ones dX.bits
      = X.rgbToPix (X.pixToRgb s.regs.opa) &&& ones dX.bits := by
        rw [Surface.pixToRgb_and_ones hfitX, Surface.pixToRgb_and_ones hfitY, Surface.pixToRgb_and_ones hfitY,
          Surface.rgbToPix_through hfitY hR hG hB]
    _ = s.regs.opa &&& channelBits X := by
        rw [Surface.rgbToPix_pixToRgb hwX, BitVec.and_assoc, channelBits_and_ones hfitX]

end Sys2Proof.Claims
end

section
/-! PROOFS. Raster operations: the bits of the pair that a code and a colour give, and of `Apply`, `ApplyM` and
`RopSrc`, and the five commands that answer them (42_rop R140 to R151). -/

namespace Sys2Proof.Machine

open Sys2Proof.Claims

/-! ### The constants of a code -/

theorem fillWord_getLsbD (t : Bool) {k : Nat} (hk : k < 32) : (fillWord t).getLsbD k = t := by
  cases t with
  | false => exact BitVec.getLsbD_zero
  | true =>
    change (BitVec.allOnes 32).getLsbD k = true
    rw [BitVec.getLsbD_allOnes, decide_eq_true hk]

/-- Which of A1, A2, X1 and X2 are all ones, from the truth table of the code (42_rop R141). -/
def ropRow (c : BitVec 4) : Bool × Bool × Bool × Bool :=
  ((c.getLsbD 0 ^^ c.getLsbD 1) ^^ (c.getLsbD 2 ^^ c.getLsbD 3), c.getLsbD 0 ^^ c.getLsbD 1,
    c.getLsbD 0 ^^ c.getLsbD 2, c.getLsbD 0)

/-- The printed table has the row that R141 computes, for each of the 16 codes (42_rop R142). -/
theorem ropTable_getElem? : ∀ c : BitVec 4, ropTable[c.toNat]? = some (ropRow c) := by decide

/-! ### The bits of a pair -/

/-- How R141 folds the source bit `b` into two constants: they choose between the answers for 0 and for 1. -/
theorem and_xor_xor_eq_ite : ∀ b p q : Bool, ((b && (p ^^ q)) ^^ p) = if b then q else p := by decide

/-- `a[i] = and_{S[i]}` (42_rop R144): the two rows of source bit `S[i]` differ. -/
theorem ropMask_and_getLsbD (c : BitVec 4) (colour : Word) {k : Nat} (hk : k < 32) :
    (ropMask c colour).and.getLsbD k =
      (c.getLsbD (2 * (colour.getLsbD k).toNat) ^^ c.getLsbD (2 * (colour.getLsbD k).toNat + 1)) := by
  simp only [ropMask, ropConsts, BitVec.getLsbD_xor, BitVec.getLsbD_and, fillWord_getLsbD _ hk]
  rw [and_xor_xor_eq_ite]
  cases colour.getLsbD k <;> rfl

/-- `x[i] = xor_{S[i]}` (42_rop R144): the row of source bit `S[i]` and destination bit 0. -/
theorem ropMask_xor_getLsbD (c : BitVec 4) (colour : Word) {k : Nat} (hk : k < 32) :
    (ropMask c colour).xor.getLsbD k = c.getLsbD (2 * (colour.getLsbD k).toNat) := by
  simp only [ropMask, ropConsts, BitVec.getLsbD_xor, BitVec.getLsbD_and, fillWord_getLsbD _ hk]
  rw [and_xor_xor_eq_ite]
  cases colour.getLsbD k <;> rfl

theorem applyPair_getLsbD (d a x : Word) (k : Nat) :
    (applyPair d a x).getLsbD k = ((d.getLsbD k && a.getLsbD k) ^^ x.getLsbD k) := by
  rw [applyPair, BitVec.getLsbD_xor, BitVec.getLsbD_and]

/-- `ApplyM` acts as `Apply` where the partial mask is 1 and keeps the bit where it is 0 (42_rop R145). -/
theorem applyPairM_getLsbD (d a x m : Word) {k : Nat} (hk : k < 32) :
    (applyPairM d a x m).getLsbD k =
      if m.getLsbD k then (d.getLsbD k && a.getLsbD k) ^^ x.getLsbD k else d.getLsbD k := by
  simp only [applyPairM, BitVec.getLsbD_xor, BitVec.getLsbD_and, BitVec.getLsbD_or, BitVec.getLsbD_not,
    decide_eq_true hk, Bool.true_and]
  cases m.getLsbD k <;> simp

/-- `RopSrc` is the truth table of its code (42_rop R144, R146). -/
theorem ropSrc_getLsbD (c : BitVec 4) (s d : Word) {k : Nat} (hk : k < 32) :
    (ropSrc c s d).getLsbD k = c.getLsbD (2 * (s.getLsbD k).toNat + (d.getLsbD k).toNat) := by
  rw [ropSrc, applyPair_getLsbD, ropMask_and_getLsbD c s hk, ropMask_xor_getLsbD c s hk]
  cases d.getLsbD k with
  | false => simp
  | true => simp [Bool.xor_comm]

/-! ### The commands -/

/-- The claims' `allOnes` is the model's `fillWord`, so the results are the row of the code, spread over words. -/
theorem exec_ropcodes (c : BitVec 4) (s : State) :
    exec (.ropcodes c) s = .next (s.complete
      { res0 := allOnes (ropRow c).1, res1 := allOnes (ropRow c).2.1, res2 := allOnes (ropRow c).2.2.1,
        res3 := allOnes (ropRow c).2.2.2 } s.mem) := rfl

theorem exec_ropmask (c : BitVec 4) (s : State) :
    exec (.ropmask c) s = .next (s.complete
      (s.res.set01 (ropMask c s.regs.opa).and (ropMask c s.regs.opa).xor) s.mem) := rfl

theorem exec_ropapply (s : State) :
    exec .ropapply s = .next (s.complete (s.res.set0 (applyPair s.regs.opa s.regs.opb s.regs.opc)) s.mem) := rfl

theorem exec_ropapplym (s : State) :
    exec .ropapplym s = .next (s.complete
      (s.res.set0 (applyPairM s.regs.opa s.regs.opb s.regs.opc s.regs.opd)) s.mem) := rfl

theorem exec_ropsrc (c : BitVec 4) (s : State) :
    exec (.ropsrc c) s = .next (s.complete (s.res.set0 (ropSrc c s.regs.opa s.regs.opb)) s.mem) := rfl

end Sys2Proof.Machine

namespace Sys2Proof.Claims

open Sys2Proof.Machine

/-- Settles O15: the constants are all ones where the code's row of the printed table says so. -/
theorem ropcodesGivesTheConstants : Obligations.RopcodesGivesTheConstants :=
  fun c => ⟨decode_of_encode rfl rfl, _, _, _, _, ropTable_getElem? c, exec_ropcodes c⟩

/-- Settles O16: applying the pair to a destination is `RopSrc`. -/
theorem ropmaskFollowsTheTruthTable : Obligations.RopmaskFollowsTheTruthTable :=
  fun c s => ⟨decode_of_encode rfl rfl, _, _, exec_ropmask c s, fun d _ hk => ropSrc_getLsbD c s.regs.opa d hk⟩

/-- Settles O17: each command answers its operation on the operand registers, of which every bit is known. -/
theorem valuesCombineBitByBit : Obligations.ValuesCombineBitByBit := by
  refine ⟨decode_of_encode rfl rfl, decode_of_encode rfl rfl, fun c => decode_of_encode rfl rfl, fun s => ?_⟩
  exact ⟨⟨_, exec_ropapply s, fun k _ => applyPair_getLsbD _ _ _ k⟩,
    ⟨_, exec_ropapplym s, fun _ hk => applyPairM_getLsbD _ _ _ _ hk⟩,
    fun c => ⟨_, exec_ropsrc c s, fun _ hk => ropSrc_getLsbD c _ _ hk⟩⟩

end Sys2Proof.Claims
end

section
/-! PROOFS. The packer: which bit of the byte or of the pixel stands at each bit of what UNPACK and PACK answer
(43_pack R162, R163), and what makes a word of an opcode reserved. -/

namespace Sys2Proof

open Sys2Proof.Claims (reservedBits reservedField otherFieldsAreParam ropWithMsrcIsReserved)

/-! ### Reserved words of one opcode -/

/-- An opcode without MSRC has no reserved bits but those outside its mask (30_encoding R109). -/
theorem not_reservedBits_of_mask {op : Opcode} {w : Word} (hop : op.code = w.extractLsb' 0 8)
    (hmsrc : op.hasMsrc = false) (hmask : w &&& ~~~op.usedMask = 0) : ¬reservedBits w op.usedMask := by
  rw [reservedBits_iff hop, hmsrc, hmask]
  simp

theorem otherFieldsAreParam_of_reservedField {op : Opcode} {lo len : Nat} {legal : List (BitVec len)}
    (hmsrc : op.hasMsrc = false)
    (h : ∀ w : Word, w.extractLsb' 0 8 = op.code → w.extractLsb' lo len ∉ legal → reservedField w) :
    otherFieldsAreParam op.code op.usedMask lo len legal := by
  intro w hop hmask hfield
  rw [decode_of_not_reservedBits hop.symm (not_reservedBits_of_mask hop.symm hmsrc hmask),
    build_eq_param_iff hop.symm]
  exact h w hop hfield

theorem ropWithMsrcIsReserved_of_hasMsrc {op : Opcode} (h : op.hasMsrc = true) : ropWithMsrcIsReserved op.code :=
  fun _ hop hmsrc hrop => decode_of_reservedBits hop.symm (.inr ⟨hop ▸ op.hasMsrc_iff.1 h, hmsrc, hrop⟩)

end Sys2Proof

namespace Sys2Proof.Machine

open Sys2Proof.Claims

/-! ### One pixel of a byte, bit by bit -/

theorem FieldAt.unpackByte_getLsbD {mask : Byte} {sh n : Nat} (h : FieldAt mask sh n) (b : Byte) (k : Nat) :
    (unpackByte b mask sh).getLsbD k = (decide (k < n) && b.getLsbD (sh + k)) := by
  obtain ⟨-, hmask⟩ := h
  rw [Machine.unpackByte_getLsbD, Bool.and_comm]
  by_cases hk : sh + k < 8
  · simp [hmask _ hk]
  · simp [BitVec.getLsbD_of_ge _ _ (Nat.not_lt.1 hk)]

theorem FieldAt.packByte_getLsbD {mask : Byte} {sh n k : Nat} (h : FieldAt mask sh n) (b v : Byte) (hk : k < 8) :
    (packByte b mask sh v).getLsbD k = if sh ≤ k ∧ k < sh + n then v.getLsbD (k - sh) else b.getLsbD k := by
  obtain ⟨-, hmask⟩ := h
  rw [Machine.packByte_getLsbD _ _ _ _ _ hk, hmask k hk]
  by_cases hsh : sh ≤ k <;> simp [hsh]

/-- The packer takes the field of a column's pixel, as wide as its depth (43_pack R162, R163). -/
theorem packerLoc_fieldAt (d : SubDepth) (X : Nat) :
    FieldAt (packerLoc d X).1 (packerLoc d X).2 (packerDepth d).bits := by
  cases d with
  | bpp1 =>
    have hbit : ∀ sh < 8, FieldAt (1#8 <<< sh) sh 1 := by unfold FieldAt; decide
    exact hbit (7 - X % 8) (by omega)
  | bpp4 =>
    have hnibbles : FieldAt 0xF0 4 4 ∧ FieldAt 0x0F 0 4 := by unfold FieldAt; decide
    obtain ⟨hhigh, hlow⟩ := hnibbles
    simp only [packerLoc]
    split
    · exact hhigh
    · exact hlow

theorem packerLoc_bpp1_shift (X : Nat) : (packerLoc .bpp1 X).2 = 7 - X % 8 := rfl

theorem packerLoc_bpp4_shift (X : Nat) : (packerLoc .bpp4 X).2 = if X % 2 = 0 then 4 else 0 := by
  simp only [packerLoc]
  split <;> rfl

/-! ### The commands -/

/-- The word UNPACK answers of a byte in the low bits of `p`. -/
theorem unpackValue_getLsbD (d : SubDepth) (p : Word) (X : Nat) {k : Nat} (hk : k < 32) :
    ((unpackValue d (p.extractLsb' 0 8) X).setWidth 32).getLsbD k =
      (decide (k < (packerDepth d).bits) && p.getLsbD ((packerLoc d X).2 + k)) := by
  obtain ⟨hle, -⟩ := packerLoc_fieldAt d X
  rw [unpackValue_eq_unpackByte, BitVec.getLsbD_setWidth, (packerLoc_fieldAt d X).unpackByte_getLsbD,
    BitVec.getLsbD_extractLsb']
  by_cases hkn : k < (packerDepth d).bits
  · simp [hk, hkn, show (packerLoc d X).2 + k < 8 by omega]
  · simp [hkn]

/-- The word PACK answers of a byte in the low bits of `p` and a pixel in the low bits of `v`. -/
theorem packValue_getLsbD (d : SubDepth) (p v : Word) (X : Nat) {k : Nat} (hk : k < 32) :
    ((packValue d (p.extractLsb' 0 8) X v).setWidth 32).getLsbD k =
      if (packerLoc d X).2 ≤ k ∧ k < (packerLoc d X).2 + (packerDepth d).bits then v.getLsbD (k - (packerLoc d X).2)
      else decide (k < 8) && p.getLsbD k := by
  obtain ⟨hle, -⟩ := packerLoc_fieldAt d X
  rw [packValue_eq_packByte, BitVec.getLsbD_setWidth, decide_eq_true hk, Bool.true_and]
  by_cases h8 : k < 8
  · rw [(packerLoc_fieldAt d X).packByte_getLsbD _ _ h8]
    split
    · next hin =>
      have hbits : k - (packerLoc d X).2 < (packerDepth d).bits := by omega
      have hbyte : k - (packerLoc d X).2 < 8 := by omega
      rw [BitVec.getLsbD_setWidth, BitVec.getLsbD_and, ones_getLsbD _ _ (by omega), decide_eq_true hbits,
        decide_eq_true hbyte, Bool.true_and, Bool.and_true]
    · rw [BitVec.getLsbD_extractLsb', Nat.zero_add]
  · rw [BitVec.getLsbD_of_ge _ _ (Nat.not_lt.1 h8), if_neg (by omega), decide_eq_false h8, Bool.false_and]

theorem exec_unpack (d : SubDepth) (s : State) :
    exec (.unpack d) s = .next (s.complete
      (s.res.set0 ((unpackValue d (s.regs.opa.extractLsb' 0 8) s.regs.opb.toNat).setWidth 32)) s.mem) := rfl

theorem exec_pack (d : SubDepth) (s : State) :
    exec (.pack d) s = .next (s.complete
      (s.res.set0 ((packValue d (s.regs.opa.extractLsb' 0 8) s.regs.opb.toNat s.regs.opc).setWidth 32)) s.mem) := rfl

/-- A word of UNPACK or PACK whose DEPTH is neither 1 nor 2 holds a reserved field (30_encoding R99, R106). -/
theorem reservedField_of_depth {w : Word} (hop : w.extractLsb' 0 8 = 0x31 ∨ w.extractLsb' 0 8 = 0x32)
    (h : w.extractLsb' 17 3 ∉ [(1 : BitVec 3), 2]) : reservedField w :=
  .inr (.inr ⟨by simpa using hop, by simpa using h⟩)

end Sys2Proof.Machine

namespace Sys2Proof.Claims

open Sys2Proof.Machine

/-- Settles O19: the bits that the packer takes and replaces, at the shift that each depth gives a column. -/
theorem unpackAndPackOnePixel : Obligations.UnpackAndPackOnePixel := by
  refine ⟨decode_of_encode rfl rfl, decode_of_encode rfl rfl, decode_of_encode rfl rfl, decode_of_encode rfl rfl,
    otherFieldsAreParam_of_reservedField (op := .unpack) rfl fun _ hop => reservedField_of_depth (.inl hop),
    otherFieldsAreParam_of_reservedField (op := .pack) rfl fun _ hop => reservedField_of_depth (.inr hop), ?_⟩
  rintro s X rfl
  refine ⟨⟨_, exec_unpack .bpp1 s, fun k hk => ?_⟩, ⟨_, exec_unpack .bpp4 s, fun k hk => ?_⟩,
    ⟨_, exec_pack .bpp1 s, fun k hk => ?_⟩, ⟨_, exec_pack .bpp4 s, fun k hk => ?_⟩⟩
  · rw [unpackValue_getLsbD _ _ _ hk, packerLoc_bpp1_shift]
    by_cases h0 : k = 0
    · simp [h0, packerDepth, Depth.bits]
    · simp [h0, packerDepth, Depth.bits]
  · rw [unpackValue_getLsbD _ _ _ hk, packerLoc_bpp4_shift]
    split
    · rfl
    · rw [Nat.zero_add]
      rfl
  · rw [packValue_getLsbD _ _ _ _ hk, packerLoc_bpp1_shift]
    by_cases h : k = 7 - s.regs.opb.toNat % 8
    · simp [h, packerDepth, Depth.bits]
    · rw [if_neg (by simp only [packerDepth, Depth.bits]; omega), if_neg h]
  · rw [packValue_getLsbD _ _ _ _ hk, packerLoc_bpp4_shift]
    rcases Nat.mod_two_eq_zero_or_one s.regs.opb.toNat with hpar | hpar
    · simp [hpar, packerDepth, Depth.bits]
    · simp [hpar, packerDepth, Depth.bits]

end Sys2Proof.Claims
end

section
/-! PROOFS. Pixel access: what commands take of a descriptor, a pixel's place at each depth, its value byte by byte, and
the endings of PIXADDR, GETPIXEL and PUTPIXEL (20_memory R62 to R68, 43_pack R161, R164, R165). -/

namespace Sys2Proof.Machine

open Sys2Proof.Claims

/-! ### What commands take of a descriptor -/

theorem depthOf_eq_none_iff (f : BitVec 3) : depthOf f = none ↔ formatNull f := by
  unfold formatNull
  revert f
  decide

/-- The depth of a FORMAT code has the row of the printed table (10_state R43). -/
theorem depthOf_mem_depthTable : ∀ f : BitVec 3, ∀ d ∈ depthOf f,
    (f, d, d.bits, d.bytes, d.subByte, d.bitfield) ∈ depthTable := by decide

theorem Surface.view_of_formatNull {S : Surface} (h : formatNull S.format) : S.view = none := by
  rw [Surface.view, (depthOf_eq_none_iff _).2 h]

/-- A descriptor that is not NULL gives the view of its registers (10_state R41 to R45). -/
theorem Surface.view_of_not_formatNull {S : Surface} (h : ¬formatNull S.format) :
    ∃ V, S.view = some V ∧ ReadsRegisters S V := by
  rw [← depthOf_eq_none_iff] at h
  obtain ⟨d, hd⟩ := Option.ne_none_iff_exists'.1 h
  exact ⟨_, by rw [Surface.view, hd], rfl, rfl, rfl, rfl, rfl, rfl, depthOf_mem_depthTable _ d hd⟩

/-! ### A pixel's place -/

/-- The address of the row that `PixAddr` counts columns from (20_memory R66). -/
def View.rowBase (V : View) (y : Int) : Int := V.base.toNat + (V.orgY + y) * V.stride

theorem pixAddr_bpp1 {V : View} (h : V.depth = .bpp1) (x y : Int) : pixAddr V x y =
    { addr := word (V.rowBase y + (V.orgX + x) / 8), mask := 1#8 <<< (7 - ((V.orgX + x) % 8).toNat),
      shift := 7 - ((V.orgX + x) % 8).toNat } := by
  have hshift : (7 - (V.orgX + x) % 8).toNat = 7 - ((V.orgX + x) % 8).toNat := by omega
  simp only [pixAddr, h, hshift]
  rfl

theorem pixAddr_bpp4 {V : View} (h : V.depth = .bpp4) (x y : Int) : pixAddr V x y =
    { addr := word (V.rowBase y + (V.orgX + x) / 2), mask := if (V.orgX + x) % 2 = 0 then 0xF0 else 0x0F,
      shift := if (V.orgX + x) % 2 = 0 then 4 else 0 } := by
  simp only [pixAddr, h]
  split <;> rfl

theorem pixAddr_whole {V : View} (h : V.depth.subByte = false) (x y : Int) : pixAddr V x y =
    { addr := word (V.rowBase y + (V.orgX + x) * V.depth.bytes), mask := 0xFF, shift := 0 } := by
  obtain ⟨base, stride, depth, orgX, orgY, clipW, clipH⟩ := V
  cases depth with
  | bpp1 | bpp4 => cases h
  | bpp8 | bpp16 | bpp24 | bpp32 => rfl

theorem Depth.subByte_eq_false {d : Depth} (h1 : d ≠ .bpp1) (h4 : d ≠ .bpp4) : d.subByte = false := by
  cases d with
  | bpp1 => exact absurd rfl h1
  | bpp4 => exact absurd rfl h4
  | bpp8 | bpp16 | bpp24 | bpp32 => rfl

/-- A one-bit mask of a byte is the same bit of a word. -/
theorem bit_setWidth : ∀ sh < 8, (1#8 <<< sh).setWidth 32 = 1#32 <<< sh := by decide

/-! ### A pixel's value -/

/-- `MemRead` byte by byte, least significant first (20_memory R62). -/
theorem memRead_extractLsb' (m : Memory) (a : Word) {n k : Nat} (hn : n ≤ 4) (hk : k < n) :
    (memRead m a n).extractLsb' (8 * k) 8 = m.read (a + BitVec.ofNat 32 k) := by
  induction n generalizing a k with
  | zero => omega
  | succ n ih =>
    cases k with
    | zero =>
      refine BitVec.eq_of_getLsbD_eq fun j hj => ?_
      rw [BitVec.getLsbD_extractLsb', memRead_succ_getLsbD _ _ _ _ (by omega), if_pos (by omega)]
      simp [hj]
    | succ k =>
      have hnext : a + BitVec.ofNat 32 (k + 1) = a + 1 + BitVec.ofNat 32 k := by
        rw [BitVec.ofNat_add]
        ac_rfl
      rw [hnext, ← ih (a + 1) (by omega) (by omega)]
      refine BitVec.eq_of_getLsbD_eq fun j hj => ?_
      rw [BitVec.getLsbD_extractLsb', BitVec.getLsbD_extractLsb', memRead_succ_getLsbD _ _ _ _ (by omega),
        if_neg (by omega), show 8 * (k + 1) + j - 8 = 8 * k + j by omega]

theorem toNat_and_ones_lt (v : Word) (n : Nat) (hn : n ≤ 32) : (v &&& ones n).toNat < 2 ^ n := by
  have hones : (ones n).toNat = 2 ^ n - 1 := by
    have hle : 2 ^ n ≤ 2 ^ 32 := Nat.pow_le_pow_right (by decide) hn
    have hpos : 0 < 2 ^ n := Nat.two_pow_pos n
    rw [ones, BitVec.toNat_ofNat, Nat.mod_eq_of_lt (by omega)]
  rw [BitVec.toNat_and, hones, Nat.and_two_pow_sub_one_eq_mod]
  exact Nat.mod_lt _ (Nat.two_pow_pos n)

/-- A pixel's value as a number fits its depth. -/
theorem getPix_toNat_lt (V : View) (m : Memory) (x y : Int) : (getPix V m x y).toNat < 2 ^ V.depth.bits :=
  getPix_and_ones V m x y ▸ toNat_and_ones_lt _ _ V.depth.bits_le

/-- The read-modify-write of a solid command, as the statements write it (43_pack R165, 44_blit R181). -/
theorem fillPix_eq_applyAt (V : View) (r : Regs) (c : BitVec 4) (msrc : Bool) (m : Memory) (x y : Int) :
    fillPix V (r.fillMasks c msrc) m x y = applyAt V (solidPair r c msrc).1 (solidPair r c msrc).2 m (x, y) := by
  rw [fillPix, fillMasks_and, fillMasks_xor]
  rfl

/-! ### The checks of a point access -/

theorem View.inside_iff (V : View) (x y : Int) :
    V.inside x y = true ↔ 0 ≤ x ∧ x < V.clipW ∧ 0 ≤ y ∧ y < V.clipH := by
  simp [View.inside, and_assoc]

theorem pointChecks_null {S : Surface} (h : S.view = none) (r : Regs) : pointChecks S r = .null := by
  rw [pointChecks, h]

section
variable {S : Surface} {V : View} {r : Regs} (hV : S.view = some V)
include hV

theorem pointChecks_outside (h : ¬V.inside r.opa.toInt r.opb.toInt = true) : pointChecks S r = .raise .bounds := by
  rw [pointChecks, hV]
  exact if_neg h

theorem pointChecks_inside (h : V.inside r.opa.toInt r.opb.toInt = true) :
    pointChecks S r = .go { view := V, x := r.opa.toInt, y := r.opb.toInt } := by
  rw [pointChecks, hV]
  exact if_pos h

end

/-! ### The commands -/

theorem exec_pixaddr_null {surf : Surf} {s : State} (h : (s.regs.surface surf).view = none) :
    exec (.pixaddr surf) s = .next (s.nullEnd { res0 := 0, res1 := 0, res2 := 0, res3 := 0 }) := by
  simp only [exec, execPixaddr, h, State.finish_nullop]

theorem exec_pixaddr_view {surf : Surf} {s : State} {V : View} (h : (s.regs.surface surf).view = some V) :
    exec (.pixaddr surf) s = .next (s.complete
      { res0 := (pixAddr V s.regs.opa.toInt s.regs.opb.toInt).addr,
        res1 := (pixAddr V s.regs.opa.toInt s.regs.opb.toInt).mask.setWidth 32,
        res2 := BitVec.ofNat 32 (pixAddr V s.regs.opa.toInt s.regs.opb.toInt).shift,
        res3 := BitVec.ofNat 32 V.depth.bits } s.mem) := by
  simp only [exec, execPixaddr, h, State.finish_complete, coord]

theorem exec_getpixel_null {surf : Surf} {s : State} (h : pointChecks (s.regs.surface surf) s.regs = .null) :
    exec (.getpixel surf) s = .next (s.nullEnd (s.res.set0 0)) := by
  simp only [exec, execGetpixel, h, State.finish_nullop]

theorem exec_getpixel_raise {surf : Surf} {s : State} {e : CmdError}
    (h : pointChecks (s.regs.surface surf) s.regs = .raise e) : exec (.getpixel surf) s = .next (s.raise e) := by
  simp only [exec, execGetpixel, h, State.finish_raise]

theorem exec_getpixel_go {surf : Surf} {s : State} {p : Pixel}
    (h : pointChecks (s.regs.surface surf) s.regs = .go p) :
    exec (.getpixel surf) s = .next (s.complete (s.res.set0 (getPix p.view s.mem p.x p.y)) s.mem) := by
  simp only [exec, execGetpixel, h, State.finish_complete]

theorem exec_putpixel (c : BitVec 4) (msrc : Bool) (s : State) :
    exec (.putpixel c msrc) s = .next (s.finish ((pointChecks s.regs.dst s.regs).ending s.res s.mem fun p =>
      fillPix p.view (s.regs.fillMasks c msrc) s.mem p.x p.y)) := rfl

end Sys2Proof.Machine

namespace Sys2Proof.Claims

open Sys2Proof.Machine

/-- Settles O21: the three outcomes of the point checks, and the value of a pixel by its bytes. -/
theorem getpixelReadsThePixel : Obligations.GetpixelReadsThePixel := by
  refine ⟨decode_of_encode rfl rfl, decode_of_encode rfl rfl, fun surf s => ⟨fun hnull => ?_, ?_⟩⟩
  · exact exec_getpixel_null (pointChecks_null hnull _)
  · rintro V x y hV rfl rfl
    rw [← View.inside_iff]
    refine ⟨fun hout => exec_getpixel_raise (pointChecks_outside hV hout), fun hin =>
      ⟨_, exec_getpixel_go (pointChecks_inside hV hin), fun hs => getPix_subByte hs _ _ _, fun hs =>
        ⟨getPix_toNat_lt _ _ _ _, fun k hk => ?_⟩⟩⟩
    rw [getPix_whole hs]
    exact memRead_extractLsb' _ _ V.depth.bytes_le hk

/-- Settles O18: a descriptor's view by its FORMAT code, and a pixel's place at each kind of depth. -/
theorem pixaddrGivesThePlace : Obligations.PixaddrGivesThePlace := by
  refine ⟨decode_of_encode rfl rfl, decode_of_encode rfl rfl, fun r => ⟨rfl, rfl⟩,
    fun S => ⟨Surface.view_of_formatNull, Surface.view_of_not_formatNull⟩, fun surf s => ⟨exec_pixaddr_null, ?_⟩⟩
  rintro V X row hV rfl rfl
  rw [exec_pixaddr_view hV]
  refine ⟨fun h1 => ?_, fun h4 => ?_, fun h1 h4 => ?_⟩
  · rw [pixAddr_bpp1 h1, h1, bit_setWidth _ (by omega)]
    rfl
  · rw [pixAddr_bpp4 h4, h4]
    split <;> rfl
  · have hs := Depth.subByte_eq_false h1 h4
    have hbytes : V.depth.bits / 8 = V.depth.bytes := by rw [Depth.bits_whole hs]; omega
    rw [pixAddr_whole hs, hbytes]
    rfl

/-- Settles O22: the three outcomes of the point checks; inside, the pixel takes the pair of the fill commands. -/
theorem putpixelWritesThePixel : Obligations.PutpixelWritesThePixel := by
  refine ⟨fun c => decode_of_encode rfl ?_, decode_of_encode rfl rfl,
    ropWithMsrcIsReserved_of_hasMsrc (op := .putpixel) rfl, fun c msrc s => ⟨fun hnull => ?_, ?_⟩⟩
  · exact congrArg (0x34#32 ||| ·) (BitVec.or_zero (x := Claims.ropField c))
  · rw [exec_putpixel, pointChecks_null hnull]
    rfl
  · rintro V x y hV rfl rfl
    rw [← View.inside_iff, exec_putpixel]
    refine ⟨fun hout => ?_, fun hin => ?_⟩
    · rw [pointChecks_outside hV hout]
      rfl
    · rw [pointChecks_inside hV hin, ← fillPix_eq_applyAt]
      rfl

end Sys2Proof.Claims
end

section
/-! PROOFS. The line walk: its accumulator and its count of passed tests from any step on, its pixels in closed form,
and the walk with the classical constants (44_blit R183 to R185). -/

namespace Sys2Proof.Machine

open Sys2Proof.Claims

/-! ### The accumulator and the passed tests -/

section
variable (e0 add1 add2 : Word)

theorem errAt_add (j k : Nat) : errAt e0 add1 add2 (j + k) = errAt (errAt e0 add1 add2 j) add1 add2 k := by
  induction k with
  | zero => rfl
  | succ k ih => rw [← Nat.add_assoc, errAt, ih, errAt]

theorem passes_succ (k : Nat) : passes e0 add1 add2 (k + 1) =
    passes e0 add1 add2 k + if 0 < (errAt e0 add1 add2 k).toInt then 1 else 0 := by
  rw [passes, List.range_succ, List.filter_append, List.length_append, ← passes, List.filter_singleton]
  by_cases h : 0 < (errAt e0 add1 add2 k).toInt <;> simp [h]

theorem passes_add (j k : Nat) : passes e0 add1 add2 (j + k) =
    passes e0 add1 add2 j + passes (errAt e0 add1 add2 j) add1 add2 k := by
  induction k with
  | zero => rfl
  | succ k ih => rw [← Nat.add_assoc, passes_succ, ih, passes_succ, errAt_add, Nat.add_assoc]

end

/-! ### The pixels of the walk -/

/-- The pixel some major and some minor steps away from `(x, y)`. -/
def linePixel (xmaj : Bool) (sx sy x y : Int) (major minor : Nat) : Int × Int :=
  if xmaj then (x + sx * major, y + sy * minor) else (x + sx * minor, y + sy * major)

theorem linePixel_add (xmaj : Bool) (sx sy x y : Int) (a b a' b' : Nat) :
    linePixel xmaj sx sy x y (a + a') (b + b') =
      linePixel xmaj sx sy (linePixel xmaj sx sy x y a b).1 (linePixel xmaj sx sy x y a b).2 a' b' := by
  cases xmaj <;> simp [linePixel, mul_add, add_assoc]

/-- One step of the walk: a major step, and a minor step when the test passes (44_blit R183). -/
theorem lineWalk_succ (add1 add2 : Word) (xmaj : Bool) (sx sy : Int) (n : Nat) (x y : Int) (err : Word) :
    lineWalk add1 add2 xmaj sx sy (n + 1) x y err =
      (x, y) :: lineWalk add1 add2 xmaj sx sy n (linePixel xmaj sx sy x y 1 (passes err add1 add2 1)).1
        (linePixel xmaj sx sy x y 1 (passes err add1 add2 1)).2 (errAt err add1 add2 1) := by
  have hpasses : passes err add1 add2 1 = if 0 < err.toInt then 1 else 0 := by
    rw [passes_succ]
    exact Nat.zero_add _
  rw [lineWalk, hpasses, errAt, errAt]
  by_cases h : 0 < err.toInt <;> cases xmaj <;> simp [h, linePixel]

/-- Pixel `k` of the walk is `k` major steps from the start, and as many minor steps as tests have passed. -/
theorem lineWalk_eq_map (add1 add2 : Word) (xmaj : Bool) (sx sy : Int) (n : Nat) (x y : Int) (err : Word) :
    lineWalk add1 add2 xmaj sx sy n x y err =
      (List.range n).map fun k => linePixel xmaj sx sy x y k (passes err add1 add2 k) := by
  induction n generalizing x y err with
  | zero => rfl
  | succ n ih =>
    rw [lineWalk_succ, ih, List.range_succ_eq_map, List.map_cons, List.map_map]
    congr 1
    · cases xmaj <;> simp [linePixel, passes]
    · refine List.map_congr_left fun k _ => ?_
      rw [Function.comp_apply, Nat.succ_eq_one_add, passes_add, linePixel_add]

theorem getElem?_lineWalk (add1 add2 : Word) (xmaj : Bool) (sx sy : Int) {n k : Nat} (x y : Int) (err : Word)
    (hk : k < n) : (lineWalk add1 add2 xmaj sx sy n x y err)[k]? =
      some (linePixel xmaj sx sy x y k (passes err add1 add2 k)) := by
  rw [lineWalk_eq_map, List.getElem?_map, List.getElem?_range hk, Option.map_some]

/-- The major coordinate tells the pixels of a walk apart. -/
theorem linePixel_major_inj {xmaj : Bool} {sx sy x y : Int} (hsx : sx ≠ 0) (hsy : sy ≠ 0) {a b a' b' : Nat}
    (h : linePixel xmaj sx sy x y a b = linePixel xmaj sx sy x y a' b') : a = a' := by
  cases xmaj with
  | true =>
    obtain ⟨hx, -⟩ := Prod.mk.inj h
    exact_mod_cast mul_left_cancel₀ hsx (add_left_cancel hx)
  | false =>
    obtain ⟨-, hy⟩ := Prod.mk.inj h
    exact_mod_cast mul_left_cancel₀ hsy (add_left_cancel hy)

theorem lineWalk_nodup (add1 add2 : Word) (xmaj : Bool) {sx sy : Int} (hsx : sx ≠ 0) (hsy : sy ≠ 0) (n : Nat)
    (x y : Int) (err : Word) : (lineWalk add1 add2 xmaj sx sy n x y err).Nodup := by
  rw [lineWalk_eq_map]
  exact List.nodup_range.map fun _ _ h => linePixel_major_inj hsx hsy h

theorem step_ne_zero (neg : Bool) : (if neg then -1 else 1 : Int) ≠ 0 := by cases neg <;> decide

/-! ### The classical constants -/

/-- A small integer is the value of its word. -/
theorem word_toInt {v : Int} (hlo : -2 ^ 31 ≤ v) (hhi : v < 2 ^ 31) : (word v).toInt = v := by
  rw [word, BitVec.toInt_ofInt, Int.bmod_eq_of_le] <;> omega

theorem word_add (a b : Int) : word a + word b = word (a + b) := (BitVec.ofInt_add a b).symm

/-- The accumulator before a step, without wrapping: after `k` steps, `p` of them with a minor step. -/
def bresenhamErr (dx dy k p : Nat) : Int := 2 * dy * (k + 1) - dx - 2 * dx * p

/-- The passed tests of the first `k` steps with the classical constants (44_blit R185). -/
def bresenhamPasses (dx dy k : Nat) : Nat :=
  passes (word (2 * (dy : Int) - dx)) (word (2 * ((dy : Int) - dx))) (word (2 * dy)) k

/-- The accumulator never wraps: it stays between `2 (dy - dx)` and `2 dy`. -/
theorem errAt_bresenham {dx dy : Nat} (hle : dy ≤ dx) (hdx : dx < 2 ^ 29) (k : Nat) :
    errAt (word (2 * (dy : Int) - dx)) (word (2 * ((dy : Int) - dx))) (word (2 * dy)) k =
        word (bresenhamErr dx dy k (bresenhamPasses dx dy k)) ∧
      2 * ((dy : Int) - dx) ≤ bresenhamErr dx dy k (bresenhamPasses dx dy k) ∧
      bresenhamErr dx dy k (bresenhamPasses dx dy k) ≤ 2 * dy := by
  induction k with
  | zero =>
    have hstart : bresenhamErr dx dy 0 (bresenhamPasses dx dy 0) = 2 * (dy : Int) - dx := by
      simp [bresenhamErr, bresenhamPasses, passes]
    rw [hstart]
    exact ⟨rfl, by omega, by omega⟩
  | succ k ih =>
    obtain ⟨herr, hlo, hhi⟩ := ih
    have hpasses : bresenhamPasses dx dy (k + 1) = bresenhamPasses dx dy k +
        if 0 < bresenhamErr dx dy k (bresenhamPasses dx dy k) then 1 else 0 := by
      rw [bresenhamPasses, passes_succ, herr, word_toInt (by omega) (by omega), ← bresenhamPasses]
    rw [errAt, herr, word_toInt (by omega) (by omega), hpasses]
    generalize bresenhamPasses dx dy k = p at hlo hhi ⊢
    by_cases hpos : 0 < bresenhamErr dx dy k p
    · have hnext : bresenhamErr dx dy (k + 1) (p + 1) = bresenhamErr dx dy k p + 2 * ((dy : Int) - dx) := by
        simp only [bresenhamErr]
        push_cast
        ring
      rw [if_pos hpos, if_pos hpos, hnext, word_add]
      exact ⟨rfl, by omega, by omega⟩
    · have hnext : bresenhamErr dx dy (k + 1) p = bresenhamErr dx dy k p + 2 * dy := by
        simp only [bresenhamErr]
        push_cast
        ring
      rw [if_neg hpos, if_neg hpos, Nat.add_zero p, hnext, word_add]
      exact ⟨rfl, by omega, by omega⟩

/-- The walk takes exactly `dy` minor steps (44_blit R185). -/
theorem bresenhamPasses_dx {dx dy : Nat} (hle : dy ≤ dx) (hdx : dx < 2 ^ 29) : bresenhamPasses dx dy dx = dy := by
  rcases Nat.eq_zero_or_pos dx with rfl | hpos
  · exact (Nat.le_zero.1 hle).symm
  · obtain ⟨-, hlo, hhi⟩ := errAt_bresenham hle hdx dx
    generalize bresenhamPasses dx dy dx = p at hlo hhi ⊢
    unfold bresenhamErr at hlo hhi
    have hx : (0 : Int) < dx := by exact_mod_cast hpos
    have hlow : (dy : Int) < p + 1 := by nlinarith
    have hhigh : (p : Int) < dy + 1 := by nlinarith
    omega

/-- Neighbours on a walk are one major step and at most one minor step apart. -/
theorem linePixel_next {xmaj : Bool} {sx sy x y : Int} {k m m' : Nat} (h : m' = m ∨ m' = m + 1) :
    if xmaj then
      (linePixel xmaj sx sy x y (k + 1) m').1 = (linePixel xmaj sx sy x y k m).1 + sx ∧
        ((linePixel xmaj sx sy x y (k + 1) m').2 = (linePixel xmaj sx sy x y k m).2 ∨
          (linePixel xmaj sx sy x y (k + 1) m').2 = (linePixel xmaj sx sy x y k m).2 + sy)
    else
      (linePixel xmaj sx sy x y (k + 1) m').2 = (linePixel xmaj sx sy x y k m).2 + sy ∧
        ((linePixel xmaj sx sy x y (k + 1) m').1 = (linePixel xmaj sx sy x y k m).1 ∨
          (linePixel xmaj sx sy x y (k + 1) m').1 = (linePixel xmaj sx sy x y k m).1 + sx) := by
  rcases h with rfl | rfl <;> cases xmaj <;> simp [linePixel, mul_add, add_assoc]

end Sys2Proof.Machine

namespace Sys2Proof.Claims

open Sys2Proof.Machine

/-- Settles O35: the walk as a map over its steps; the major coordinate tells its pixels apart. -/
theorem lineWalkInClosedForm : Obligations.LineWalkInClosedForm := by
  rintro add1 add2 e0 xmaj xneg yneg n x0 y0 sx sy rfl rfl
  exact ⟨lineWalk_eq_map _ _ _ _ _ _ _ _ _, lineWalk_nodup _ _ _ (step_ne_zero xneg) (step_ne_zero yneg) _ _ _ _⟩

/-- Settles O36: with the classical constants the accumulator never wraps, which fixes the number of minor steps. -/
theorem bresenhamLineReachesItsEnd : Obligations.BresenhamLineReachesItsEnd := by
  rintro xmaj xneg yneg dx dy x0 y0 sx sy pts hle hdx - - rfl
  have hminor := bresenhamPasses_dx hle hdx
  refine ⟨?_, hminor, ?_, ?_, ?_⟩
  · rw [lineWalk_eq_map, List.length_map, List.length_range]
  · rw [lineWalk_succ, List.getElem?_cons_zero]
  · rw [getElem?_lineWalk _ _ _ _ _ _ _ _ (Nat.lt_succ_self dx), ← bresenhamPasses, hminor]
    rfl
  · intro k p q hp hq
    have hk : k + 1 < dx + 1 := by
      have hlen := (List.getElem?_eq_some_iff.1 hq).1
      rwa [lineWalk_eq_map, List.length_map, List.length_range] at hlen
    rw [getElem?_lineWalk _ _ _ _ _ _ _ _ (by omega)] at hp
    rw [getElem?_lineWalk _ _ _ _ _ _ _ _ hk, passes_succ] at hq
    obtain rfl := Option.some.inj hp
    obtain rfl := Option.some.inj hq
    refine linePixel_next ?_
    split
    · exact .inr rfl
    · exact .inl rfl

end Sys2Proof.Claims
end

section
/-! PROOFS. The commands of the blitter: their words, the three outcomes of their checks, and the pixels they visit
(44_blit R181, R184, R186, R188). -/

namespace Sys2Proof.Machine

open Sys2Proof.Claims

/-! ### The words -/

theorem placedBit_eq_flag (b : Bool) (k : Nat) : placedBit b k = flag b k := by
  cases b
  · exact BitVec.zero_shiftLeft k
  · rfl

theorem fillFieldsLegal_of_imp {c : BitVec 4} {msrc : Bool} (h : msrc = true → c = 0) :
    fillFieldsLegal c msrc = true := by
  cases msrc with
  | false => rfl
  | true => rw [h rfl]; rfl

/-! ### The check of rectangles -/

theorem View.rectInside_iff (V : View) (x y : Int) {w h : Nat} (hw : w ≠ 0) (hh : h ≠ 0) :
    V.rectInside x y w h = true ↔ 0 ≤ x ∧ 0 ≤ y ∧ x + w ≤ V.clipW ∧ y + h ≤ V.clipH := by
  simp [View.rectInside, hw, hh, and_assoc]

theorem checkRect_empty {R : Rect} (h : R.w = 0 ∨ R.h = 0) : checkRect R = .empty := if_pos h

theorem checkRect_inside {R : Rect} (hw : R.w ≠ 0) (hh : R.h ≠ 0) (h : R.inside = true) : checkRect R = .go R := by
  rw [checkRect, if_neg (by simp [hw, hh]), if_pos h]

theorem checkRect_outside {R : Rect} (hw : R.w ≠ 0) (hh : R.h ≠ 0) (h : ¬R.inside = true) :
    checkRect R = .raise .bounds := by
  rw [checkRect, if_neg (by simp [hw, hh]), if_neg h]

theorem checkPair_empty {D : Rect} (S : Rect) (h : D.w = 0 ∨ D.h = 0) : checkPair D S = .empty := if_pos h

theorem checkPair_inside {D S : Rect} (hw : D.w ≠ 0) (hh : D.h ≠ 0) (hD : D.inside = true) (hS : S.inside = true) :
    checkPair D S = .go { dst := D, src := S } := by
  rw [checkPair, if_neg (by simp [hw, hh]), hD, hS]
  rfl

theorem checkPair_outside {D S : Rect} (hw : D.w ≠ 0) (hh : D.h ≠ 0) (h : ¬(D.inside = true ∧ S.inside = true)) :
    checkPair D S = .raise .bounds := by
  rw [checkPair, if_neg (by simp [hw, hh]), if_neg (by rwa [Bool.and_eq_true])]

/-! ### SOLIDFILL -/

theorem exec_solidfill (c : BitVec 4) (msrc : Bool) (s : State) :
    exec (.solidfill c msrc) s = .next (s.finish ((solidfillChecks s.regs).ending s.res s.mem fun R =>
      solidfillRun (s.regs.fillMasks c msrc) R s.mem)) := rfl

theorem solidfillChecks_null {r : Regs} (h : r.dst.view = none) : solidfillChecks r = .null := by
  rw [solidfillChecks, h]

theorem solidfillChecks_view {r : Regs} {V : View} (h : r.dst.view = some V) :
    solidfillChecks r = checkRect (r.dstRect V) := by
  rw [solidfillChecks, h]

/-- The fill as the statements write it: its pixels in raster order. -/
theorem solidfillRun_eq_foldl_points (r : Regs) (c : BitVec 4) (msrc : Bool) (R : Rect) (m : Memory) :
    solidfillRun (r.fillMasks c msrc) R m =
      R.points.foldl (applyAt R.view (solidPair r c msrc).1 (solidPair r c msrc).2) m := by
  rw [R.points_eq_map, List.foldl_map, solidfillRun, visit]
  simp only [fillPix_eq_applyAt]
  rfl

/-! ### SOLIDLINE -/

theorem exec_solidline (c : BitVec 4) (msrc xmaj xneg yneg : Bool) (s : State) :
    exec (.solidline c msrc xmaj xneg yneg) s =
      .next (s.finish ((solidlineChecks xmaj xneg yneg s.regs).ending s.res s.mem fun W =>
        solidlineRun (s.regs.fillMasks c msrc) W s.mem)) := rfl

/-- The walk of SOLIDLINE from the registers (44_blit R184). -/
def Regs.linePoints (r : Regs) (xmaj xneg yneg : Bool) : List (Int × Int) :=
  lineWalk r.errAdd1 r.errAdd2 xmaj (dirStep xneg) (dirStep yneg) r.length.toNat r.rectX.toInt r.rectY.toInt r.errStart

section
variable {xmaj xneg yneg : Bool} {r : Regs} {V : View}

theorem solidlineChecks_null (h : r.dst.view = none) : solidlineChecks xmaj xneg yneg r = .null := by
  rw [solidlineChecks, h]

theorem solidlineChecks_empty (hV : r.dst.view = some V) (h : r.length.toNat = 0) :
    solidlineChecks xmaj xneg yneg r = .empty := by
  rw [solidlineChecks, hV]
  exact if_pos h

theorem solidlineChecks_of_length (hV : r.dst.view = some V) (h : r.length.toNat ≠ 0) :
    solidlineChecks xmaj xneg yneg r =
      if (r.linePoints xmaj xneg yneg).all fun p => V.inside p.1 p.2 then
        .go { view := V, points := r.linePoints xmaj xneg yneg } else .raise .bounds := by
  rw [solidlineChecks, hV]
  exact if_neg h

theorem solidlineChecks_inside (hV : r.dst.view = some V) (h : r.length.toNat ≠ 0)
    (hin : ∀ p ∈ r.linePoints xmaj xneg yneg, V.inside p.1 p.2 = true) :
    solidlineChecks xmaj xneg yneg r = .go { view := V, points := r.linePoints xmaj xneg yneg } := by
  rw [solidlineChecks_of_length hV h, if_pos (List.all_eq_true.2 hin)]

theorem solidlineChecks_outside (hV : r.dst.view = some V) (h : r.length.toNat ≠ 0) {p : Int × Int}
    (hp : p ∈ r.linePoints xmaj xneg yneg) (hout : ¬V.inside p.1 p.2 = true) :
    solidlineChecks xmaj xneg yneg r = .raise .bounds := by
  rw [solidlineChecks_of_length hV h, if_neg fun hall => hout (List.all_eq_true.1 hall p hp)]

end

theorem solidlineRun_eq_foldl (r : Regs) (c : BitVec 4) (msrc : Bool) (W : Walk) (m : Memory) :
    solidlineRun (r.fillMasks c msrc) W m =
      W.points.foldl (applyAt W.view (solidPair r c msrc).1 (solidPair r c msrc).2) m := by
  simp only [solidlineRun, fillPix_eq_applyAt]

/-! ### COPYRECT -/

theorem exec_copyrect (c : BitVec 4) (revx revy : Bool) (s : State) :
    exec (.copyrect c revx revy) s = .next (s.finish ((copyrectChecks s.regs).ending s.res s.mem fun P =>
      copyrectRun c revx revy P s.mem)) := rfl

/-- The FORMAT codes that are not NULL name different depths (10_state R43). -/
theorem depthOf_inj : ∀ f g : BitVec 3, ∀ d ∈ depthOf f, depthOf g = some d → f = g := by decide

theorem Surface.view_depth {S : Surface} {V : View} (h : S.view = some V) : depthOf S.format = some V.depth := by
  unfold Surface.view at h
  cases hd : depthOf S.format with
  | none => simp [hd] at h
  | some d =>
    rw [hd] at h
    obtain rfl := Option.some.inj h
    rfl

theorem Surface.not_formatNull_of_view {S : Surface} {V : View} (h : S.view = some V) : ¬formatNull S.format := by
  rw [← depthOf_eq_none_iff, Surface.view_depth h]
  exact Option.some_ne_none _

/-- COPYRECT's null condition (44_blit R186, R188). -/
theorem copyrectChecks_null {r : Regs}
    (h : formatNull r.dst.format ∨ formatNull r.src.format ∨ r.src.format ≠ r.dst.format) :
    copyrectChecks r = .null := by
  unfold copyrectChecks
  cases hD : r.dst.view with
  | none => rfl
  | some D =>
    cases hS : r.src.view with
    | none => rfl
    | some S =>
      have hformat : r.src.format ≠ r.dst.format :=
        (h.resolve_left (Surface.not_formatNull_of_view hD)).resolve_left (Surface.not_formatNull_of_view hS)
      have hdepth : S.depth ≠ D.depth := fun e =>
        hformat (depthOf_inj _ _ _ (Surface.view_depth hS) (e ▸ Surface.view_depth hD))
      exact if_pos hdepth

theorem copyrectChecks_view {r : Regs} {D S : View} (hD : r.dst.view = some D) (hS : r.src.view = some S)
    (h : S.depth = D.depth) : copyrectChecks r = checkPair (r.dstRect D) (r.srcRect S) := by
  simp only [copyrectChecks, hD, hS, h, ne_eq, not_true_eq_false, if_false]

section
variable {c : BitVec 4} {revx revy : Bool} {s : State} {D S : View} (hD : s.regs.dst.view = some D)
  (hS : s.regs.src.view = some S) (hd : S.depth = D.depth)
include hD hS hd

theorem exec_copyrect_empty (h : s.regs.rectW.toNat = 0 ∨ s.regs.rectH.toNat = 0) :
    exec (.copyrect c revx revy) s = .next (s.complete s.res s.mem) := by
  rw [exec_copyrect, copyrectChecks_view hD hS hd, checkPair_empty _ h]
  rfl

theorem exec_copyrect_outside (hw : s.regs.rectW.toNat ≠ 0) (hh : s.regs.rectH.toNat ≠ 0)
    (hout : ¬((s.regs.dstRect D).inside = true ∧ (s.regs.srcRect S).inside = true)) :
    exec (.copyrect c revx revy) s = .next (s.raise .bounds) := by
  rw [exec_copyrect, copyrectChecks_view hD hS hd, checkPair_outside hw hh hout]
  rfl

theorem exec_copyrect_inside (hw : s.regs.rectW.toNat ≠ 0) (hh : s.regs.rectH.toNat ≠ 0)
    (hDin : (s.regs.dstRect D).inside = true) (hSin : (s.regs.srcRect S).inside = true) :
    exec (.copyrect c revx revy) s = .next (s.complete s.res
      (copyrectRun c revx revy { dst := s.regs.dstRect D, src := s.regs.srcRect S } s.mem)) := by
  rw [exec_copyrect, copyrectChecks_view hD hS hd, checkPair_inside hw hh hDin hSin]
  rfl

end

/-- The rows of COPYRECT one after the other. -/
theorem copyrectRun_eq_foldl_rows (c : BitVec 4) (revx revy : Bool) (P : RectPair) (m : Memory) :
    copyrectRun c revx revy P m = (counted P.dst.h revy).foldl
      (fun m r => (counted P.dst.w revx).foldl (fun m' k => copyPix c P m' (k, r)) m) m := by
  simp only [copyrectRun, visit, rectCells, List.foldl_flatMap, List.foldl_map]

end Sys2Proof.Machine

namespace Sys2Proof.Claims

open Sys2Proof.Machine

/-- Settles O31: the three outcomes of its checks, and its pixels as one pass over the rectangle. -/
theorem solidfillVisitsItsRectangle : Obligations.SolidfillVisitsItsRectangle := by
  refine ⟨fun c => decode_of_encode rfl ?_, decode_of_encode rfl rfl,
    ropWithMsrcIsReserved_of_hasMsrc (op := .solidfill) rfl, fun c msrc s => ⟨fun hnull => ?_, ?_⟩⟩
  · exact congrArg (0x50#32 ||| ·) (BitVec.or_zero (x := Claims.ropField c))
  · rw [exec_solidfill, solidfillChecks_null hnull]
    rfl
  · rintro V x0 y0 w h hV rfl rfl rfl rfl
    rw [exec_solidfill, solidfillChecks_view hV]
    refine ⟨fun hempty => ?_, fun hw hh hout => ?_, fun hw hh hin => ?_⟩
    · rw [checkRect_empty hempty]
      rfl
    · rw [← View.rectInside_iff V _ _ hw hh] at hout
      rw [checkRect_outside (R := s.regs.dstRect V) hw hh hout]
      rfl
    · rw [← View.rectInside_iff V _ _ hw hh] at hin
      rw [checkRect_inside (R := s.regs.dstRect V) hw hh hin]
      simp only [Checked.ending, State.finish_complete, solidfillRun_eq_foldl_points]
      rfl

/-- Settles O34: the three outcomes of its checks, and its pixels as one pass over the walk. -/
theorem solidlineFollowsItsWalk : Obligations.SolidlineFollowsItsWalk := by
  refine ⟨fun c msrc xmaj xneg yneg hfill => decode_of_encode (fillFieldsLegal_of_imp hfill) ?_,
    ropWithMsrcIsReserved_of_hasMsrc (op := .solidline) rfl, fun c msrc xmaj xneg yneg s => ⟨fun hnull => ?_, ?_⟩⟩
  · simp only [encode, Instr.fieldBits, placedBit_eq_flag, ← BitVec.or_assoc]
    rfl
  · rw [exec_solidline, solidlineChecks_null hnull]
    rfl
  · rintro V n pts hV rfl hpts
    obtain rfl : pts = s.regs.linePoints xmaj xneg yneg := hpts
    simp only [← View.inside_iff]
    rw [exec_solidline]
    refine ⟨fun hempty => ?_, fun hn hout => ?_, fun hn hin => ?_⟩
    · rw [solidlineChecks_empty hV hempty]
      rfl
    · obtain ⟨p, hp, hout⟩ := hout
      rw [solidlineChecks_outside hV hn hp hout]
      rfl
    · rw [solidlineChecks_inside hV hn hin]
      simp only [Checked.ending, State.finish_complete, solidlineRun_eq_foldl]

/-- Settles O37: the three outcomes of its checks, and its pixels row by row in the order picked. -/
theorem copyrectCopiesInTheChosenOrder : Obligations.CopyrectCopiesInTheChosenOrder := by
  refine ⟨fun c revx revy => decode_of_encode rfl ?_, fun c revx revy s => ⟨fun hnull => ?_, ?_⟩⟩
  · simp only [encode, Instr.fieldBits, placedBit_eq_flag, ← BitVec.or_assoc]
    rfl
  · rw [exec_copyrect, copyrectChecks_null hnull]
    rfl
  · rintro D S x0 y0 sx0 sy0 w h rows cols hD hS hd rfl rfl rfl rfl rfl rfl rfl rfl
    refine ⟨exec_copyrect_empty hD hS hd, exec_copyrect_outside hD hS hd, fun hw hh hDin hSin => ?_⟩
    rw [exec_copyrect_inside hD hS hd hw hh hDin hSin, copyrectRun_eq_foldl_rows]
    rfl

end Sys2Proof.Claims
end

section
/-! PROOFS. Overlapping copies: a loop whose rounds read memory, when no round writes what a later one reads, and the
order of COPYRECT that gives this (44_blit R186, R187). -/

namespace Sys2Proof.Machine

open Sys2Proof.Claims

/-! ### A loop whose rounds read memory -/

/-- The round `i` of a drawing loop: the pixel `p i` of `V` takes the value `val i` of memory as the round finds it. -/
def drawPix {ι : Type} (V : View) (p : ι → Int × Int) (val : ι → Memory → Word) (m : Memory) (i : ι) : Memory :=
  putPix V m (p i).1 (p i).2 (val i m)

section
variable {ι : Type} {V : View} {p : ι → Int × Int} {val : ι → Memory → Word} {l : List ι} {m : Memory}

/-- A pixel apart from all that a loop writes is as before the loop. -/
theorem getPix_foldl_drawPix_apart (hm : m.wf = true) (hb : ∀ i ∈ l, m.backs (pixBytes V (p i).1 (p i).2)) {W : View}
    {q : Int × Int} (hq : m.backs (pixBytes W q.1 q.2)) (ha : ∀ i ∈ l, PixelsApart V W (p i).1 (p i).2 q.1 q.2) :
    getPix W (l.foldl (drawPix V p val) m) q.1 q.2 = getPix W m q.1 q.2 := by
  obtain ⟨-, -, hpix⟩ := foldl_keeps
    (fun m' => m'.wf = true ∧ m'.holes = m.holes ∧ getPix W m' q.1 q.2 = getPix W m q.1 q.2) (drawPix V p val) l
    (fun m' i hi ⟨hwf, hholes, hpix⟩ => ⟨putPix_wf _ _ _ _ _ hwf, (putPix_holes _ _ _ _ _).trans hholes,
      (getPix_putPix_apart _ _ _ _ _ _ _ _ hwf (Memory.backs_of_holes hholes (hb i hi))
        (Memory.backs_of_holes hholes hq) (ha i hi)).trans hpix⟩) m ⟨hm, rfl, rfl⟩
  exact hpix

/-- When a round changes no value that a later round takes, each pixel ends with the value its round takes of memory at
the start. -/
theorem getPix_foldl_drawPix (hm : m.wf = true) (hb : ∀ i ∈ l, m.backs (pixBytes V (p i).1 (p i).2)) (hnd : l.Nodup)
    (hdst : ∀ i ∈ l, ∀ j ∈ l, i ≠ j → PixelsApart V V (p i).1 (p i).2 (p j).1 (p j).2)
    (hval : l.Pairwise fun j i => ∀ m' : Memory, m'.wf = true → m'.holes = m.holes →
      val i (drawPix V p val m' j) = val i m')
    {i : ι} (hi : i ∈ l) :
    getPix V (l.foldl (drawPix V p val) m) (p i).1 (p i).2 = val i m &&& ones V.depth.bits := by
  induction l generalizing m with
  | nil => cases hi
  | cons j t ih =>
    obtain ⟨hj, hnd'⟩ := List.nodup_cons.1 hnd
    obtain ⟨hvalj, hval'⟩ := List.pairwise_cons.1 hval
    have hm' : (drawPix V p val m j).wf = true := putPix_wf _ _ _ _ _ hm
    have hholes : (drawPix V p val m j).holes = m.holes := putPix_holes _ _ _ _ _
    have hb' : ∀ k ∈ t, (drawPix V p val m j).backs (pixBytes V (p k).1 (p k).2) :=
      fun k hk => Memory.backs_of_holes hholes (hb k (by simp [hk]))
    rw [List.foldl_cons]
    rcases List.mem_cons.1 hi with rfl | hit
    · have hbi := hb i (by simp)
      rw [getPix_foldl_drawPix_apart hm' hb' (Memory.backs_of_holes hholes hbi)
        fun k hk => hdst k (by simp [hk]) i (by simp) (by rintro rfl; exact hj hk)]
      exact getPix_putPix_self _ _ _ _ _ hm hbi
    · rw [ih hm' hb' hnd' (fun k hk k' hk' => hdst k (by simp [hk]) k' (by simp [hk'])) (hholes ▸ hval') hit,
        hvalj i hit m hm rfl]

end

/-! ### The order of a rectangle -/

/-- `a` comes before `b` in `counted`. -/
def CountedBefore (rev : Bool) (a b : Nat) : Prop := if rev then b < a else a < b

theorem counted_pairwise (n : Nat) (rev : Bool) : (counted n rev).Pairwise (CountedBefore rev) := by
  cases rev with
  | false => exact List.pairwise_lt_range.imp fun hlt => hlt
  | true => exact List.pairwise_reverse.2 (List.pairwise_lt_range.imp fun hlt => hlt)

/-- The cells come row by row, and within a row column by column. -/
theorem rectCells_pairwise (w h : Nat) (revx revy : Bool) : (rectCells w h revx revy).Pairwise fun a b =>
    CountedBefore revy a.2 b.2 ∨ a.2 = b.2 ∧ CountedBefore revx a.1 b.1 := by
  refine List.pairwise_flatMap.2 ⟨fun r _ => ?_, (counted_pairwise h revy).imp fun hrow a ha b hb => .inl ?_⟩
  · exact List.pairwise_map.2 ((counted_pairwise w revx).imp fun hcol => .inr ⟨rfl, hcol⟩)
  · obtain ⟨_, -, rfl⟩ := List.mem_map.1 ha
    obtain ⟨_, -, rfl⟩ := List.mem_map.1 hb
    exact hrow

theorem mem_rectCells_iff_raster (w h : Nat) (revx revy : Bool) (c : Nat × Nat) :
    c ∈ rectCells w h revx revy ↔ c ∈ rectCells w h false false := by
  rw [mem_rectCells, mem_rectCells]

/-- The order that 44_blit R187 tells the host to pick for a copy over the distance `(dx, dy)`. -/
def PickedOrder (revx revy : Bool) (dx dy : Int) : Prop :=
  (0 < dy → revy = true) ∧ (dy < 0 → revy = false) ∧ (dy = 0 → revx = decide (0 < dx))

/-- In the picked order, the pixel that a cell writes is the source of no later cell. -/
theorem PickedOrder.not_source {revx revy : Bool} {dx dy : Int} (h : PickedOrder revx revy dx dy) {a b : Nat × Nat}
    (hab : CountedBefore revy a.2 b.2 ∨ a.2 = b.2 ∧ CountedBefore revx a.1 b.1) :
    ¬((b.1 : Int) = a.1 + dx ∧ (b.2 : Int) = a.2 + dy) := by
  obtain ⟨hpos, hneg, hzero⟩ := h
  rintro ⟨hx, hy⟩
  rcases hab with hrow | ⟨hrow, hcol⟩
  · cases revy with
    | false =>
      have hlt : a.2 < b.2 := hrow
      exact absurd (hpos (by omega)) (by decide)
    | true =>
      have hlt : b.2 < a.2 := hrow
      exact absurd (hneg (by omega)) (by decide)
  · have hrevx := hzero (by omega)
    cases revx with
    | false =>
      have hlt : a.1 < b.1 := hcol
      exact of_decide_eq_false hrevx.symm (by omega)
    | true =>
      have hlt : b.1 < a.1 := hcol
      have hdx : 0 < dx := of_decide_eq_true hrevx.symm
      omega

/-- A rectangle moved back by the distance of a copy: the source in the destination's coordinates. -/
def Rect.movedBack (R : Rect) (dx dy : Int) : Rect := { R with x0 := R.x0 - dx, y0 := R.y0 - dy }

/-! ### Two views of one surface -/

/-- The views lay pixels out alike from their absolute coordinates (20_memory R66). -/
def View.SameSurface (V W : View) : Prop := W.base = V.base ∧ W.stride = V.stride ∧ W.depth = V.depth

theorem View.SameSurface.pixAddr_eq {V W : View} (h : V.SameSurface W) {x y x' y' : Int}
    (hx : W.orgX + x' = V.orgX + x) (hy : W.orgY + y' = V.orgY + y) : pixAddr W x' y' = pixAddr V x y := by
  obtain ⟨hbase, hstride, hdepth⟩ := h
  simp only [pixAddr, hbase, hstride, hdepth, hx, hy]

theorem View.SameSurface.pixelsApart {V W U : View} (h : V.SameSurface W) {u v x y x' y' : Int}
    (hx : W.orgX + x' = V.orgX + x) (hy : W.orgY + y' = V.orgY + y) (ha : PixelsApart U V u v x y) :
    PixelsApart U W u v x' y' := by
  have haddr := h.pixAddr_eq hx hy
  obtain ⟨-, -, hdepth⟩ := h
  simpa only [PixelsApart, pixBytes, haddr, hdepth] using ha

/-- The destination lies `(dx, dy)` away from the source on one surface (44_blit R187). -/
def RectPair.MovesBy (P : RectPair) (dx dy : Int) : Prop :=
  P.dst.view.SameSurface P.src.view ∧ P.dst.view.orgX + P.dst.x0 = P.src.view.orgX + P.src.x0 + dx ∧
    P.dst.view.orgY + P.dst.y0 = P.src.view.orgY + P.src.y0 + dy

/-- In the picked order, the pixel that a cell writes lies apart from the sources of all later cells. -/
theorem PickedOrder.apart {revx revy : Bool} {dx dy : Int} (h : PickedOrder revx revy dx dy) {P : RectPair}
    (hmove : P.MovesBy dx dy) (hapart : Apart P.dst.view (P.dst.points ++ (P.dst.movedBack dx dy).points)) :
    (rectCells P.dst.w P.dst.h revx revy).Pairwise fun a b => PixelsApart P.dst.view P.src.view
      (P.dst.pixelAt a).1 (P.dst.pixelAt a).2 (P.src.pixelAt b).1 (P.src.pixelAt b).2 := by
  obtain ⟨hsame, hdx, hdy⟩ := hmove
  refine (rectCells_pairwise P.dst.w P.dst.h revx revy).imp_of_mem fun {a b} ha hb hab => ?_
  rw [mem_rectCells_iff_raster] at ha hb
  have hne : P.dst.pixelAt a ≠ (P.dst.movedBack dx dy).pixelAt b := fun heq => by
    obtain ⟨hx, hy⟩ := Prod.mk.inj heq
    simp only [Rect.x, Rect.y, Rect.movedBack] at hx hy
    exact h.not_source hab ⟨by omega, by omega⟩
  refine hsame.pixelsApart ?_ ?_ (hapart _ (List.mem_append_left _ (Rect.pixelAt_mem_points ha)) _
    (List.mem_append_right _ (Rect.pixelAt_mem_points (R := P.dst.movedBack dx dy) hb)) hne)
  · simp only [Rect.pixelAt, Rect.x, Rect.movedBack]
    omega
  · simp only [Rect.pixelAt, Rect.y, Rect.movedBack]
    omega

/-! ### COPYRECT -/

/-- The value that COPYRECT gives a pixel. -/
def copyValue (rop : BitVec 4) (P : RectPair) (c : Nat × Nat) (m : Memory) : Word :=
  ropSrc rop (getPix P.src.view m (P.src.x c) (P.src.y c)) (getPix P.dst.view m (P.dst.x c) (P.dst.y c))

theorem copyrectRun_eq_foldl_drawPix (rop : BitVec 4) (revx revy : Bool) (P : RectPair) (m : Memory) :
    copyrectRun rop revx revy P m =
      (rectCells P.dst.w P.dst.h revx revy).foldl (drawPix P.dst.view P.dst.pixelAt (copyValue rop P)) m := rfl

/-- A write of a pixel apart from both pixels that a round of COPYRECT reads leaves its value alone. -/
theorem copyValue_drawPix (rop : BitVec 4) {P : RectPair} {m : Memory} {a b : Nat × Nat} (hm : m.wf = true)
    (ha : m.backs (pixBytes P.dst.view (P.dst.pixelAt a).1 (P.dst.pixelAt a).2))
    (hdst : m.backs (pixBytes P.dst.view (P.dst.pixelAt b).1 (P.dst.pixelAt b).2))
    (hsrc : m.backs (pixBytes P.src.view (P.src.pixelAt b).1 (P.src.pixelAt b).2))
    (hd : PixelsApart P.dst.view P.dst.view (P.dst.pixelAt a).1 (P.dst.pixelAt a).2 (P.dst.pixelAt b).1
      (P.dst.pixelAt b).2)
    (hs : PixelsApart P.dst.view P.src.view (P.dst.pixelAt a).1 (P.dst.pixelAt a).2 (P.src.pixelAt b).1
      (P.src.pixelAt b).2) :
    copyValue rop P b (drawPix P.dst.view P.dst.pixelAt (copyValue rop P) m a) = copyValue rop P b m :=
  congrArg₂ (ropSrc rop) (getPix_putPix_apart _ _ _ _ _ _ _ _ hm ha hsrc hs)
    (getPix_putPix_apart _ _ _ _ _ _ _ _ hm ha hdst hd)

/-- A copy whose order writes no pixel that a later round reads gives each pixel the value of memory at the start. -/
theorem getPix_copyrectRun (rop : BitVec 4) {revx revy : Bool} {P : RectPair} {m : Memory} (hm : m.wf = true)
    (hdst : m.backs (pixelBytes P.dst.view P.dst.points))
    (hsrc : ∀ c ∈ rectCells P.dst.w P.dst.h false false,
      m.backs (pixBytes P.src.view (P.src.pixelAt c).1 (P.src.pixelAt c).2))
    (hapart : Apart P.dst.view P.dst.points)
    (horder : (rectCells P.dst.w P.dst.h revx revy).Pairwise fun a b =>
      PixelsApart P.dst.view P.src.view (P.dst.pixelAt a).1 (P.dst.pixelAt a).2 (P.src.pixelAt b).1
        (P.src.pixelAt b).2)
    {c : Nat × Nat} (hc : c ∈ rectCells P.dst.w P.dst.h revx revy) :
    getPix P.dst.view (copyrectRun rop revx revy P m) (P.dst.x c) (P.dst.y c) =
      copyValue rop P c m &&& ones P.dst.view.depth.bits := by
  have hraster := fun a => (mem_rectCells_iff_raster P.dst.w P.dst.h revx revy a).1
  have hnd := rectCells_nodup P.dst.w P.dst.h revx revy
  rw [copyrectRun_eq_foldl_drawPix]
  refine getPix_foldl_drawPix hm (fun a ha => Rect.backs_at hdst (hraster a ha)) hnd
    (fun a ha b hb => Rect.apart_at hapart (hraster a ha) (hraster b hb)) ?_ hc
  refine (horder.and hnd).imp_of_mem fun {a b} ha hb ⟨hsep, hne⟩ m' hm' hholes => ?_
  exact copyValue_drawPix rop hm' (Memory.backs_of_holes hholes (Rect.backs_at hdst (hraster a ha)))
    (Memory.backs_of_holes hholes (Rect.backs_at hdst (hraster b hb)))
    (Memory.backs_of_holes hholes (hsrc b (hraster b hb))) (Rect.apart_at hapart (hraster a ha) (hraster b hb) hne) hsep

end Sys2Proof.Machine

namespace Sys2Proof.Claims

open Sys2Proof.Machine

/-- Settles O38: in the picked order no round writes what a later round reads. -/
theorem overlappingCopyReadsTheSourceFirst : Obligations.OverlappingCopyReadsTheSourceFirst := by
  rintro c revx revy s D S x0 y0 sx0 sy0 w h dx dy hm hD hS hbase hstride hdepth rfl rfl rfl rfl rfl rfl hDin hSin hdx
    hdy hpos hneg hzero hapart hbD hbS
  by_cases hempty : s.regs.rectW.toNat = 0 ∨ s.regs.rectH.toNat = 0
  · exact ⟨_, exec_copyrect_empty hD hS hdepth hempty, fun k r hk hr => by omega⟩
  · obtain ⟨hw, hh⟩ := not_or.1 hempty
    have hmove : RectPair.MovesBy { dst := s.regs.dstRect D, src := s.regs.srcRect S } dx dy := by
      refine ⟨⟨hbase, hstride, hdepth⟩, ?_, ?_⟩ <;> simp only [Regs.dstRect, Regs.srcRect, coord] <;> omega
    refine ⟨_, exec_copyrect_inside hD hS hdepth hw hh hDin hSin, fun k r hk hr => ?_⟩
    exact getPix_copyrectRun c (P := { dst := s.regs.dstRect D, src := s.regs.srcRect S }) (c := (k, r)) hm hbD
      (fun _ ha => Rect.backs_at (R := s.regs.srcRect S) hbS ha)
      (fun p hp q hq => hapart p (List.mem_append_left _ hp) q (List.mem_append_left _ hq))
      (PickedOrder.apart ⟨hpos, hneg, hzero⟩ hmove hapart) ((mem_rectCells _ _ _ _ _).2 ⟨hk, hr⟩)

end Sys2Proof.Claims
end

section
/-! PROOFS. Dither: the threshold tables as recursive Bayer matrices, the comparator and the pre-quantiser, and the
commands DTHRESH, DCMP, DMONO, QUANT5 and DCONV1 (45_dither R211 to R222). -/

namespace Sys2Proof.Machine

open Sys2Proof.Claims

/-! ### The recursive matrices -/

/-- The Bayer matrix of side `2 ^ k`, at a row and a column (45_dither R211). -/
def bayerMatrix : Nat → Nat → Nat → Nat
  | 0, _, _ => 0
  | k + 1, y, x => 4 * bayerMatrix k y x + bayerBit k y x

/-- The logarithm of a table's side. -/
def tableLog : MatrixSize → Nat
  | .t4 => 2
  | .t8 => 3
  | .t16 => 4

theorem tableSide_eq_two_pow (m : MatrixSize) : tableSide m = 2 ^ tableLog m := by cases m <;> rfl

theorem tableSide_sq_eq_four_pow (m : MatrixSize) : tableSide m * tableSide m = 4 ^ tableLog m := by
  cases m <;> rfl

theorem bayer_eq_bayerMatrix (m : MatrixSize) (y x : Nat) : bayer m y x = bayerMatrix (tableLog m) y x := by
  cases m with
  | t4 | t8 | t16 => simp only [bayer, tableLog, bayerMatrix]; omega

theorem bayerBit_lt (k y x : Nat) : bayerBit k y x < 4 := by
  unfold bayerBit
  split_ifs <;> decide

theorem bayerBit_eq_iff (k y x y' x' : Nat) :
    bayerBit k y x = bayerBit k y' x' ↔ y.testBit k = y'.testBit k ∧ x.testBit k = x'.testBit k := by
  unfold bayerBit
  generalize y.testBit k = a, x.testBit k = b, y'.testBit k = a', x'.testBit k = b'
  revert a b a' b'
  decide

theorem bayerMatrix_lt (k y x : Nat) : bayerMatrix k y x < 4 ^ k := by
  induction k with
  | zero => exact Nat.one_pos
  | succ k ih =>
    have hbit := bayerBit_lt k y x
    rw [bayerMatrix, Nat.pow_succ]
    omega

/-- A value of the matrix, read in base 4, gives every bit of its row and its column. -/
theorem testBit_eq_of_bayerMatrix_eq {k y x y' x' : Nat} (h : bayerMatrix k y x = bayerMatrix k y' x') :
    ∀ j < k, y.testBit j = y'.testBit j ∧ x.testBit j = x'.testBit j := by
  induction k with
  | zero => exact fun j hj => absurd hj (Nat.not_lt_zero j)
  | succ k ih =>
    have hlt := bayerBit_lt k y x
    have hlt' := bayerBit_lt k y' x'
    simp only [bayerMatrix] at h
    intro j hj
    rcases Nat.lt_succ_iff_lt_or_eq.1 hj with hj | rfl
    · exact ih (by omega) j hj
    · exact (bayerBit_eq_iff ..).1 (by omega)

theorem eq_of_testBit_eq_of_lt {k a b : Nat} (ha : a < 2 ^ k) (hb : b < 2 ^ k)
    (h : ∀ j < k, a.testBit j = b.testBit j) : a = b := by
  refine Nat.eq_of_testBit_eq fun j => ?_
  by_cases hj : j < k
  · exact h j hj
  · have hpow : 2 ^ k ≤ 2 ^ j := Nat.pow_le_pow_right (by decide) (Nat.not_lt.1 hj)
    rw [Nat.testBit_lt_two_pow (ha.trans_le hpow), Nat.testBit_lt_two_pow (hb.trans_le hpow)]

theorem bayer_lt (m : MatrixSize) (y x : Nat) : bayer m y x < tableSide m * tableSide m := by
  rw [bayer_eq_bayerMatrix, tableSide_sq_eq_four_pow]
  exact bayerMatrix_lt _ _ _

theorem bayer_injective {m : MatrixSize} {y x y' x' : Nat} (hy : y < tableSide m) (hx : x < tableSide m)
    (hy' : y' < tableSide m) (hx' : x' < tableSide m) (h : bayer m y x = bayer m y' x') : y = y' ∧ x = x' := by
  rw [bayer_eq_bayerMatrix, bayer_eq_bayerMatrix] at h
  rw [tableSide_eq_two_pow] at hy hx hy' hx'
  have hbits := testBit_eq_of_bayerMatrix_eq h
  exact ⟨eq_of_testBit_eq_of_lt hy hy' fun j hj => (hbits j hj).1,
    eq_of_testBit_eq_of_lt hx hx' fun j hj => (hbits j hj).2⟩

/-! ### The printed tables -/

/-- The printed tables, entry by entry (45_dither R212 to R214). -/
theorem thresholdTable_eq_bayer (m : MatrixSize) :
    thresholdTable m =
      (List.range (tableSide m)).map fun y => (List.range (tableSide m)).map fun x => bayer m y x := by
  cases m <;> rfl

theorem toNat_emod_tableSide_lt (m : MatrixSize) (v : Int) : (v % tableSide m).toNat < tableSide m := by
  have hside : (0 : Int) < tableSide m := by cases m <;> decide
  exact (Int.toNat_lt (Int.emod_nonneg v hside.ne')).2 (Int.emod_lt_of_pos v hside)

/-- A coordinate inside the table is its own residue. -/
theorem toNat_emod_tableSide_of_lt {m : MatrixSize} {v : Nat} (h : v < tableSide m) :
    ((v : Int) % tableSide m).toNat = v := by
  rw [Int.emod_eq_of_lt (Int.natCast_nonneg v) (Int.ofNat_lt.2 h), Int.toNat_natCast]

theorem thresh_eq_bayer (m : MatrixSize) (x y : Int) :
    thresh m x y = bayer m (y % tableSide m).toNat (x % tableSide m).toNat := by
  have hx := toNat_emod_tableSide_lt m x
  have hy := toNat_emod_tableSide_lt m y
  simp only [thresh, thresholdTable_eq_bayer, List.getD_eq_getElem?_getD, List.getElem?_map,
    List.getElem?_range hx, List.getElem?_range hy, Option.map_some, Option.getD_some]

theorem thresh_lt (m : MatrixSize) (x y : Int) : thresh m x y < tableSide m * tableSide m :=
  thresh_eq_bayer m x y ▸ bayer_lt m _ _

/-! ### Each value once -/

/-- The table's entries in raster order. -/
def tableValues (m : MatrixSize) : List Nat :=
  (rectCells (tableSide m) (tableSide m) false false).map fun c => thresh m c.1 c.2

theorem tableValues_nodup (m : MatrixSize) : (tableValues m).Nodup := by
  refine (rectCells_nodup _ _ _ _).map_on fun c hc d hd h => ?_
  obtain ⟨hcx, hcy⟩ := (mem_rectCells _ _ _ _ c).1 hc
  obtain ⟨hdx, hdy⟩ := (mem_rectCells _ _ _ _ d).1 hd
  simp only [thresh_eq_bayer, toNat_emod_tableSide_of_lt, hcx, hcy, hdx, hdy] at h
  obtain ⟨hy, hx⟩ := bayer_injective hcy hcx hdy hdx h
  exact Prod.ext hx hy

theorem tableValues_length (m : MatrixSize) : (tableValues m).length = tableSide m * tableSide m := by
  simp [tableValues, rectCells, counted, List.length_flatMap]

/-- The entries are distinct, below `n²` and `n²` in number, so they are all the values below `n²`. -/
theorem tableValues_perm_range (m : MatrixSize) : (tableValues m).Perm (List.range (tableSide m * tableSide m)) := by
  have hsub : tableValues m ⊆ List.range (tableSide m * tableSide m) := fun v hv => by
    obtain ⟨c, -, rfl⟩ := List.mem_map.1 hv
    exact List.mem_range.2 (thresh_lt m _ _)
  exact ((tableValues_nodup m).subperm hsub).perm_of_length_le (by rw [List.length_range, tableValues_length])

theorem count_tableValues {m : MatrixSize} {v : Nat} (h : v < tableSide m * tableSide m) :
    (tableValues m).count v = 1 :=
  List.count_eq_one_of_mem (tableValues_nodup m) ((tableValues_perm_range m).mem_iff.2 (List.mem_range.2 h))

/-! ### DTHRESH and DCMP -/

theorem decode_dthresh (m : MatrixSize) : decode (0x00000040 ||| Claims.mszField m) = .ok (.dthresh m) := by
  cases m <;> exact decode_of_encode rfl rfl

theorem decode_dcmp (m : MatrixSize) : decode (0x00000041 ||| Claims.mszField m) = .ok (.dcmp m) := by
  cases m <;> exact decode_of_encode rfl rfl

theorem bitVec2_eq_three : ∀ v : BitVec 2, v ∉ [(0 : BitVec 2), 1, 2] → v = 3 := by decide

/-- A word of DTHRESH or DCMP whose MSZ is not 0, 1 or 2 holds a reserved field (30_encoding R100, R106). -/
theorem reservedField_of_msz {w : Word} (hop : w.extractLsb' 0 8 = 0x40 ∨ w.extractLsb' 0 8 = 0x41)
    (h : w.extractLsb' 20 2 ∉ [(0 : BitVec 2), 1, 2]) : reservedField w :=
  .inl ⟨by simpa using hop, bitVec2_eq_three _ h⟩

theorem exec_dthresh (m : MatrixSize) (s : State) :
    exec (.dthresh m) s = .next (s.complete
      (s.res.set0 (BitVec.ofNat 32 (thresh m s.regs.opa.toInt s.regs.opb.toInt))) s.mem) := rfl

/-- DCMP's threshold: the table's entry, spread over 0 to 255 (45_dither R219). -/
def scaledThresh (m : MatrixSize) (x y : Int) : Nat := thresh m x y * thresholdScale m

theorem scaledThresh_t16 (x y : Int) : scaledThresh .t16 x y = thresh .t16 x y := Nat.mul_one _

theorem scaledThresh_le (m : MatrixSize) (x y : Int) : scaledThresh m x y ≤ 255 := by
  have hlt := thresh_lt m x y
  cases m with
  | t4 | t8 | t16 => simp only [scaledThresh, tableSide, thresholdScale] at hlt ⊢; omega

theorem exec_dcmp (m : MatrixSize) (s : State) :
    exec (.dcmp m) s = .next (s.complete (s.res.set01
      (bitWord (decide (255 < (s.regs.opa.extractLsb' 0 8).toNat + scaledThresh m s.regs.opb.toInt s.regs.opc.toInt)))
      (BitVec.ofNat 32 (scaledThresh m s.regs.opb.toInt s.regs.opc.toInt))) s.mem) := rfl

theorem eq_thresholdScale {m : MatrixSize} {k : Nat} (h : m = .t4 ∧ k = 16 ∨ m = .t8 ∧ k = 4 ∨ m = .t16 ∧ k = 1) :
    k = thresholdScale m := by
  rcases h with ⟨rfl, rfl⟩ | ⟨rfl, rfl⟩ | ⟨rfl, rfl⟩ <;> rfl

/-! ### DMONO -/

theorem gray_le (rgb : Word) : gray rgb ≤ 255 := by
  have hR := (rgbR rgb).isLt
  have hG := (rgbG rgb).isLt
  have hB := (rgbB rgb).isLt
  unfold gray
  omega

theorem gray_of_black {rgb : Word} (h : rgb.extractLsb' 0 24 = 0) : gray rgb = 0 := by
  have hR : rgbR rgb = (rgb.extractLsb' 0 24).extractLsb' 16 8 := by
    rw [BitVec.extractLsb'_extractLsb'_of_le (by decide)]; rfl
  have hG : rgbG rgb = (rgb.extractLsb' 0 24).extractLsb' 8 8 := by
    rw [BitVec.extractLsb'_extractLsb'_of_le (by decide)]; rfl
  have hB : rgbB rgb = (rgb.extractLsb' 0 24).extractLsb' 0 8 := by
    rw [BitVec.extractLsb'_extractLsb'_of_le (by decide)]; rfl
  rw [gray, hR, hG, hB, h]
  decide

/-- Black never passes, because every entry of the 16 by 16 table is below 256 (45_dither R216). -/
theorem mono_of_black {rgb : Word} (h : rgb.extractLsb' 0 24 = 0) (x y : Int) : mono rgb x y = false := by
  have hlt : thresh .t16 x y < 256 := thresh_lt .t16 x y
  rw [mono, gray_of_black h]
  exact decide_eq_false (by omega)

theorem exec_dmono (s : State) :
    exec .dmono s = .next (s.complete (s.res.set01 (bitWord (mono s.regs.opa s.regs.opb.toInt s.regs.opc.toInt))
      (BitVec.ofNat 32 (gray s.regs.opa))) s.mem) := rfl

theorem lowByte_ofNat_gray (rgb : Word) : ((BitVec.ofNat 32 (gray rgb)).extractLsb' 0 8).toNat = gray rgb := by
  have hle := gray_le rgb
  rw [BitVec.extractLsb'_toNat, BitVec.toNat_ofNat, Nat.shiftRight_zero]
  omega

/-- DCMP's comparison of the gray value with the 16 by 16 matrix is DMONO's. -/
theorem dcmp_gray_eq_mono (rgb : Word) (x y : Int) :
    decide (255 < ((BitVec.ofNat 32 (gray rgb)).extractLsb' 0 8).toNat + scaledThresh .t16 x y) = mono rgb x y := by
  rw [lowByte_ofNat_gray, scaledThresh_t16, mono]

/-! ### QUANT5 -/

/-- Clearing the low three bits (45_dither R217). -/
theorem and_F8_eq_shift (c : Byte) : c &&& (0xF8 : Byte) = c >>> 3 <<< 3 := by
  have hmask : ∀ k < 8, (0xF8 : Byte).getLsbD k = !decide (k < 3) := by decide
  refine BitVec.eq_of_getLsbD_eq fun k hk => ?_
  rw [BitVec.getLsbD_and, BitVec.getLsbD_shiftLeft, BitVec.getLsbD_ushiftRight, hmask k hk, decide_eq_true hk,
    Bool.true_and, Bool.and_comm]
  by_cases h3 : k < 3
  · rw [decide_eq_true h3]
    rfl
  · rw [Nat.add_sub_cancel' (Nat.not_lt.1 h3)]

/-- The centre of the channel's lattice cell (45_dither R217). -/
theorem quantChannel_toNat (c : Byte) : (quantChannel c).toNat = c.toNat / 8 * 8 + 4 := by
  have hlt := c.isLt
  have hfloor : (c &&& (0xF8 : Byte)).toNat = c.toNat / 8 * 8 := by
    rw [and_F8_eq_shift, BitVec.toNat_shiftLeft, BitVec.toNat_ushiftRight, Nat.shiftRight_eq_div_pow,
      Nat.shiftLeft_eq]
    omega
  have hfour : (4 : Byte).toNat = 4 := rfl
  rw [quantChannel, BitVec.toNat_add, hfloor, hfour]
  omega

theorem quantChannel_idem (c : Byte) : quantChannel (quantChannel c) = quantChannel c := by
  refine BitVec.eq_of_toNat_eq ?_
  rw [quantChannel_toNat, quantChannel_toNat]
  omega

theorem quant5_idem (rgb : Word) : quant5 (quant5 rgb) = quant5 rgb := by
  simp only [quant5, rgbR_rgb24, rgbG_rgb24, rgbB_rgb24, quantChannel_idem]

theorem exec_quant5 (s : State) :
    exec .quant5 s = .next (s.complete (s.res.set0 (quant5 s.regs.opa)) s.mem) := rfl

/-! ### DCONV1 -/

theorem exec_dconv1 (pad : Bool) (s : State) :
    exec (.dconv1 pad) s = .next (s.finish ((dconv1Checks s.regs).ending s.res s.mem fun P =>
      dconv1Run s.regs.src pad P s.mem)) := rfl

/-- The FORMAT codes of the bitfield depths (10_state R43, R47). -/
theorem bitfield_iff_formatBitfield {S : Surface} {V : View} (h : S.view = some V) :
    V.depth.bitfield = true ↔ formatBitfield S.format := by
  have hcode : ∀ f : BitVec 3, ∀ d ∈ depthOf f, (d.bitfield = true ↔ formatBitfield f) := by
    unfold formatBitfield
    decide
  exact hcode _ _ (Surface.view_depth h)

theorem depth_eq_bpp1_iff {S : Surface} {V : View} (h : S.view = some V) : V.depth = .bpp1 ↔ S.format = 1 := by
  have hcode : ∀ f : BitVec 3, ∀ d ∈ depthOf f, (d = .bpp1 ↔ f = 1) := by decide
  exact hcode _ _ (Surface.view_depth h)

theorem chanTooWide_eq_true {S : Surface} (h : wideChannel S) : S.chanTooWide = true := by
  simpa [Surface.chanTooWide, Chan.tooWide, wideChannel, or_assoc] using h

/-- DCONV1's null condition (45_dither R222). -/
theorem dconv1Checks_null {r : Regs} (h : r.dst.format ≠ 1 ∨ ¬formatBitfield r.src.format) :
    dconv1Checks r = .null := by
  unfold dconv1Checks
  cases hD : r.dst.view with
  | none => rfl
  | some D =>
    cases hS : r.src.view with
    | none => rfl
    | some S =>
      rw [ne_eq, ← depth_eq_bpp1_iff hD, ← bitfield_iff_formatBitfield hS, Bool.not_eq_true] at h
      exact if_pos h

section
variable {r : Regs} {D S : View} (hD : r.dst.view = some D) (hS : r.src.view = some S) (hd : r.dst.format = 1)
  (hs : formatBitfield r.src.format)
include hD hS hd hs

theorem dconv1Checks_view :
    dconv1Checks r = if r.src.chanTooWide then .raise .param else checkPair (r.dstRect D) (r.srcRect S) := by
  simp only [dconv1Checks, hD, hS, (depth_eq_bpp1_iff hD).2 hd, (bitfield_iff_formatBitfield hS).2 hs]
  exact if_neg (by simp)

theorem dconv1Checks_wide (h : wideChannel r.src) : dconv1Checks r = .raise .param := by
  rw [dconv1Checks_view hD hS hd hs, if_pos (chanTooWide_eq_true h)]

theorem dconv1Checks_fits (h : ¬wideChannel r.src) : dconv1Checks r = checkPair (r.dstRect D) (r.srcRect S) := by
  rw [dconv1Checks_view hD hS hd hs, if_neg (by rw [chanTooWide_eq_false h]; decide)]

end

/-- A row of DCONV1 with its columns and the comparator's answer written out. -/
theorem dconv1Row_eq_foldl (src : Surface) (pad : Bool) (P : RectPair) (m : Memory) (r : Nat) :
    dconv1Row src pad P m r =
      let m1 := (List.range P.dst.w).foldl (fun m' (c : Nat) =>
        putPix P.dst.view m' (P.dst.x0 + c) (P.dst.y0 + r)
          (if mono (src.pixToRgb (getPix P.src.view m' (P.src.x0 + c) (P.src.y0 + r))) (P.dst.x0 + c) (P.dst.y0 + r)
            then 1 else 0)) m
      if pad then padRow P.dst.view m1 (P.dst.y0 + r) (P.dst.view.orgX + P.dst.x0 + P.dst.w) else m1 := by
  simp only [dconv1Row, visit, List.foldl_map]
  rfl

end Sys2Proof.Machine

namespace Sys2Proof.Claims

open Sys2Proof.Machine

/-- Settles O24: the printed tables entry by entry, and the matrix's values in base 4. -/
theorem thresholdTablesAreBayer : Obligations.ThresholdTablesAreBayer := by
  refine fun m => ⟨thresh_eq_bayer m, fun v hv => ?_⟩
  have hcount := count_tableValues hv
  rwa [tableValues, List.count, List.countP_map, List.countP_eq_length_filter] at hcount

/-- Settles O25: both read the table's entry, which is below `n²`, so that the scaled threshold is at most 255. -/
theorem thresholdCommands : Obligations.ThresholdCommands := by
  refine ⟨fun m => ⟨decode_dthresh m, decode_dcmp m⟩,
    otherFieldsAreParam_of_reservedField (op := .dthresh) rfl fun _ hop => reservedField_of_msz (.inl hop),
    otherFieldsAreParam_of_reservedField (op := .dcmp) rfl fun _ hop => reservedField_of_msz (.inr hop), ?_⟩
  intro m s k hk
  obtain rfl := eq_thresholdScale hk
  have hle := scaledThresh_le m s.regs.opb.toInt s.regs.opc.toInt
  refine ⟨exec_dthresh m s, scaledThresh m s.regs.opb.toInt s.regs.opc.toInt, _, rfl, hle, decide_eq_true_iff,
    exec_dcmp m s, fun hzero => ?_, fun hmax => ?_⟩
  · have hzero' : (0 : Byte).toNat = 0 := rfl
    rw [hzero, hzero']
    exact decide_eq_false (by omega)
  · have hmax' : (255 : Byte).toNat = 255 := rfl
    rw [hmax, hmax', decide_eq_true_iff]
    omega

/-- Settles O26: DMONO's answer is `Mono`, and DCMP's operand holds the whole gray value. -/
theorem monochromeComparator : Obligations.MonochromeComparator := by
  refine ⟨decode_of_encode rfl rfl, fun s g hg => ?_⟩
  obtain rfl : g = gray s.regs.opa := hg
  refine ⟨gray_le _, mono s.regs.opa s.regs.opb.toInt s.regs.opc.toInt, decide_eq_true_iff, exec_dmono s,
    fun hblack => mono_of_black hblack _ _, _, exec_dcmp _ _, ?_⟩
  exact congrArg bitWord (dcmp_gray_eq_mono _ _ _)

/-- Settles O27: each channel of the result is a quantised one, and a lattice centre quantises to itself. -/
theorem quantiserGivesLatticeCentres : Obligations.QuantiserGivesLatticeCentres := by
  refine ⟨decode_of_encode rfl rfl, fun s => ⟨quant5 s.regs.opa, exec_quant5 s, ?_, ?_, ?_, rgb24_top _ _ _, ?_⟩⟩
  · exact (congrArg BitVec.toNat (rgbR_rgb24 _ _ _)).trans (quantChannel_toNat _)
  · exact (congrArg BitVec.toNat (rgbG_rgb24 _ _ _)).trans (quantChannel_toNat _)
  · exact (congrArg BitVec.toNat (rgbB_rgb24 _ _ _)).trans (quantChannel_toNat _)
  · rw [exec_quant5, quant5_idem]
    rfl

/-- Settles O28: the checks in their order, and the rows one after the other. -/
theorem ditheredConversion : Obligations.DitheredConversion := by
  refine ⟨decode_of_encode rfl rfl, decode_of_encode rfl rfl, fun pad s => ⟨fun hnull => ?_, ?_⟩⟩
  · rw [exec_dconv1, dconv1Checks_null hnull]
    rfl
  · rintro D S x0 y0 sx0 sy0 w h hD hS hd hs rfl rfl rfl rfl rfl rfl
    rw [exec_dconv1]
    refine ⟨fun hwide => ?_, fun hfits hempty => ?_, fun hfits hw hh hout => ?_, fun hfits hw hh hDin hSin => ?_⟩
    · rw [dconv1Checks_wide hD hS hd hs hwide]
      rfl
    · rw [dconv1Checks_fits hD hS hd hs hfits, checkPair_empty _ hempty]
      rfl
    · rw [dconv1Checks_fits hD hS hd hs hfits,
        checkPair_outside (D := s.regs.dstRect D) (S := s.regs.srcRect S) hw hh hout]
      rfl
    · rw [dconv1Checks_fits hD hS hd hs hfits,
        checkPair_inside (D := s.regs.dstRect D) (S := s.regs.srcRect S) hw hh hDin hSin]
      simp only [Checked.ending, State.finish_complete, dconv1Run,
        funext₂ (dconv1Row_eq_foldl s.regs.src pad _)]
      rfl

end Sys2Proof.Claims
end

section
/-! PROOFS. The commands of the pattern brush and the stencil: their words, the outcomes of their checks, and the pixels
they visit (46_pattern R231 to R233, R235). -/

namespace Sys2Proof.Machine

open Sys2Proof.Claims

/-! ### Visits in the shapes that the statements write -/

/-- A visit of a rectangle as its rows one after the other. -/
theorem visit_rectCells (w h : Nat) (revx revy : Bool) (m : Memory) (f : Memory → Nat × Nat → Memory) :
    visit (rectCells w h revx revy) m f =
      (counted h revy).foldl (fun m r => (counted w revx).foldl (fun m' k => f m' (k, r)) m) m := by
  simp only [visit, rectCells, List.foldl_flatMap, List.foldl_map]

/-- A visit of a rectangle in raster order as one pass over its pixels. -/
theorem visit_eq_foldl_points (R : Rect) (m : Memory) (f : Memory → Int × Int → Memory) :
    visit (rectCells R.w R.h false false) m (fun m' c => f m' (R.x c, R.y c)) = R.points.foldl f m := by
  rw [R.points_eq_map, List.foldl_map, visit]
  rfl

/-! ### BRUSHMASK -/

theorem exec_brushmask (c : BitVec 4) (s : State) : exec (.brushmask c) s =
    .next (s.finish ((brushmaskChecks s.regs).ending s.res s.mem fun B => brushmaskRun c s.regs B s.mem)) := rfl

theorem exec_brushmask_null {c : BitVec 4} {s : State} (h : s.regs.dst.view = none) :
    exec (.brushmask c) s = .next (s.nullEnd s.res) := by
  have hchecks : brushmaskChecks s.regs = .null := by rw [brushmaskChecks, h]
  rw [exec_brushmask, hchecks]
  rfl

theorem exec_brushmask_view {c : BitVec 4} {s : State} {V : View} (h : s.regs.dst.view = some V) :
    exec (.brushmask c) s =
      .next (s.complete s.res (brushmaskRun c s.regs (s.regs.brushImages V.depth 8 8) s.mem)) := by
  have hchecks : brushmaskChecks s.regs = .go (s.regs.brushImages V.depth 8 8) := by rw [brushmaskChecks, h]
  rw [exec_brushmask, hchecks]
  rfl

/-- Row `y` of the 8 by 8 pattern: byte `y` of the two hatch registers (10_state R49). -/
def Regs.hatchRow (r : Regs) (y : Nat) : Byte :=
  if y < 4 then r.hatchLo.extractLsb' (8 * y) 8 else r.hatchHi.extractLsb' (8 * (y - 4)) 8

/-- Column 0 is the most significant bit of a row (46_pattern R232). -/
theorem Regs.hatchBit_eq_hatchRow (r : Regs) (x : Nat) {y : Nat} (hy : y < 8) :
    r.hatchBit x y = (r.hatchRow y).getLsbD (7 - x) := by
  have hx : 7 - x < 8 := by omega
  unfold Regs.hatchBit Regs.hatchRow
  by_cases hlow : y < 4
  · rw [if_pos hlow, if_pos hlow, BitVec.getLsbD_extractLsb', decide_eq_true hx, Bool.true_and,
      Nat.mod_eq_of_lt hlow]
  · have hmod : y % 4 = y - 4 := by omega
    rw [if_neg hlow, if_neg hlow, BitVec.getLsbD_extractLsb', decide_eq_true hx, Bool.true_and, hmod]

/-- One pixel of both images under a pair. -/
def BrushImages.put (B : BrushImages) (p : MaskPair) (m : Memory) (x y : Nat) : Memory :=
  putPix B.xor (putPix B.and m x y p.and) x y p.xor

theorem brushPix_eq (fg bg : MaskPair) (r : Regs) (B : BrushImages) (m : Memory) (x : Nat) {y : Nat} (hy : y < 8) :
    brushPix fg bg r B m (x, y) =
      if (r.hatchRow y).getLsbD (7 - x) then B.put fg m x y else B.put bg m x y := by
  rw [← r.hatchBit_eq_hatchRow x hy]
  unfold brushPix
  cases r.hatchBit x y <;> rfl

/-- The images row by row, with the hatch bit choosing the pair. -/
theorem brushmaskRun_eq_foldl_rows (c : BitVec 4) (r : Regs) (B : BrushImages) (m : Memory) :
    brushmaskRun c r B m = (List.range 8).foldl (fun m (y : Nat) => (List.range 8).foldl (fun m' (x : Nat) =>
      if (r.hatchRow y).getLsbD (7 - x) then B.put (ropMask c r.fgPixel) m' x y
      else B.put (ropMask c r.bgPixel) m' x y) m) m := by
  rw [brushmaskRun, visit_rectCells]
  refine List.foldl_ext _ _ _ fun m' y hy => List.foldl_ext _ _ _ fun m'' x _ => ?_
  exact brushPix_eq _ _ r B m'' x (List.mem_range.1 hy)

/-! ### PATFILL -/

theorem exec_patfill (s : State) : exec .patfill s =
    .next (s.finish ((patfillChecks s.regs).ending s.res s.mem fun R => patfillRun s.regs R s.mem)) := rfl

theorem exec_patfill_null {s : State} (h : s.regs.dst.view = none) :
    exec .patfill s = .next (s.nullEnd s.res) := by
  have hchecks : patfillChecks s.regs = .null := by rw [patfillChecks, h]
  rw [exec_patfill, hchecks]
  rfl

/-- The brush has no pixel (46_pattern R233). -/
def Regs.brushEmpty (r : Regs) : Prop := r.brW.toNat = 0 ∨ r.brH.toNat = 0

theorem patfillChecks_param {r : Regs} {V : View} (hV : r.dst.view = some V) (h : r.brushEmpty) :
    patfillChecks r = .raise .param := by
  rw [patfillChecks, hV]
  exact if_pos h

theorem patfillChecks_brush {r : Regs} {V : View} (hV : r.dst.view = some V) (h : ¬r.brushEmpty) :
    patfillChecks r = checkRect (r.dstRect V) := by
  rw [patfillChecks, hV]
  exact if_neg h

/-- The two images of PATFILL's brush at depth `d` (46_pattern R231, R233). -/
def Regs.patImages (r : Regs) (d : Depth) : BrushImages := r.brushImages d (size r.brW) (size r.brH)

/-- The value that PATFILL gives a pixel (46_pattern R233). -/
def Regs.patValue (r : Regs) (V : View) (p : Int × Int) (m : Memory) : Word :=
  let B := r.patImages V.depth
  let b := r.brushPhase p.1 p.2
  applyPair (getPix V m p.1 p.2) (getPix B.and m b.1 b.2) (getPix B.xor m b.1 b.2)

theorem patfillRun_eq_foldl_points (r : Regs) (R : Rect) (m : Memory) :
    patfillRun r R m = R.points.foldl (drawPix R.view id (r.patValue R.view)) m :=
  visit_eq_foldl_points R m (drawPix R.view id (r.patValue R.view))

theorem Rect.points_of_empty {R : Rect} (h : R.w = 0 ∨ R.h = 0) : R.points = [] := by
  rw [R.points_eq_map, List.map_eq_nil_iff]
  refine List.eq_nil_iff_forall_not_mem.2 fun c hc => ?_
  obtain ⟨hw, hh⟩ := (mem_rectCells _ _ _ _ c).1 hc
  omega

section
variable {s : State} {V : View} (hV : s.regs.dst.view = some V)
include hV

theorem exec_patfill_param (h : s.regs.brushEmpty) : exec .patfill s = .next (s.raise .param) := by
  rw [exec_patfill, patfillChecks_param hV h]
  rfl

theorem exec_patfill_empty (hbr : ¬s.regs.brushEmpty) (h : s.regs.rectW.toNat = 0 ∨ s.regs.rectH.toNat = 0) :
    exec .patfill s = .next (s.complete s.res s.mem) := by
  rw [exec_patfill, patfillChecks_brush hV hbr, checkRect_empty h]
  rfl

theorem exec_patfill_outside (hbr : ¬s.regs.brushEmpty) (hw : s.regs.rectW.toNat ≠ 0) (hh : s.regs.rectH.toNat ≠ 0)
    (hout : ¬(s.regs.dstRect V).inside = true) : exec .patfill s = .next (s.raise .bounds) := by
  rw [exec_patfill, patfillChecks_brush hV hbr, checkRect_outside hw hh hout]
  rfl

/-- A rectangle inside DST, be it empty or not, is filled. -/
theorem exec_patfill_inside (hbr : ¬s.regs.brushEmpty) (hin : (s.regs.dstRect V).inside = true) :
    exec .patfill s = .next (s.complete s.res (patfillRun s.regs (s.regs.dstRect V) s.mem)) := by
  by_cases hempty : (s.regs.dstRect V).w = 0 ∨ (s.regs.dstRect V).h = 0
  · rw [exec_patfill_empty hV hbr hempty, patfillRun_eq_foldl_points, Rect.points_of_empty hempty, List.foldl_nil]
  · obtain ⟨hw, hh⟩ := not_or.1 hempty
    rw [exec_patfill, patfillChecks_brush hV hbr, checkRect_inside hw hh hin]
    rfl

end

/-! ### MASKFILL -/

theorem exec_maskfill (c : BitVec 4) (s : State) : exec (.maskfill c) s =
    .next (s.finish ((maskfillChecks s.regs).ending s.res s.mem fun P => maskfillRun c s.regs P s.mem)) := rfl

/-- MASKFILL's null condition (46_pattern R235). -/
theorem maskfillChecks_null {r : Regs} (h : formatNull r.dst.format ∨ r.src.format ≠ 1) :
    maskfillChecks r = .null := by
  unfold maskfillChecks
  cases hD : r.dst.view with
  | none => rfl
  | some D =>
    cases hS : r.src.view with
    | none => rfl
    | some S =>
      have hformat : r.src.format ≠ 1 := h.resolve_left (Surface.not_formatNull_of_view hD)
      exact if_pos (mt (depth_eq_bpp1_iff hS).1 hformat)

theorem maskfillChecks_view {r : Regs} {D S : View} (hD : r.dst.view = some D) (hS : r.src.view = some S)
    (h : S.depth = .bpp1) : maskfillChecks r = checkPair (r.dstRect D) (r.srcRect S) := by
  simp only [maskfillChecks, hD, hS, h, ne_eq, not_true_eq_false, if_false]

end Sys2Proof.Machine

namespace Sys2Proof.Claims

open Sys2Proof.Machine

/-- Settles O39: the two images row by row, and each row's byte of the hatch registers. -/
theorem brushmaskBuildsTheImages : Obligations.BrushmaskBuildsTheImages := by
  refine ⟨fun c => decode_of_encode rfl rfl, fun c s => ⟨exec_brushmask_null, ?_⟩⟩
  rintro V A X hV rfl rfl
  rw [exec_brushmask_view hV, brushmaskRun_eq_foldl_rows]
  rfl

/-- Settles O40: the outcomes of its checks in order, and its pixels as one pass over the rectangle. -/
theorem patfillTilesTheBrush : Obligations.PatfillTilesTheBrush := by
  refine ⟨decode_of_encode rfl rfl, fun s => ⟨exec_patfill_null, ?_⟩⟩
  rintro V A X x0 y0 w h bw bh hV rfl rfl rfl rfl rfl rfl rfl rfl
  refine ⟨exec_patfill_param hV, fun hbw hbh => exec_patfill_empty hV (not_or.2 ⟨hbw, hbh⟩),
    fun hbw hbh hw hh hout => ?_, fun hbw hbh hw hh hin => ?_⟩
  · exact exec_patfill_outside hV (not_or.2 ⟨hbw, hbh⟩) hw hh (Bool.not_eq_true _ ▸ hout)
  · rw [exec_patfill_inside hV (not_or.2 ⟨hbw, hbh⟩) hin, patfillRun_eq_foldl_points]
    rfl

/-- Settles O42: the outcomes of its checks, and its pixels as one pass over the rectangle's offsets. -/
theorem maskfillSelectsByTheStencil : Obligations.MaskfillSelectsByTheStencil := by
  refine ⟨fun c => decode_of_encode rfl rfl, fun c s => ⟨fun hnull => ?_, ?_⟩⟩
  · rw [exec_maskfill, maskfillChecks_null hnull]
    rfl
  · rintro D S x0 y0 sx0 sy0 w h hD hS hd rfl rfl rfl rfl rfl rfl
    rw [exec_maskfill, maskfillChecks_view hD hS hd]
    refine ⟨fun hempty => ?_, fun hw hh hout => ?_, fun hw hh hDin hSin => ?_⟩
    · rw [checkPair_empty _ hempty]
      rfl
    · rw [checkPair_outside (D := s.regs.dstRect D) (S := s.regs.srcRect S) hw hh hout]
      rfl
    · rw [checkPair_inside (D := s.regs.dstRect D) (S := s.regs.srcRect S) hw hh hDin hSin]
      rfl

end Sys2Proof.Claims
end

section
/-! PROOFS. Split pattern fills: writes to pixels that lie apart can change places, so a fill whose rounds do not feed one
another depends only on which pixels it visits (46_pattern R234, 20_memory R69). -/

namespace Sys2Proof.Machine

open Sys2Proof.Claims

/-! ### Writes that change places -/

theorem overlay_comm {k k' : Byte} (h : k &&& k' = 0) (b v v' : Byte) :
    overlay (overlay b k v) k' v' = overlay (overlay b k' v') k v := by
  ext i hi
  have hbit : (k.getLsbD i && k'.getLsbD i) = false := by rw [← BitVec.getLsbD_and, h]; exact BitVec.getLsbD_zero
  simp only [← BitVec.getLsbD_eq_getElem, overlay_getLsbD _ _ _ _ hi]
  cases hk : k.getLsbD i <;> cases hk' : k'.getLsbD i <;> simp_all

section
variable {V : View} {x y x' y' : Int} {v w : Word} {m : Memory}

/-- A byte that the second of two writes does not touch is the same in either order. -/
theorem read_putPix_putPix_of_notMem (hm : m.wf = true) (hb : m.backs (pixBytes V x y))
    (hb' : m.backs (pixBytes V x' y')) {a : Word} (ha : m.unbacked a.toNat = false) (hn : a ∉ pixBytes V x' y') :
    (putPix V (putPix V m x y v) x' y' w).read a = (putPix V (putPix V m x' y' w) x y v).read a := by
  obtain ⟨mask, val, hover⟩ := Overwrites.putPix hb v
  obtain ⟨-, -, hread⟩ := hover m hm rfl
  obtain ⟨-, -, hread'⟩ := hover (putPix V m x' y' w) (putPix_wf _ _ _ _ _ hm) (putPix_holes _ _ _ _ _)
  rw [putPix_read_ne V _ x' y' w a (Memory.backs_of_holes (putPix_holes _ _ _ _ _) hb') (by simpa using ha) hn,
    hread a ha, hread' a (by simpa using ha), putPix_read_ne V m x' y' w a hb' ha hn]

theorem read_putPix_subByte (hs : V.depth.subByte = true) (hm : m.wf = true) (hb : m.backs (pixBytes V x y)) :
    (putPix V m x y v).read (pixAddr V x y).addr = overlay (m.read (pixAddr V x y).addr) (pixAddr V x y).mask
      (((v &&& ones V.depth.bits).setWidth 8) <<< (pixAddr V x y).shift) := by
  rw [putPix_subByte hs, Memory.read_write_self _ _ _ hm (hb _ (by simp [pixBytes_subByte hs])), packByte_eq_overlay]

/-- Two pixels of one byte can be written in either order. -/
theorem read_putPix_putPix_sameByte (hs : V.depth.subByte = true) (hm : m.wf = true) (hb : m.backs (pixBytes V x y))
    (hb' : m.backs (pixBytes V x' y')) (haddr : (pixAddr V x y).addr = (pixAddr V x' y').addr)
    (hmask : (pixAddr V x y).mask &&& (pixAddr V x' y').mask = 0) :
    (putPix V (putPix V m x y v) x' y' w).read (pixAddr V x y).addr =
      (putPix V (putPix V m x' y' w) x y v).read (pixAddr V x y).addr := by
  have hfirst := read_putPix_subByte (v := v) hs hm hb
  have hfirst' := read_putPix_subByte (v := w) hs hm hb'
  have hsecond := read_putPix_subByte (v := w) hs (putPix_wf V m x y v hm)
    (Memory.backs_of_holes (putPix_holes V m x y v) hb')
  have hsecond' := read_putPix_subByte (v := v) hs (putPix_wf V m x' y' w hm)
    (Memory.backs_of_holes (putPix_holes V m x' y' w) hb)
  rw [← haddr] at hfirst' hsecond
  rw [hsecond, hfirst, hsecond', hfirst', overlay_comm hmask]

/-- Two pixels that lie apart can be written in either order (20_memory R69). -/
theorem putPix_putPix_comm (hm : m.wf = true) (hb : m.backs (pixBytes V x y)) (hb' : m.backs (pixBytes V x' y'))
    (hapart : PixelsApart V V x y x' y') :
    putPix V (putPix V m x y v) x' y' w = putPix V (putPix V m x' y' w) x y v := by
  refine Memory.eq_of_read _ _ (putPix_wf _ _ _ _ _ (putPix_wf _ _ _ _ _ hm))
    (putPix_wf _ _ _ _ _ (putPix_wf _ _ _ _ _ hm)) (by simp only [putPix_holes]) fun a ha => ?_
  rw [putPix_unbacked, putPix_unbacked] at ha
  by_cases hn' : a ∉ pixBytes V x' y'
  · exact read_putPix_putPix_of_notMem hm hb hb' ha hn'
  by_cases hn : a ∉ pixBytes V x y
  · exact (read_putPix_putPix_of_notMem hm hb' hb ha hn).symm
  rcases hapart with hbytes | ⟨haddr, hs, -, hmask⟩
  · exact absurd (not_not.1 hn') (hbytes a (not_not.1 hn))
  · obtain rfl : a = (pixAddr V x y).addr := by simpa [pixBytes_subByte hs] using hn
    exact read_putPix_putPix_sameByte hs hm hb hb' haddr hmask

end

/-! ### Loops that visit the same pixels -/

/-- A loop whose rounds can change places gives the same memory in any order. -/
theorem foldl_eq_of_perm {α : Type} {P : Memory → Prop} {f : Memory → α → Memory} {l l' : List α} (h : l.Perm l')
    (hkeep : ∀ m, ∀ i ∈ l, P m → P (f m i))
    (hcomm : ∀ m, P m → ∀ i ∈ l, ∀ j ∈ l, i ≠ j → f (f m i) j = f (f m j) i) {m : Memory} (hm : P m) :
    l.foldl f m = l'.foldl f m := by
  induction h generalizing m with
  | nil => rfl
  | cons i _ ih =>
    exact ih (fun m' j hj => hkeep m' j (List.mem_cons_of_mem _ hj))
      (fun m' hm' j hj k hk => hcomm m' hm' j (List.mem_cons_of_mem _ hj) k (List.mem_cons_of_mem _ hk))
      (hkeep m i (by simp) hm)
  | swap i j t =>
    by_cases hij : j = i
    · rw [hij]
    · exact congrArg (t.foldl f) (hcomm m hm j (by simp) i (by simp) hij)
  | trans h₁ _ ih₁ ih₂ =>
    exact (ih₁ hkeep hcomm hm).trans (ih₂ (fun m' i hi => hkeep m' i (h₁.mem_iff.2 hi))
      (fun m' hm' i hi j hj => hcomm m' hm' i (h₁.mem_iff.2 hi) j (h₁.mem_iff.2 hj)) hm)

/-- Two rounds of a drawing loop can change places when neither changes the other's value. -/
theorem drawPix_comm {ι : Type} {V : View} {p : ι → Int × Int} {val : ι → Memory → Word} {m : Memory} {i j : ι}
    (hm : m.wf = true) (hi : m.backs (pixBytes V (p i).1 (p i).2)) (hj : m.backs (pixBytes V (p j).1 (p j).2))
    (hapart : PixelsApart V V (p i).1 (p i).2 (p j).1 (p j).2) (hval : val i (drawPix V p val m j) = val i m)
    (hval' : val j (drawPix V p val m i) = val j m) :
    drawPix V p val (drawPix V p val m i) j = drawPix V p val (drawPix V p val m j) i := by
  rw [drawPix, hval', drawPix.eq_def V p val (drawPix V p val m j), hval]
  exact putPix_putPix_comm hm hi hj hapart

/-! ### A rectangle in two parts -/

/-- `A` and `B` are the left and right, or the upper and lower, parts of `R` (46_pattern R234). -/
def Rect.Split (R A B : Rect) : Prop :=
  A.view = R.view ∧ B.view = R.view ∧ A.x0 = R.x0 ∧ A.y0 = R.y0 ∧
    (A.h = R.h ∧ B.h = R.h ∧ B.y0 = R.y0 ∧ B.x0 = R.x0 + A.w ∧ A.w + B.w = R.w ∨
      A.w = R.w ∧ B.w = R.w ∧ B.x0 = R.x0 ∧ B.y0 = R.y0 + A.h ∧ A.h + B.h = R.h)

theorem Rect.mem_points {R : Rect} {p : Int × Int} :
    p ∈ R.points ↔ R.x0 ≤ p.1 ∧ p.1 < R.x0 + R.w ∧ R.y0 ≤ p.2 ∧ p.2 < R.y0 + R.h := by
  obtain ⟨x, y⟩ := p
  rw [R.points_eq_map, List.mem_map]
  simp only [mem_rectCells, Rect.pixelAt, Rect.x, Rect.y, Prod.mk.injEq]
  constructor
  · rintro ⟨c, ⟨hw, hh⟩, rfl, rfl⟩
    omega
  · rintro ⟨hx, hxw, hy, hyh⟩
    exact ⟨((x - R.x0).toNat, (y - R.y0).toNat), by dsimp only; omega, by dsimp only; omega, by dsimp only; omega⟩

theorem Rect.points_nodup (R : Rect) : R.points.Nodup :=
  (rectCells_nodup R.w R.h false false).map R.pixelAt_injective

/-- The pixels of the parts are the pixels of the whole. -/
theorem Rect.Split.points_perm {R A B : Rect} (h : R.Split A B) : (A.points ++ B.points).Perm R.points := by
  obtain ⟨-, -, hx, hy, hsplit⟩ := h
  have hdisjoint : A.points.Disjoint B.points := fun p hpA hpB => by
    rw [Rect.mem_points] at hpA hpB
    omega
  refine (List.perm_ext_iff_of_nodup (A.points_nodup.append B.points_nodup hdisjoint) R.points_nodup).2 fun p => ?_
  rw [List.mem_append, Rect.mem_points, Rect.mem_points, Rect.mem_points]
  omega

theorem Rect.Split.inside {R A B : Rect} (h : R.Split A B) (hin : R.inside = true) :
    A.inside = true ∧ B.inside = true := by
  obtain ⟨hA, hB, hx, hy, hsplit⟩ := h
  have hpart : ∀ Q : Rect, Q.view = R.view → Q.w ≤ R.w → Q.h ≤ R.h → R.x0 ≤ Q.x0 → R.y0 ≤ Q.y0 →
      Q.x0 + Q.w ≤ R.x0 + R.w → Q.y0 + Q.h ≤ R.y0 + R.h → Q.inside = true := by
    intro Q hQ hw hh hx hy hxw hyh
    by_cases hempty : Q.w = 0 ∨ Q.h = 0
    · exact Rect.inside_of_empty hempty
    · rw [Rect.inside, View.rectInside_iff _ _ _ (by omega) (by omega)] at hin ⊢
      rw [hQ]
      omega
  exact ⟨hpart A hA (by omega) (by omega) (by omega) (by omega) (by omega) (by omega),
    hpart B hB (by omega) (by omega) (by omega) (by omega) (by omega) (by omega)⟩

/-! ### PATFILL -/

/-- The brush pixels of one pixel of a rectangle are among those that PATFILL reads for it. -/
theorem Regs.pixBytes_subset_brushBytes (r : Regs) {R : Rect} {p : Int × Int} (hp : p ∈ R.points) {W : View}
    (hW : W = (r.patImages R.view.depth).and ∨ W = (r.patImages R.view.depth).xor) :
    pixBytes W (r.brushPhase p.1 p.2).1 (r.brushPhase p.1 p.2).2 ⊆ r.brushBytes R := by
  rw [R.points_eq_map] at hp
  obtain ⟨c, hc, rfl⟩ := List.mem_map.1 hp
  refine fun a ha => List.mem_flatMap_of_mem hc (List.mem_append.2 ?_)
  rcases hW with rfl | rfl
  · exact .inl ha
  · exact .inr ha

/-- Memory is canonical and backed where PATFILL over `R` reads and writes, the pixels of `R` lie apart, and no brush byte
is a byte of `R` (46_pattern R234). -/
structure Regs.PatSeparate (r : Regs) (R : Rect) (m : Memory) : Prop where
  wf : m.wf = true
  apart : Apart R.view R.points
  backsRect : m.backs R.bytes
  backsBrush : m.backs (r.brushBytes R)
  disjoint : ∀ a ∈ r.brushBytes R, a ∉ R.bytes

theorem Rect.pixBytes_subset_of_mem_points {R : Rect} {p : Int × Int} (hp : p ∈ R.points) :
    pixBytes R.view p.1 p.2 ⊆ R.bytes := fun _ ha => by
  rw [R.bytes_eq_pixelBytes]
  exact List.mem_flatMap_of_mem hp ha

section
variable {r : Regs} {R : Rect} {m : Memory} {p q : Int × Int}

theorem Regs.PatSeparate.drawPix (h : r.PatSeparate R m) (val : Int × Int → Memory → Word) (p : Int × Int) :
    r.PatSeparate R (drawPix R.view id val m p) where
  wf := putPix_wf _ _ _ _ _ h.wf
  apart := h.apart
  backsRect := Memory.backs_of_holes (putPix_holes _ _ _ _ _) h.backsRect
  backsBrush := Memory.backs_of_holes (putPix_holes _ _ _ _ _) h.backsBrush
  disjoint := h.disjoint

theorem Regs.PatSeparate.backs_point (h : r.PatSeparate R m) (hp : p ∈ R.points) :
    m.backs (pixBytes R.view p.1 p.2) :=
  Memory.backs_mono (Rect.pixBytes_subset_of_mem_points hp) h.backsRect

/-- The brush pixels of a pixel of the rectangle are as they were when another pixel of it is written. -/
theorem Regs.PatSeparate.getPix_brush (h : r.PatSeparate R m) (hp : p ∈ R.points) (hq : q ∈ R.points) (v : Word)
    {W : View} (hW : W = (r.patImages R.view.depth).and ∨ W = (r.patImages R.view.depth).xor) :
    getPix W (putPix R.view m q.1 q.2 v) (r.brushPhase p.1 p.2).1 (r.brushPhase p.1 p.2).2 =
      getPix W m (r.brushPhase p.1 p.2).1 (r.brushPhase p.1 p.2).2 := by
  have hsub := r.pixBytes_subset_brushBytes hp hW
  exact getPix_putPix_apart _ _ _ _ _ _ _ v h.wf (h.backs_point hq) (Memory.backs_mono hsub h.backsBrush)
    (.inl fun a ha hbrush => h.disjoint a (hsub hbrush) (Rect.pixBytes_subset_of_mem_points hq ha))

/-- A pixel's new value depends on its own old value and the brush alone (46_pattern R234). -/
theorem Regs.PatSeparate.patValue_putPix (h : r.PatSeparate R m) (hp : p ∈ R.points) (hq : q ∈ R.points) (hne : q ≠ p)
    (v : Word) : r.patValue R.view p (putPix R.view m q.1 q.2 v) = r.patValue R.view p m := by
  have hown := getPix_putPix_apart _ _ _ _ _ _ _ v h.wf (h.backs_point hq) (h.backs_point hp) (h.apart q hq p hp hne)
  simp only [Regs.patValue, hown, h.getPix_brush hp hq v (.inl rfl), h.getPix_brush hp hq v (.inr rfl)]

theorem Regs.PatSeparate.drawPix_comm (h : r.PatSeparate R m) (hp : p ∈ R.points) (hq : q ∈ R.points) (hne : p ≠ q) :
    Machine.drawPix R.view id (r.patValue R.view) (Machine.drawPix R.view id (r.patValue R.view) m p) q =
      Machine.drawPix R.view id (r.patValue R.view) (Machine.drawPix R.view id (r.patValue R.view) m q) p :=
  Machine.drawPix_comm h.wf (h.backs_point hp) (h.backs_point hq) (h.apart p hp q hq hne)
    (h.patValue_putPix hp hq hne.symm _) (h.patValue_putPix hq hp hne _)

/-- Filling two rectangles whose pixels together are those of a third is filling the third. -/
theorem Regs.PatSeparate.patfillRun_patfillRun (h : r.PatSeparate R m) {A B : Rect} (hA : A.view = R.view)
    (hB : B.view = R.view) (hperm : (A.points ++ B.points).Perm R.points) :
    patfillRun r B (patfillRun r A m) = patfillRun r R m := by
  rw [patfillRun_eq_foldl_points, patfillRun_eq_foldl_points, patfillRun_eq_foldl_points, hA, hB, ← List.foldl_append]
  exact foldl_eq_of_perm hperm (fun _ p _ hm => hm.drawPix _ p)
    (fun _ hm p hp q hq hne => hm.drawPix_comm (hperm.mem_iff.1 hp) (hperm.mem_iff.1 hq) hne) h

end

/-! ### Two fills one after the other -/

/-- A state with another rectangle ends PATFILL with the fill of that rectangle, when it lies inside DST. -/
theorem exec_patfill_withRect {s : State} {V : View} (hV : s.regs.dst.view = some V) (hbr : ¬s.regs.brushEmpty)
    {x y w h : Word} (hin : ((withRect s x y w h).regs.dstRect V).inside = true) :
    exec .patfill (withRect s x y w h) = .next ((withRect s x y w h).complete s.res
      (patfillRun s.regs ((withRect s x y w h).regs.dstRect V) s.mem)) :=
  exec_patfill_inside (s := withRect s x y w h) hV hbr hin

/-- Two fills leave the memory of one when their rectangles lie inside DST and have the pixels of its rectangle. -/
theorem exec_patfill_parts {s t : State} {V : View} (hV : s.regs.dst.view = some V)
    (hsep : s.regs.PatSeparate (s.regs.dstRect V) s.mem) (hin : (s.regs.dstRect V).inside = true)
    (ht : exec .patfill s = .next t) {x y w h x' y' w' h' : Word}
    (hinA : ((withRect s x y w h).regs.dstRect V).inside = true)
    (hinB : ((withRect s x' y' w' h').regs.dstRect V).inside = true)
    (hperm : (((withRect s x y w h).regs.dstRect V).points ++ ((withRect s x' y' w' h').regs.dstRect V).points).Perm
      (s.regs.dstRect V).points) :
    ∃ t1 t2, exec .patfill (withRect s x y w h) = .next t1 ∧ exec .patfill (withRect t1 x' y' w' h') = .next t2 ∧
      t2.mem = t.mem := by
  by_cases hbr : s.regs.brushEmpty
  · obtain rfl := Host.Outcome.next.inj ((exec_patfill_param hV hbr).symm.trans ht)
    exact ⟨_, _, exec_patfill_param (s := withRect s x y w h) hV hbr,
      exec_patfill_param (s := withRect ((withRect s x y w h).raise .param) x' y' w' h') hV hbr, rfl⟩
  · obtain rfl := Host.Outcome.next.inj ((exec_patfill_inside hV hbr hin).symm.trans ht)
    exact ⟨_, _, exec_patfill_withRect hV hbr hinA,
      exec_patfill_withRect (s := (withRect s x y w h).complete _ _) hV hbr hinB,
      hsep.patfillRun_patfillRun rfl rfl hperm⟩

end Sys2Proof.Machine

namespace Sys2Proof.Claims

open Sys2Proof.Machine

/-- Settles O41: the rounds of PATFILL can change places, and the parts have the pixels of the whole. -/
theorem splitPatternFillIsSeamless : Obligations.SplitPatternFillIsSeamless := by
  rintro s t V R xb yb wa ha wb hb hm hV rfl hin hapart hR hbrush hdisj hsplit ht
  have hparts : (s.regs.dstRect V).Split ((withRect s s.regs.rectX s.regs.rectY wa ha).regs.dstRect V)
      ((withRect s xb yb wb hb).regs.dstRect V) := by
    refine ⟨rfl, rfl, rfl, rfl, hsplit.imp ?_ ?_⟩
    · rintro ⟨rfl, rfl, rfl, hx, hw⟩
      exact ⟨rfl, rfl, rfl, hx, hw⟩
    · rintro ⟨rfl, rfl, rfl, hy, hh⟩
      exact ⟨rfl, rfl, rfl, hy, hh⟩
  have hsep : s.regs.PatSeparate (s.regs.dstRect V) s.mem := ⟨hm, hapart, hR, hbrush, hdisj⟩
  have hperm := hparts.points_perm
  obtain ⟨hinA, hinB⟩ := hparts.inside hin
  obtain ⟨t1, t2, ht1, ht2, hmem⟩ := exec_patfill_parts hV hsep hin ht hinA hinB hperm
  obtain ⟨u1, u2, hu1, hu2, hmem'⟩ := exec_patfill_parts hV hsep hin ht hinB hinA (List.perm_append_comm.trans hperm)
  exact ⟨t1, t2, u1, u2, ht1, ht2, hmem, hu1, hu2, hmem'⟩

end Sys2Proof.Claims
end

section
/-! PROOFS. Row scaling: the two scan walks in closed form, the rows they cover with the endpoint constants, and the two
commands (47_scan R250 to R254). -/

namespace Sys2Proof.Machine

open Sys2Proof.Claims

/-! ### The walks in closed form -/

/-- The walk of STRETCHROW is a line walk whose major axis is the destination (47_scan R252). -/
theorem stretchWalk_eq_map_lineWalk (add1 add2 : Word) (si di : Int) (n : Nat) (sx dx : Int) (err : Word) :
    stretchWalk add1 add2 si di n sx dx err =
      (lineWalk add1 add2 false si di n sx dx err).map fun p => { sx := p.1, dx := p.2, new := true } := by
  induction n generalizing sx dx err with
  | zero => rfl
  | succ n ih =>
    rw [stretchWalk, lineWalk, List.map_cons, ih]
    by_cases h : 0 < err.toInt <;> simp [h]

/-- Step `k` of a stretch: `k` destination steps, and as many source steps as tests have passed. -/
theorem stretchWalk_eq_map (add1 add2 : Word) (si di : Int) (n : Nat) (sx dx : Int) (err : Word) :
    stretchWalk add1 add2 si di n sx dx err = (List.range n).map fun (k : Nat) =>
      { sx := sx + si * passes err add1 add2 k, dx := dx + di * k, new := true } := by
  rw [stretchWalk_eq_map_lineWalk, lineWalk_eq_map, List.map_map]
  rfl

/-- Whether step `k` of a shrink starts a run: the first as the walk is told, a later one when the test before it
passes (47_scan R253). -/
def startsRun (add1 add2 : Word) (new : Bool) (err : Word) : Nat → Bool
  | 0 => new
  | k + 1 => decide (0 < (errAt err add1 add2 k).toInt)

theorem startsRun_succ (add1 add2 : Word) (new : Bool) (err : Word) (k : Nat) :
    startsRun add1 add2 new err (k + 1) =
      startsRun add1 add2 (decide (0 < err.toInt)) (errAt err add1 add2 1) k := by
  cases k with
  | zero => rfl
  | succ k => rw [startsRun, startsRun, Nat.add_comm k 1, errAt_add]

theorem startsRun_true_eq (add1 add2 err : Word) (k : Nat) :
    startsRun add1 add2 true err k = (k = 0 || decide (0 < (errAt err add1 add2 (k - 1)).toInt)) := by
  cases k <;> rfl

/-- Step `k` of a shrink: `k` source steps, and as many destination steps as tests have passed. -/
theorem shrinkWalk_eq_map (add1 add2 : Word) (si di : Int) (n : Nat) (sx dx : Int) (new : Bool) (err : Word) :
    shrinkWalk add1 add2 si di n sx dx new err = (List.range n).map fun (k : Nat) =>
      { sx := sx + si * k, dx := dx + di * passes err add1 add2 k, new := startsRun add1 add2 new err k } := by
  induction n generalizing sx dx new err with
  | zero => rfl
  | succ n ih =>
    rw [shrinkWalk, ih, List.range_succ_eq_map, List.map_cons, List.map_map]
    congr 1
    · simp [passes, startsRun]
    · refine List.map_congr_left fun k _ => ?_
      have hpasses : passes err add1 add2 (k + 1) = (if 0 < err.toInt then 1 else 0) +
          passes (errAt err add1 add2 1) add1 add2 k := by
        rw [Nat.add_comm k 1, passes_add, passes_succ]
        exact congrArg (· + _) (Nat.zero_add _)
      rw [Function.comp_apply, Nat.succ_eq_add_one, startsRun_succ, hpasses, errAt, errAt]
      by_cases h : 0 < err.toInt <;> simp [h, mul_add, add_assoc, add_comm (si * (k : Int))]

/-! ### The rows a walk covers -/

section
variable (e0 add1 add2 : Word)

theorem passes_monotone : Monotone (passes e0 add1 add2) :=
  monotone_nat_of_le_succ fun k => passes_succ e0 add1 add2 k ▸ Nat.le_add_right _ _

/-- The runs start at the counts 0, 1, 2 and so on, each once. -/
theorem passes_at_run_starts (n : Nat) :
    ((List.range (n + 1)).filter (startsRun add1 add2 true e0)).map (passes e0 add1 add2) =
      List.range (passes e0 add1 add2 n + 1) := by
  induction n with
  | zero => rfl
  | succ n ih =>
    rw [List.range_succ, List.filter_append, List.map_append, ih, List.filter_singleton, startsRun, passes_succ]
    by_cases h : 0 < (errAt e0 add1 add2 n).toInt
    · simp [h, passes_succ, List.range_succ]
    · simp [h]

/-- The count of passed tests takes every value up to its last. -/
theorem exists_passes_eq_iff (n m : Nat) : (∃ k < n + 1, passes e0 add1 add2 k = m) ↔ m ≤ passes e0 add1 add2 n := by
  constructor
  · rintro ⟨k, hk, rfl⟩
    exact passes_monotone _ _ _ (Nat.lt_succ_iff.1 hk)
  · intro hm
    have hmem := List.mem_range.2 (Nat.lt_succ_iff.2 hm)
    rw [← passes_at_run_starts, List.mem_map] at hmem
    obtain ⟨k, hk, rfl⟩ := hmem
    exact ⟨k, List.mem_range.1 (List.mem_of_mem_filter hk), rfl⟩

/-- The minor column of a walk never steps back. -/
theorem minorColumn_pairwise (v : Int) (n : Nat) :
    ((List.range n).map fun k => v + passes e0 add1 add2 k).Pairwise (· ≤ ·) := by
  refine List.pairwise_map.2 (List.pairwise_lt_range.imp fun hlt => ?_)
  exact Int.add_le_add_left (Int.ofNat_le.2 (passes_monotone _ _ _ hlt.le)) v

/-- The minor column of a walk visits every column from its first to its last. -/
theorem mem_minorColumn_iff (v : Int) (n : Nat) (j : Int) :
    (j ∈ (List.range (n + 1)).map fun k => v + passes e0 add1 add2 k) ↔
      v ≤ j ∧ j < v + (passes e0 add1 add2 n + 1 : Nat) := by
  simp only [List.mem_map, List.mem_range]
  constructor
  · rintro ⟨k, hk, rfl⟩
    have hle := passes_monotone e0 add1 add2 (Nat.lt_succ_iff.1 hk)
    omega
  · rintro ⟨hlo, hhi⟩
    obtain ⟨k, hk, hm⟩ := (exists_passes_eq_iff e0 add1 add2 n (j - v).toNat).2 (by omega)
    exact ⟨k, hk, by omega⟩

end

/-! ### The two commands, for any walk and any step -/

/-- Surfaces of different formats have different depths (10_state R43). -/
theorem Surface.depth_ne_of_format_ne {S T : Surface} {V W : View} (hV : S.view = some V) (hW : T.view = some W)
    (h : S.format ≠ T.format) : V.depth ≠ W.depth := fun e =>
  h (depthOf_inj _ _ _ (Surface.view_depth hV) (e ▸ Surface.view_depth hW))

/-- What both scan commands do: the checks on a walk, then its steps in order (47_scan R252, R253). -/
def execScan (s : State) (walk : List ScanStep) (step : Scan → Memory → ScanStep → Memory) :
    Host.Outcome State Fault Refusal :=
  .next (s.finish ((scanChecks s.regs walk).ending s.res s.mem fun X => X.steps.foldl (step X) s.mem))

theorem exec_stretchrow (mode : ScanMode) (keep sneg dneg : Bool) (s : State) :
    exec (.stretchrow mode keep sneg dneg) s = execScan s (s.regs.stretchSteps sneg dneg) (stretchStep mode keep) := rfl

theorem exec_shrinkrow (mode : ScanMode) (keep sneg dneg : Bool) (s : State) :
    exec (.shrinkrow mode keep sneg dneg) s = execScan s (s.regs.shrinkSteps sneg dneg) (shrinkStep mode keep) := rfl

/-- The two views, the rows and the walk that the registers give a scan command (47_scan R250). -/
def Regs.scan (r : Regs) (D S : View) (walk : List ScanStep) : Scan :=
  { src := S, dst := D, sy := r.srcY.toInt, dy := r.rectY.toInt, steps := walk }

section
variable {s : State} {walk : List ScanStep} {step : Scan → Memory → ScanStep → Memory}

/-- The null condition of both commands (47_scan R252, R253). -/
theorem execScan_null
    (h : formatNull s.regs.dst.format ∨ formatNull s.regs.src.format ∨ s.regs.src.format ≠ s.regs.dst.format) :
    execScan s walk step = .next (s.nullEnd s.res) := by
  have hchecks : scanChecks s.regs walk = .null := by
    unfold scanChecks
    cases hD : s.regs.dst.view with
    | none => rfl
    | some D =>
      cases hS : s.regs.src.view with
      | none => rfl
      | some S =>
        have hformat : s.regs.src.format ≠ s.regs.dst.format :=
          (h.resolve_left (Surface.not_formatNull_of_view hD)).resolve_left (Surface.not_formatNull_of_view hS)
        exact if_pos (Surface.depth_ne_of_format_ne hS hD hformat)
  rw [execScan, hchecks]
  rfl

variable {D S : View} (hD : s.regs.dst.view = some D) (hS : s.regs.src.view = some S) (hd : S.depth = D.depth)
include hD hS hd

theorem scanChecks_view : scanChecks s.regs walk =
    if s.regs.length.toNat = 0 then .empty
    else if (s.regs.scan D S walk).inside then .go (s.regs.scan D S walk) else .raise .bounds := by
  rw [scanChecks, hD, hS]
  exact if_neg (not_not.2 hd)

theorem execScan_empty (h : s.regs.length = 0) : execScan s walk step = .next (s.complete s.res s.mem) := by
  have hlen : s.regs.length.toNat = 0 := congrArg BitVec.toNat h
  rw [execScan, scanChecks_view hD hS hd, if_pos hlen]
  rfl

theorem scanChecks_of_length (h : s.regs.length ≠ 0) : scanChecks s.regs walk =
    if (s.regs.scan D S walk).inside then .go (s.regs.scan D S walk) else .raise .bounds := by
  have hlen : s.regs.length.toNat ≠ 0 := fun hzero => h (BitVec.eq_of_toNat_eq hzero)
  rw [scanChecks_view hD hS hd, if_neg hlen]

theorem execScan_outside (h : s.regs.length ≠ 0)
    (hout : ∃ k ∈ walk, ¬(S.inside k.sx s.regs.srcY.toInt = true ∧ D.inside k.dx s.regs.rectY.toInt = true)) :
    execScan s walk step = .next (s.raise .bounds) := by
  have hinside : ¬(s.regs.scan D S walk).inside = true := by
    simpa [Scan.inside, Regs.scan] using hout
  rw [execScan, scanChecks_of_length hD hS hd h, if_neg hinside]
  rfl

theorem execScan_inside (h : s.regs.length ≠ 0)
    (hin : ∀ k ∈ walk, S.inside k.sx s.regs.srcY.toInt = true ∧ D.inside k.dx s.regs.rectY.toInt = true) :
    execScan s walk step = .next (s.complete s.res (walk.foldl (step (s.regs.scan D S walk)) s.mem)) := by
  have hinside : (s.regs.scan D S walk).inside = true := by
    simpa [Scan.inside, Regs.scan] using hin
  rw [execScan, scanChecks_of_length hD hS hd h, if_pos hinside]
  rfl

end

/-! ### The words and the steps of each command -/

/-- A word of STRETCHROW or SHRINKROW whose SMODE is not 0, 1 or 2 holds a reserved field (30_encoding R101, R106). -/
theorem reservedField_of_smode {w : Word} (hop : w.extractLsb' 0 8 = 0x70 ∨ w.extractLsb' 0 8 = 0x71)
    (h : w.extractLsb' 22 2 ∉ [(0 : BitVec 2), 1, 2]) : reservedField w :=
  .inr (.inl ⟨by simpa using hop, bitVec2_eq_three _ h⟩)

theorem placed_smode (mode : ScanMode) : placed mode.bits 22 = Claims.smodeField mode := by
  cases mode <;> rfl

theorem decode_stretchrow (mode : ScanMode) (keep sneg dneg : Bool) :
    decode (0x00000070 ||| Claims.smodeField mode ||| flag keep 24 ||| flag sneg 25 ||| flag dneg 26) =
      .ok (.stretchrow mode keep sneg dneg) := by
  refine decode_of_encode rfl ?_
  simp only [encode, Instr.fieldBits, placed_smode, placedBit_eq_flag, ← BitVec.or_assoc]
  rfl

theorem decode_shrinkrow (mode : ScanMode) (keep sneg dneg : Bool) :
    decode (0x00000071 ||| Claims.smodeField mode ||| flag keep 24 ||| flag sneg 25 ||| flag dneg 26) =
      .ok (.shrinkrow mode keep sneg dneg) := by
  refine decode_of_encode rfl ?_
  simp only [encode, Instr.fieldBits, placed_smode, placedBit_eq_flag, ← BitVec.or_assoc]
  rfl

/-- What a step of STRETCHROW writes, in each mode (47_scan R252). -/
theorem stretchStep_eq (mode : ScanMode) (keep : Bool) (X : Scan) (m : Memory) (k : ScanStep) :
    stretchStep mode keep X m k = putPix X.dst m k.dx X.dy (match mode, keep with
      | .or, true => getPix X.dst m k.dx X.dy ||| getPix X.src m k.sx X.sy
      | .and, true => getPix X.dst m k.dx X.dy &&& getPix X.src m k.sx X.sy
      | _, _ => getPix X.src m k.sx X.sy) := by
  cases mode with
  | replace => rfl
  | or | and => cases keep <;> rfl

/-- What a step of SHRINKROW writes, in each mode: a run that keeps nothing starts at `Init` (47_scan R251, R253). -/
theorem shrinkStep_eq (mode : ScanMode) (keep : Bool) (X : Scan) (m : Memory) (k : ScanStep) :
    shrinkStep mode keep X m k = putPix X.dst m k.dx X.dy (match mode with
      | .replace => getPix X.src m k.sx X.sy
      | .or => (if k.new && !keep then 0 else getPix X.dst m k.dx X.dy) ||| getPix X.src m k.sx X.sy
      | .and =>
        (if k.new && !keep then ones X.dst.depth.bits else getPix X.dst m k.dx X.dy) &&& getPix X.src m k.sx X.sy) := by
  cases mode with
  | replace => rfl
  | or | and => cases h : k.new && !keep <;> simp only [shrinkStep, h] <;> rfl

end Sys2Proof.Machine

namespace Sys2Proof.Claims

open Sys2Proof.Machine

/-- Settles O43: the walks as maps over their steps; only a shrink's first step starts a run untested. -/
theorem scanWalksInClosedForm : Obligations.ScanWalksInClosedForm := by
  rintro r sneg dneg n si di rfl rfl rfl
  refine ⟨stretchWalk_eq_map _ _ _ _ _ _ _ _, (shrinkWalk_eq_map _ _ _ _ _ _ _ _ _).trans ?_⟩
  simp only [startsRun_true_eq]
  rfl

/-- Settles O46: the constants are those of a line, so `dy` tests pass; their count takes every value up to `dy`, and a
new one exactly where a run starts. -/
theorem scanConstantsCoverBothRows : Obligations.ScanConstantsCoverBothRows := by
  rintro ls ld dx dy x0 y0 e0 add1 add2 hls hld hdx rfl rfl rfl
  refine ⟨?_, ?_⟩
  · rintro walk hle hdx' hdy rfl
    obtain rfl : ld = dx + 1 := by omega
    have hlast := bresenhamPasses_dx (dx := dx) (dy := dy) (by omega) hdx
    obtain rfl : ls = bresenhamPasses dx dy dx + 1 := by omega
    simp only [stretchWalk_eq_map, List.map_map, Function.comp_def, one_mul]
    exact ⟨trivial, minorColumn_pairwise _ _ _ _ _, mem_minorColumn_iff _ _ _ _ _⟩
  · rintro walk hle hdx' hdy rfl
    obtain rfl : ls = dx + 1 := by omega
    have hlast := bresenhamPasses_dx (dx := dx) (dy := dy) (by omega) hdx
    obtain rfl : ld = bresenhamPasses dx dy dx + 1 := by omega
    simp only [shrinkWalk_eq_map, List.filter_map, List.map_map, Function.comp_def, one_mul]
    refine ⟨trivial, minorColumn_pairwise _ _ _ _ _, mem_minorColumn_iff _ _ _ _ _, ?_⟩
    rw [bresenhamPasses, ← passes_at_run_starts, List.map_map]
    rfl

/-- Settles O44: the outcomes of its checks, and its pixels as one pass over the walk. -/
theorem stretchrowRepeatsPixels : Obligations.StretchrowRepeatsPixels := by
  refine ⟨decode_stretchrow, otherFieldsAreParam_of_reservedField (op := .stretchrow) rfl fun _ hop =>
    reservedField_of_smode (.inl hop), fun mode keep sneg dneg s => ?_⟩
  rw [exec_stretchrow]
  refine ⟨execScan_null, ?_⟩
  rintro D S sy dy walk hD hS hd rfl rfl rfl
  refine ⟨execScan_empty hD hS hd, execScan_outside hD hS hd, fun hn hin => ?_⟩
  rw [execScan_inside hD hS hd hn hin, funext₂ (stretchStep_eq mode keep _)]
  rfl

/-- Settles O45: the outcomes of its checks, and its pixels as one pass over the walk. -/
theorem shrinkrowCombinesPixels : Obligations.ShrinkrowCombinesPixels := by
  refine ⟨decode_shrinkrow, otherFieldsAreParam_of_reservedField (op := .shrinkrow) rfl fun _ hop =>
    reservedField_of_smode (.inr hop), fun mode keep sneg dneg s => ?_⟩
  rw [exec_shrinkrow]
  refine ⟨execScan_null, ?_⟩
  rintro D S sy dy walk hD hS hd rfl rfl rfl
  refine ⟨execScan_empty hD hS hd, execScan_outside hD hS hd, fun hn hin => ?_⟩
  rw [execScan_inside hD hS hd hn hin, funext₂ (shrinkStep_eq mode keep _)]
  rfl

end Sys2Proof.Claims
end

section
/-! PROOFS. How commands end: the engine's turn on a word, the exact null condition of each command's checks, and the
ending of every command against the tables of null no-ops and of errors (60_exceptions R273, R274, R277, R279). -/

namespace Sys2Proof.Machine

open Sys2Proof.Claims

/-! ### The engine's turn on a word -/

/-- A running command that nothing raced is what the word in CMD says, and nothing is added around it. -/
theorem State.engineTurn_unraced {s : State} (hb : s.status.busy = true) (hr : s.raced = []) :
    s.engineTurn = s.runCommand := by
  simp only [State.engineTurn, hb, hr, if_true]

theorem State.runCommand_of_decode_ok {s : State} {i : Instr} (h : decode s.cmd = .ok i) : s.runCommand = exec i s := by
  rw [State.runCommand, h]

theorem State.runCommand_of_decode_error {s : State} {e : CmdError} (h : decode s.cmd = .error e) :
    s.runCommand = .next (s.raise e) := by
  rw [State.runCommand, h]

/-- An engine event in the host's sequence is the engine's turn in the state it leaves. -/
theorem step_engine {s : State} {rest : List HostEvent} (h : s.host = .engine :: rest) :
    step s = (taken s rest).engineTurn := step_of_host_cons h

/-! ### When the checks of a command find a null surface -/

theorem Surface.view_eq_none_iff (S : Surface) : S.view = none ↔ formatNull S.format := by
  refine ⟨fun hview => by_contra fun h => ?_, Surface.view_of_formatNull⟩
  obtain ⟨V, hV, -⟩ := Surface.view_of_not_formatNull h
  simp [hview] at hV

theorem Surface.depth_eq_iff {S T : Surface} {V W : View} (hV : S.view = some V) (hW : T.view = some W) :
    V.depth = W.depth ↔ S.format = T.format := by
  refine ⟨fun h => by_contra fun hne => Surface.depth_ne_of_format_ne hV hW hne h, fun h => ?_⟩
  have hdepth : some V.depth = some W.depth := by rw [← Surface.view_depth hV, ← Surface.view_depth hW, h]
  exact Option.some.inj hdepth

theorem checkRect_ne_null (R : Rect) : checkRect R ≠ .null := by
  rcases checkRect_cases R with ⟨-, h⟩ | ⟨-, -, h⟩ | ⟨-, -, h⟩ <;> simp [h]

theorem checkPair_ne_null (D S : Rect) : checkPair D S ≠ .null := by
  unfold checkPair
  split
  · simp
  · split <;> simp

theorem pointChecks_eq_null_iff (S : Surface) (r : Regs) : pointChecks S r = .null ↔ formatNull S.format := by
  rw [← Surface.view_eq_none_iff, pointChecks]
  cases S.view with
  | none => simp
  | some V => dsimp only; split <;> simp

theorem solidfillChecks_eq_null_iff (r : Regs) : solidfillChecks r = .null ↔ formatNull r.dst.format := by
  rw [← Surface.view_eq_none_iff, solidfillChecks]
  cases r.dst.view with
  | none => simp
  | some V => simp [checkRect_ne_null]

theorem solidlineChecks_eq_null_iff (xmaj xneg yneg : Bool) (r : Regs) :
    solidlineChecks xmaj xneg yneg r = .null ↔ formatNull r.dst.format := by
  rw [← Surface.view_eq_none_iff]
  refine ⟨fun h => by_contra fun hview => ?_, solidlineChecks_null⟩
  obtain ⟨V, hV⟩ := Option.ne_none_iff_exists'.1 hview
  by_cases hlen : r.length.toNat = 0
  · simp [solidlineChecks_empty hV hlen] at h
  · rw [solidlineChecks_of_length hV hlen] at h
    split at h <;> cases h

theorem copyrectChecks_eq_null_iff (r : Regs) : copyrectChecks r = .null ↔
    formatNull r.dst.format ∨ formatNull r.src.format ∨ r.src.format ≠ r.dst.format := by
  refine ⟨fun hnull => by_contra fun h => ?_, copyrectChecks_null⟩
  simp only [not_or, not_not] at h
  obtain ⟨hdst, hsrc, hsame⟩ := h
  obtain ⟨D, hD, -⟩ := Surface.view_of_not_formatNull hdst
  obtain ⟨S, hS, -⟩ := Surface.view_of_not_formatNull hsrc
  rw [copyrectChecks_view hD hS ((Surface.depth_eq_iff hS hD).2 hsame)] at hnull
  exact checkPair_ne_null _ _ hnull

theorem maskfillChecks_eq_null_iff (r : Regs) :
    maskfillChecks r = .null ↔ formatNull r.dst.format ∨ r.src.format ≠ 1 := by
  refine ⟨fun hnull => by_contra fun h => ?_, maskfillChecks_null⟩
  simp only [not_or, not_not] at h
  obtain ⟨hdst, hmono⟩ := h
  obtain ⟨D, hD, -⟩ := Surface.view_of_not_formatNull hdst
  obtain ⟨S, hS, -⟩ := Surface.view_of_not_formatNull (S := r.src) (by rw [hmono, formatNull]; decide)
  rw [maskfillChecks_view hD hS ((depth_eq_bpp1_iff hS).2 hmono)] at hnull
  exact checkPair_ne_null _ _ hnull

theorem scanChecks_eq_null_iff (r : Regs) (walk : List ScanStep) : scanChecks r walk = .null ↔
    formatNull r.dst.format ∨ formatNull r.src.format ∨ r.src.format ≠ r.dst.format := by
  unfold scanChecks
  cases hD : r.dst.view with
  | none => simp [(Surface.view_eq_none_iff _).1 hD]
  | some D =>
    cases hS : r.src.view with
    | none => simp [(Surface.view_eq_none_iff _).1 hS]
    | some S =>
      simp only [Surface.not_formatNull_of_view hD, Surface.not_formatNull_of_view hS, false_or, ne_eq,
        ← Surface.depth_eq_iff hS hD]
      by_cases hd : S.depth = D.depth
      · simp only [hd, not_true_eq_false, if_false, iff_false]
        split
        · simp
        · split <;> simp
      · simp [hd]

/-! ### When the checks of DCONV1 and PATFILL end as a null no-op or in PARAM -/

/-- DCONV1's checks in order: its null condition, then SRC's channel widths, then the rectangles (45_dither R222). -/
theorem dconv1Checks_cases (r : Regs) :
    ((r.dst.format ≠ 1 ∨ ¬formatBitfield r.src.format) ∧ dconv1Checks r = .null) ∨
      ((r.dst.format = 1 ∧ formatBitfield r.src.format) ∧ wideChannel r.src ∧ dconv1Checks r = .raise .param) ∨
      ((r.dst.format = 1 ∧ formatBitfield r.src.format) ∧ ¬wideChannel r.src ∧
        ∃ D S, dconv1Checks r = checkPair D S) := by
  by_cases hnull : r.dst.format ≠ 1 ∨ ¬formatBitfield r.src.format
  · exact .inl ⟨hnull, dconv1Checks_null hnull⟩
  · simp only [not_or, not_not] at hnull
    obtain ⟨hd, hs⟩ := hnull
    have hnotNull : ∀ f : BitVec 3, f = 1 ∨ formatBitfield f → ¬formatNull f := by
      unfold formatBitfield formatNull
      decide
    obtain ⟨D, hD, -⟩ := Surface.view_of_not_formatNull (hnotNull _ (.inl hd))
    obtain ⟨S, hS, -⟩ := Surface.view_of_not_formatNull (hnotNull _ (.inr hs))
    by_cases hw : wideChannel r.src
    · exact .inr (.inl ⟨⟨hd, hs⟩, hw, dconv1Checks_wide hD hS hd hs hw⟩)
    · exact .inr (.inr ⟨⟨hd, hs⟩, hw, _, _, dconv1Checks_fits hD hS hd hs hw⟩)

/-- PATFILL's checks in order: a null DST, then an empty brush, then the rectangle (46_pattern R233). -/
theorem patfillChecks_cases (r : Regs) :
    (formatNull r.dst.format ∧ patfillChecks r = .null) ∨
      (¬formatNull r.dst.format ∧ r.brushEmpty ∧ patfillChecks r = .raise .param) ∨
      (¬formatNull r.dst.format ∧ ¬r.brushEmpty ∧ ∃ R, patfillChecks r = checkRect R) := by
  by_cases hnull : formatNull r.dst.format
  · exact .inl ⟨hnull, by rw [patfillChecks, Surface.view_of_formatNull hnull]⟩
  · obtain ⟨V, hV, -⟩ := Surface.view_of_not_formatNull hnull
    by_cases hbr : r.brushEmpty
    · exact .inr (.inl ⟨hnull, hbr, patfillChecks_param hV hbr⟩)
    · exact .inr (.inr ⟨hnull, hbr, _, patfillChecks_brush hV hbr⟩)

theorem Regs.brushEmpty_iff (r : Regs) : r.brushEmpty ↔ r.brW = 0 ∨ r.brH = 0 := by
  simp [Regs.brushEmpty, BitVec.toNat_eq]

/-! ### An ending against the tables -/

/-- The ending is the one that the tables of 60_exceptions R279, R273 and R274 allow `i` with registers `r`: a null
no-op, PARAM, or neither, and BOUNDS from the ten commands only. -/
def Ending.Follows (e : Ending) (i : Instr) (r : Regs) : Prop :=
  match e with
  | .complete _ _ => ¬nullCondition i r ∧ ¬paramCause i r
  | .nullop _ => nullCondition i r ∧ ¬paramCause i r
  | .raise .param => ¬nullCondition i r ∧ paramCause i r
  | .raise .bounds => ¬nullCondition i r ∧ ¬paramCause i r ∧ i.opcode ∈ boundsCommands
  | .raise .badop | .raise .rsvd => False

/-- NULLOP rises exactly with the null condition (60_exceptions R278, R279). -/
theorem Ending.Follows.nullop_iff {e : Ending} {i : Instr} {s : State} (h : e.Follows i s.regs)
    (hs : s.status.nullop = false) : (s.finish e).status.nullop = true ↔ nullCondition i s.regs := by
  cases e with
  | complete res mem => simpa [hs] using h.1
  | nullop res => simpa using h.1
  | raise x =>
    cases x with
    | badop | rsvd => exact h.elim
    | param => simpa [hs] using h.1
    | bounds => simpa [hs] using h.1

/-- What ERR and ERRCODE say of an ending (60_exceptions R273 to R275). -/
theorem Ending.Follows.errcode {e : Ending} {i : Instr} {s : State} (h : e.Follows i s.regs)
    (hs : s.status.err = false) :
    ((s.finish e).status.err = true → (s.finish e).status.errcode = 3 ∨ (s.finish e).status.errcode = 4) ∧
      ((s.finish e).status.err = true ∧ (s.finish e).status.errcode = 3 ↔ paramCause i s.regs) ∧
      ((s.finish e).status.err = true ∧ (s.finish e).status.errcode = 4 → i.opcode ∈ boundsCommands) := by
  cases e with
  | complete res mem => simpa [hs] using h.2
  | nullop res => simpa [hs] using h.2
  | raise x =>
    cases x with
    | badop | rsvd => exact h.elim
    | param => simpa [errorCode] using h.2
    | bounds => simpa [errorCode] using h.2

section
variable {α : Type} {c : Checked α} {i : Instr} {r : Regs} {res : Results} {mem : Memory} {run : α → Memory}

/-- Past the null condition and PARAM, checks that raise BOUNDS at most end as the tables allow one of the ten
commands. -/
theorem Checked.ending_follows_of_ne_null (hc : c ≠ .null) (hraises : ∀ x, c = .raise x → x = .bounds)
    (hn : ¬nullCondition i r) (hp : ¬paramCause i r) (hb : i.opcode ∈ boundsCommands) :
    (c.ending res mem run).Follows i r := by
  cases c with
  | null => exact absurd rfl hc
  | empty | go a => exact ⟨hn, hp⟩
  | raise x =>
    obtain rfl := hraises x rfl
    exact ⟨hn, hp, hb⟩

/-- The same for a command without a PARAM cause, whose checks find the null condition. -/
theorem Checked.ending_follows_of_null_iff (hnull : c = .null ↔ nullCondition i r)
    (hraises : ∀ x, c = .raise x → x = .bounds) (hp : ¬paramCause i r) (hb : i.opcode ∈ boundsCommands) :
    (c.ending res mem run).Follows i r := by
  by_cases hc : c = .null
  · rw [hc]
    exact ⟨hnull.1 hc, hp⟩
  · exact Checked.ending_follows_of_ne_null hc hraises (mt hnull.2 hc) hp hb

end

/-! ### The commands with a PARAM cause or an ending of their own -/

/-- PIX2RGB and RGB2PIX on their surface: null unless bitfield, then PARAM on a wide channel (41_codec R127, R128). -/
theorem Surface.conversionEnding_follows {S : Surface} {i : Instr} {s : State} (val : Depth → Word)
    (hn : nullCondition i s.regs ↔ ¬formatBitfield S.format)
    (hp : paramCause i s.regs ↔ formatBitfield S.format ∧ wideChannel S) :
    (S.conversionEnding s val).Follows i s.regs := by
  by_cases hbit : formatBitfield S.format
  · obtain ⟨d, hd⟩ := Surface.bitfieldDepth_of_formatBitfield hbit
    have hnotNull : ¬nullCondition i s.regs := fun h => hn.1 h hbit
    by_cases hw : wideChannel S
    · rw [Surface.conversionEnding_wide hd hw]
      exact ⟨hnotNull, hp.2 ⟨hbit, hw⟩⟩
    · rw [Surface.conversionEnding_fits hd hw]
      exact ⟨hnotNull, fun h => hw (hp.1 h).2⟩
  · rw [Surface.conversionEnding_null (Surface.bitfieldDepth_eq_none hbit)]
    exact ⟨hn.2 hbit, fun h => hbit (hp.1 h).1⟩

theorem paramCause_pix2rgb (surf : Surf) (r : Regs) : paramCause (.pix2rgb surf) r ↔
    formatBitfield (r.surface surf).format ∧ wideChannel (r.surface surf) := by
  simp [paramCause, Instr.opcode]

theorem paramCause_rgb2pix (surf : Surf) (r : Regs) : paramCause (.rgb2pix surf) r ↔
    formatBitfield (r.surface surf).format ∧ wideChannel (r.surface surf) := by
  simp [paramCause, Instr.opcode]

theorem dconv1Checks_follows (pad : Bool) (r : Regs) (res : Results) (mem : Memory) (run : RectPair → Memory) :
    ((dconv1Checks r).ending res mem run).Follows (.dconv1 pad) r := by
  rcases dconv1Checks_cases r with ⟨hnull, h⟩ | ⟨⟨hd, hs⟩, hw, h⟩ | ⟨⟨hd, hs⟩, hw, D, S, h⟩ <;> rw [h]
  · exact ⟨hnull, fun ⟨hd, hs, _⟩ => hnull.elim (· hd) (· hs)⟩
  · exact ⟨fun hnull => hnull.elim (· hd) (· hs), hd, hs, hw⟩
  · exact Checked.ending_follows_of_ne_null (checkPair_ne_null D S) (checkPair_raises D S)
      (fun hnull => hnull.elim (· hd) (· hs)) (fun ⟨_, _, h⟩ => hw h) (of_decide_eq_true rfl)

theorem patfillChecks_follows (r : Regs) (res : Results) (mem : Memory) (run : Rect → Memory) :
    ((patfillChecks r).ending res mem run).Follows .patfill r := by
  rcases patfillChecks_cases r with ⟨hnull, h⟩ | ⟨hnull, hbr, h⟩ | ⟨hnull, hbr, R, h⟩ <;> rw [h]
  · exact ⟨hnull, fun ⟨hview, _⟩ => hview hnull⟩
  · exact ⟨hnull, hnull, r.brushEmpty_iff.1 hbr⟩
  · exact Checked.ending_follows_of_ne_null (checkRect_ne_null R) (checkRect_raises R) hnull
      (fun ⟨_, h⟩ => hbr (r.brushEmpty_iff.2 h)) (of_decide_eq_true rfl)

/-! ### Every command -/

/-- Every command comes down to an ending that the tables allow it. -/
theorem exec_follows (i : Instr) (s : State) : ∃ e, exec i s = .next (s.finish e) ∧ e.Follows i s.regs := by
  cases i with
  | nop | ropcodes rop | ropmask rop | ropapply | ropapplym | ropsrc rop | unpack depth | pack depth | dthresh msz
  | dcmp msz | dmono | quant5 => exact ⟨_, rfl, id, id⟩
  | extract =>
    by_cases hw : 8 < (Chan.ofWord s.regs.opb).width.toNat
    · exact ⟨.raise .param, exec_extract_wide hw, id, hw⟩
    · exact ⟨.complete _ _, exec_extract_fits (not_lt.1 hw), id, hw⟩
  | insert =>
    by_cases hw : 8 < (Chan.ofWord s.regs.opb).width.toNat
    · exact ⟨.raise .param, exec_insert_wide hw, id, hw⟩
    · exact ⟨.complete _ _, exec_insert_fits (not_lt.1 hw), id, hw⟩
  | pix2rgb surf =>
    exact ⟨_, exec_pix2rgb surf s, Surface.conversionEnding_follows _ Iff.rfl (paramCause_pix2rgb surf _)⟩
  | rgb2pix surf =>
    exact ⟨_, exec_rgb2pix surf s, Surface.conversionEnding_follows _ Iff.rfl (paramCause_rgb2pix surf _)⟩
  | pixaddr surf =>
    cases hV : (s.regs.surface surf).view with
    | none => exact ⟨.nullop _, exec_pixaddr_null hV, (Surface.view_eq_none_iff _).1 hV, id⟩
    | some V => exact ⟨.complete _ _, exec_pixaddr_view hV, Surface.not_formatNull_of_view hV, id⟩
  | getpixel surf =>
    have hnull := pointChecks_eq_null_iff (s.regs.surface surf) s.regs
    have hraises := pointChecks_raises (s.regs.surface surf) s.regs
    refine ⟨_, rfl, ?_⟩
    cases h : pointChecks (s.regs.surface surf) s.regs with
    | null => exact ⟨hnull.1 h, id⟩
    | raise x =>
      obtain rfl := hraises x h
      exact ⟨mt hnull.2 (by simp [h]), id, of_decide_eq_true rfl⟩
    | empty | go p => exact ⟨mt hnull.2 (by simp [h]), id⟩
  | putpixel rop msrc =>
    exact ⟨_, rfl, Checked.ending_follows_of_null_iff (pointChecks_eq_null_iff _ _) (pointChecks_raises _ _) id
      (of_decide_eq_true rfl)⟩
  | dconv1 pad => exact ⟨_, exec_dconv1 pad s, dconv1Checks_follows pad _ _ _ _⟩
  | solidfill rop msrc =>
    exact ⟨_, exec_solidfill rop msrc s, Checked.ending_follows_of_null_iff (solidfillChecks_eq_null_iff _)
      (solidfillChecks_raises _) id (of_decide_eq_true rfl)⟩
  | solidline rop msrc xmajor xneg yneg =>
    exact ⟨_, exec_solidline rop msrc xmajor xneg yneg s,
      Checked.ending_follows_of_null_iff (solidlineChecks_eq_null_iff _ _ _ _) (solidlineChecks_raises _ _ _ _) id
        (of_decide_eq_true rfl)⟩
  | copyrect rop revx revy =>
    exact ⟨_, exec_copyrect rop revx revy s, Checked.ending_follows_of_null_iff (copyrectChecks_eq_null_iff _)
      (copyrectChecks_raises _) id (of_decide_eq_true rfl)⟩
  | brushmask rop =>
    cases hV : s.regs.dst.view with
    | none => exact ⟨.nullop _, exec_brushmask_null hV, (Surface.view_eq_none_iff _).1 hV, id⟩
    | some V => exact ⟨.complete _ _, exec_brushmask_view hV, Surface.not_formatNull_of_view hV, id⟩
  | patfill => exact ⟨_, exec_patfill s, patfillChecks_follows _ _ _ _⟩
  | maskfill rop =>
    exact ⟨_, exec_maskfill rop s, Checked.ending_follows_of_null_iff (maskfillChecks_eq_null_iff _)
      (maskfillChecks_raises _) id (of_decide_eq_true rfl)⟩
  | stretchrow smode keep sneg dneg =>
    exact ⟨_, exec_stretchrow smode keep sneg dneg s, Checked.ending_follows_of_null_iff (scanChecks_eq_null_iff _ _)
      (scanChecks_raises _ _) id (of_decide_eq_true rfl)⟩
  | shrinkrow smode keep sneg dneg =>
    exact ⟨_, exec_shrinkrow smode keep sneg dneg s, Checked.ending_follows_of_null_iff (scanChecks_eq_null_iff _ _)
      (scanChecks_raises _ _) id (of_decide_eq_true rfl)⟩

end Sys2Proof.Machine

namespace Sys2Proof.Claims

open Sys2Proof.Machine

/-- Settles O4: the turn of an unraced engine, with the host's sequence empty or an engine event taken off it. -/
theorem stepRunsTheDecodedCommand : Obligations.StepRunsTheDecodedCommand := by
  refine fun s => ⟨fun hhost hidle => ?_, fun hb hr => ⟨?_, ?_, ?_, ?_⟩⟩
  · rw [step_of_host_nil hhost, s.engineTurn_idle hidle]
  · intro i hhost hdecode
    rw [step_of_host_nil hhost, State.engineTurn_unraced hb hr, State.runCommand_of_decode_ok hdecode]
  · intro e hhost hdecode
    rw [step_of_host_nil hhost, State.engineTurn_unraced hb hr, State.runCommand_of_decode_error hdecode]
  · intro i rest hhost hdecode
    rw [step_engine hhost, State.engineTurn_unraced (s := taken s rest) hb hr,
      State.runCommand_of_decode_ok (s := taken s rest) hdecode]
  · intro e rest hhost hdecode
    rw [step_engine hhost, State.engineTurn_unraced (s := taken s rest) hb hr,
      State.runCommand_of_decode_error (s := taken s rest) hdecode]

/-- Settles O7: every command's ending is a null no-op exactly under its null condition, and no other raises NULLOP. -/
theorem nullConditionsAreTheTable : Obligations.NullConditionsAreTheTable := by
  intro i s t hs ht
  obtain ⟨e, he, hfollows⟩ := exec_follows i s
  obtain rfl := Host.Outcome.next.inj (he.symm.trans ht)
  exact hfollows.nullop_iff hs

/-- Settles O8: every command's ending is PARAM exactly under its cause, and BOUNDS is the only other error. -/
theorem errorCausesOfCommands : Obligations.ErrorCausesOfCommands := by
  intro i s t hs ht
  obtain ⟨e, he, hfollows⟩ := exec_follows i s
  obtain rfl := Host.Outcome.next.inj (he.symm.trans ht)
  exact hfollows.errcode hs

end Sys2Proof.Claims
end

section
/-! PROOFS. Reset: which accesses reset the block, and what an abandoned command leaves in memory (70_reset R300, R301,
93 I2). -/

namespace Sys2Proof.Machine

open Sys2Proof.Claims

/-- The reset input resets the block. -/
theorem step_hardReset {s : State} {rest : List HostEvent} (h : s.host = .hardReset :: rest) :
    step s = .next (taken s rest).resetBlock :=
  step_of_host_cons h

theorem State.hostWriteReg_ctrl_reset (s : State) {v : Word} (hv : v.getLsbD 1 = true) :
    s.hostWriteReg .ctrl v = s.resetBlock :=
  if_pos hv

/-- A write of CTRL with SRST resets the block as the reset input does (70_reset R301). -/
theorem step_softReset {s : State} {v : Word} {rest : List HostEvent} (hv : v.getLsbD 1 = true)
    (h : s.host = .mmioWrite 32 0x004 v :: rest) : step s = .next (taken s rest).resetBlock := by
  have hw : wordOffset Reg.ctrl.offset := by unfold wordOffset; decide
  rw [step_mmioWrite (off := Reg.ctrl.offset) hw h, State.writeOffset_offset, State.hostWriteReg_ctrl_reset _ hv]

/-- An idle block has no command to abandon, so its reset leaves memory alone. -/
theorem State.resetBlock_mem_idle {s : State} (h : s.status.busy = false) : s.resetBlock.mem = s.mem := by
  rw [State.resetBlock, State.inProgress_idle h]
  rfl

/-- A reset changes no backed byte outside the write set of the command it abandons (70_reset R301, 93 I2). -/
theorem State.read_resetBlock {s : State} (hbacks : s.mem.backs (wordFootprint s.cmd s.regs).writes) {a : Word}
    (ha : s.mem.unbacked a.toNat = false) (hn : a ∉ (wordFootprint s.cmd s.regs).writes) :
    s.resetBlock.mem.read a = s.mem.read a := by
  cases hb : s.status.busy with
  | false => rw [State.resetBlock_mem_idle hb]
  | true =>
    rw [← State.inProgress_busy hb] at hbacks hn
    exact (freeBytes_untouched a s.fresh s.inProgress.writes s.mem hbacks ha hn).2

end Sys2Proof.Machine

namespace Sys2Proof.Claims

open Sys2Proof.Machine

/-- Settles O53: both accesses lead to the same reset of the block, whose registers are those of the reset state. -/
theorem resetFromAnyState : Obligations.ResetFromAnyState := by
  intro s rest hhost
  have hstep : step s = .next (taken s rest).resetBlock := by
    rcases hhost with hhard | ⟨v, hv, hsoft⟩
    · exact step_hardReset hhard
    · exact step_softReset hv hsoft
  refine ⟨_, hstep, rfl, rfl, rfl, rfl, rfl, rfl, rfl, fun hidle => ?_, fun hbacks a ha hn => ?_⟩
  · exact State.resetBlock_mem_idle (s := taken s rest) hidle
  · exact State.read_resetBlock (s := taken s rest) hbacks ha hn

end Sys2Proof.Claims
end
